-- ==== Sys2Proof/Word.lean ====
section
/-! DEFINITION. The machine's word types: a wire byte, a 16-bit colour word or coordinate, the 84-bit host
request (30_encoding.md R90), the 9-bit wire symbol (R94), and the rotation index (10_state.md R20). -/

namespace Sys2Proof

/-- One byte of the wire (20_memory.md R60). -/
abbrev Byte := BitVec 8

/-- A colour word or a 16-bit coordinate (00_scope.md R5: `COLOR_BITS`, `COORD_BITS`). -/
abbrev Word := BitVec 16

/-- A host request `REQ`, presented whole (30_encoding.md R90). -/
abbrev Req := BitVec 84

/-- A wire symbol `SYM = dc ++ byte` (30_encoding.md R94). -/
abbrev Sym := BitVec 9

/-- A rotation or a known orientation: an integer in {0,1,2,3} (10_state.md R20, R33). -/
abbrev Rot := Fin 4

end Sys2Proof
end

