-- ==== Sys2Proof/Config.lean ====
section
/-! DEFINITION. What an implementation fixes: the source's constants, the parameters of 00_scope.md R5 as one structure
with the constraints the spec puts on them, and the free values: the transport's answers (60_exceptions.md R233) and the tuning
table that the spec does not contain (40_init.md R124). -/

namespace Sys2Proof

/-- `W0`: native panel width, pixels (00_scope.md R5). -/
abbrev nativeWidth : Nat := 320

/-- `H0`: native panel height, pixels (00_scope.md R5). -/
abbrev nativeHeight : Nat := 480

/-- `EXT(o)`: the logical extents of an orientation (10_state.md R42). -/
def ext (o : Rot) : Nat × Nat :=
  if o.val % 2 = 0 then (nativeWidth, nativeHeight) else (nativeHeight, nativeWidth)

/-- A logical coordinate is in range for an orientation (10_state.md R42). -/
abbrev InRange (o : Rot) (c r : Nat) : Prop := c < (ext o).1 ∧ r < (ext o).2

/-- The subjects of the tuning table, in the source's order (40_init.md R124, constraint 1). -/
inductive Subject
  | rgbInterfaceMode | vcomVoltage | oscillatorFrequency | panelDefaults | powerLevels | sourceDriverTiming
  | gamma | pixelFormat16 | defaultMadctl | tearingOff | pixelFormatConfirm
  deriving DecidableEq, Repr

/-- The place of a subject in the source's order (40_init.md R124, constraint 1). -/
def Subject.rank : Subject → Nat
  | .rgbInterfaceMode => 0
  | .vcomVoltage => 1
  | .oscillatorFrequency => 2
  | .panelDefaults => 3
  | .powerLevels => 4
  | .sourceDriverTiming => 5
  | .gamma => 6
  | .pixelFormat16 => 7
  | .defaultMadctl => 8
  | .tearingOff => 9
  | .pixelFormatConfirm => 10

/-- One write of the tuning table; the subject is a remark that never reaches the wire (40_init.md R124). -/
structure InitEntry where
  subject : Subject
  command : Byte
  data : List Byte
  deriving DecidableEq, Repr

/-- The open parameters of 00_scope.md R5. -/
structure Params where
  cSwreset : Byte
  cSetextc : Byte
  cSlpout : Byte
  cDispon : Byte
  cCaset : Byte
  cPaset : Byte
  cRamwr : Byte
  cMadctl : Byte
  /-- `MADCTL_TABLE` (43_rotation.md R211). -/
  madctlTable : Rot → Byte
  /-- `XFORM` (43_rotation.md R214). -/
  xform : Rot → Nat → Nat → Nat × Nat
  /-- `INIT_TABLE` (40_init.md R124). -/
  initTable : List InitEntry
  /-- `STRICT_WINDOW` (41_addressing.md R151). -/
  strictWindow : Bool

/-- The eight command bytes the block's rules name (30_encoding.md R95). -/
def Params.commandBytes (p : Params) : List Byte :=
  [p.cSwreset, p.cSetextc, p.cSlpout, p.cDispon, p.cCaset, p.cPaset, p.cRamwr, p.cMadctl]

/-- The constraints on the parameters: 30_encoding.md R95 (distinct command bytes), 00_scope.md R5 (distinct MADCTL bytes),
43_rotation.md R215 (`XFORM` a bijection), 40_init.md R124 constraints 2 to 4. -/
structure Params.Ok (p : Params) : Prop where
  commands_distinct : p.commandBytes.Nodup
  madctl_distinct : ∀ i j : Rot, p.madctlTable i = p.madctlTable j → i = j
  xform_in : ∀ o c r, InRange o c r → (p.xform o c r).1 < nativeWidth ∧ (p.xform o c r).2 < nativeHeight
  xform_inj : ∀ o c r c' r', InRange o c r → InRange o c' r' → p.xform o c r = p.xform o c' r' → c = c' ∧ r = r'
  xform_onto : ∀ o px py, px < nativeWidth → py < nativeHeight → ∃ c r, InRange o c r ∧ p.xform o c r = (px, py)
  /-- "The gamma entry" of constraint 2 is read as the one entry of its subject. DESIGN CHOICE, log 26. -/
  gamma_entry : ((p.initTable.filter (·.subject = .gamma)).map (·.data.length)) = [34]
  /-- The one entry with the MADCTL command is of the subject of the default orientation (constraints 1 and 3). -/
  madctl_entry :
    ((p.initTable.filter (·.command = p.cMadctl)).map fun e => (e.subject, e.data)) = [(.defaultMadctl, [p.madctlTable 0])]
  init_quiet : ∀ e ∈ p.initTable, e.command ∉ [p.cCaset, p.cPaset, p.cRamwr, p.cSwreset]

/-- 40_init.md R124, constraints 1 and 5: the entries come in the source's order of subjects, every subject occurs (the 16-bit pixel
format among them), and a subject may take more than one entry: "the pixel-format entry" of constraint 5 is read as at least one.
DESIGN CHOICE, log 26. -/
structure Params.InitOrdered (p : Params) : Prop where
  in_order : (p.initTable.map (·.subject.rank)).Pairwise (· ≤ ·)
  all_occur : ∀ k < 11, k ∈ p.initTable.map (·.subject.rank)

/-- `UNLOCK`: the three data bytes of the unlock sequence (00_scope.md R5). -/
def unlockBytes : List Byte := [0xFF, 0x83, 0x57]

/-- `T_UNLOCK`, milliseconds, a lower bound (40_init.md R123). -/
def settleUnlock : Nat := 300

/-- `T_SLPOUT`, milliseconds, a lower bound (40_init.md R123). -/
def settleSlpout : Nat := 150

/-- `T_DISPON`, milliseconds, a lower bound (40_init.md R123). -/
def settleDispon : Nat := 50

/-- `SPI_HZ`: a transport detail that no rule reads (00_scope.md R5, 70_reset_and_hazards.md R276). -/
def spiHz : Nat := 30000000

/-- `SPI_MODE`: a transport detail that no rule reads (00_scope.md R5). -/
def spiMode : Nat := 0

/-- The environment's answer to the n-th question put to the transport (an acquisition or a transmit) where the State's list
of answers does not give it: a free value, nothing constrains it (60_exceptions.md R233; log 5). -/
opaque Config.freeAnswer : Nat → Bool

/-- The tuning table the hardware was built with, before it is asked whether it meets 40_init.md R124: a free value, nothing
constrains it. The spec does not contain the table (00_scope.md R5, decision D11; log 1). -/
opaque Config.freeInitTable : List InitEntry

end Sys2Proof
end

