-- ==== Sys2Proof/Machine/Parameters.lean ====
section
/-! DEFINITION. The parameters are an argument of the step relation (10_state.md R41): `execFor` and `stepFor` take them. Here
stand the values that the host's fixed names `exec` and `step` give that argument: the defaults of 00_scope.md R5 where it has
one (PRESUMED, log 2, 3, 4), and for `INIT_TABLE`, which has none, a free table under the constraints of 40_init.md R124
(log 1); and the test table T0 of 95_test_vectors.md V316. -/

namespace Sys2Proof.Machine

/-- `MY`, bit 7 of MADCTL: mirror rows (10_state.md R37). -/
def madMY (b : Byte) : Bool := b.getLsbD 7

/-- `MX`, bit 6 of MADCTL: mirror columns (10_state.md R37). -/
def madMX (b : Byte) : Bool := b.getLsbD 6

/-- `MV`, bit 5 of MADCTL: exchange rows and columns (10_state.md R37). -/
def madMV (b : Byte) : Bool := b.getLsbD 5

/-- `ML`, bit 4 of MADCTL: vertical refresh order; no rule reads it (10_state.md R37). -/
def madML (b : Byte) : Bool := b.getLsbD 4

/-- `BGR`, bit 3 of MADCTL: colour order; no rule reads it (10_state.md R37). -/
def madBGR (b : Byte) : Bool := b.getLsbD 3

/-- `MH`, bit 2 of MADCTL: horizontal refresh order; no rule reads it (10_state.md R37). -/
def madMH (b : Byte) : Bool := b.getLsbD 2

/-- The mirror and swap formula of 43_rotation.md R216. -/
def mirrorSwap (b : Byte) (c r : Nat) : Nat × Nat :=
  let px := if madMV b then r else c
  let py := if madMV b then c else r
  (if madMX b then nativeWidth - 1 - px else px, if madMY b then nativeHeight - 1 - py else py)

/-- The default `MADCTL_TABLE` (43_rotation.md R211). PRESUMED (G2), log 3. -/
def defaultMadctlTable : Rot → Byte
  | 0 => 0xC0
  | 1 => 0xA0
  | 2 => 0x00
  | 3 => 0x60

/-- The default `XFORM` (43_rotation.md R216). PRESUMED (G3), log 3. -/
def defaultXform (o : Rot) (c r : Nat) : Nat × Nat := mirrorSwap (defaultMadctlTable o) c r

/-- The recollected tuning table of 93_implementation_defined.md G4: it shows that the five constraints of 40_init.md R124 can be
met together. PRESUMED (G4), log 1. -/
def recollectedInitTable : List InitEntry :=
  [⟨.rgbInterfaceMode, 0xB3, [0x80, 0x00, 0x06, 0x06]⟩,
   ⟨.vcomVoltage, 0xB6, [0x25]⟩,
   ⟨.oscillatorFrequency, 0xB0, [0x68]⟩,
   ⟨.panelDefaults, 0xCC, [0x05]⟩,
   ⟨.powerLevels, 0xB1, [0x00, 0x15, 0x1C, 0x1C, 0x83, 0xAA]⟩,
   ⟨.sourceDriverTiming, 0xC0, [0x50, 0x50, 0x01, 0x3C, 0x1E, 0x08]⟩,
   ⟨.sourceDriverTiming, 0xB4, [0x02, 0x40, 0x00, 0x2A, 0x2A, 0x0D, 0x78]⟩,
   ⟨.gamma, 0xE0,
     [0x02, 0x0A, 0x11, 0x1D, 0x23, 0x35, 0x41, 0x4B, 0x4B, 0x42, 0x3A, 0x27, 0x1B, 0x08, 0x09, 0x03, 0x02] ++
     [0x0A, 0x11, 0x1D, 0x23, 0x35, 0x41, 0x4B, 0x4B, 0x42, 0x3A, 0x27, 0x1B, 0x08, 0x09, 0x03, 0x00, 0x01]⟩,
   ⟨.pixelFormat16, 0x3A, [0x55]⟩,
   ⟨.defaultMadctl, 0x36, [0xC0]⟩,
   ⟨.tearingOff, 0x35, [0x00]⟩,
   ⟨.pixelFormatConfirm, 0x44, [0x00, 0x02]⟩]

/-- The stand-in table of test configuration T0 (95_test_vectors.md V316): constraints 2 to 5 of R124 only. -/
def testInitTable : List InitEntry :=
  [⟨.gamma, 0xE0, List.replicate 34 0x00⟩, ⟨.pixelFormat16, 0x3A, [0x55]⟩, ⟨.defaultMadctl, 0x36, [0xC0]⟩]

/-- The defaults of 00_scope.md R5, with a tuning table (PRESUMED, log 2, 3, 4). -/
def defaultsWith (table : List InitEntry) : Params where
  cSwreset := 0x01
  cSetextc := 0xB9
  cSlpout := 0x11
  cDispon := 0x29
  cCaset := 0x2A
  cPaset := 0x2B
  cRamwr := 0x2C
  cMadctl := 0x36
  madctlTable := defaultMadctlTable
  xform := defaultXform
  initTable := table
  strictWindow := false

/-- The five constraints of 40_init.md R124 on the parameters' tuning table, with one gamma entry and at least one of the pixel format
(DESIGN CHOICE, log 26). -/
abbrev TableLawful (p : Params) : Prop :=
  (p.initTable.filter (·.subject = .gamma)).map (·.data.length) = [34] ∧
  (p.initTable.filter (·.command = p.cMadctl)).map (fun e => (e.subject, e.data)) = [(.defaultMadctl, [p.madctlTable 0])] ∧
  (∀ e ∈ p.initTable, e.command ∉ [p.cCaset, p.cPaset, p.cRamwr, p.cSwreset]) ∧
  (p.initTable.map (·.subject.rank)).Pairwise (· ≤ ·) ∧ ∀ k < 11, k ∈ p.initTable.map (·.subject.rank)

/-- `INIT_TABLE` (40_init.md R124): the free table, where it meets the constraints. Every table that meets them is a value of
this, so a claim about it holds for all of them; what stands in the other branch only keeps the constraints true of a free
value that breaks them (log 1). -/
def initTableInForce : List InitEntry :=
  if TableLawful (defaultsWith Config.freeInitTable) then Config.freeInitTable else recollectedInitTable

/-- The parameters in force in `exec` and `step` (00_scope.md R5; log 1, 2, 3, 4). -/
def params : Params := defaultsWith initTableInForce

end Sys2Proof.Machine
end

