-- ==== Sys2Proof/Syntax.lean ====
section
/-! DEFINITION. The abstract syntax: one constructor of `Instr` for each row of spec/opcode_table.json (the nine host
operations, the seven reserved codes, the wire symbols), the wire events, the two kinds of code word, and the inputs the
outside world can put to the machine: requests and power-ups, never a byte on the wire (20_memory.md R76). -/

namespace Sys2Proof

/-- The rows of spec/opcode_table.json. A field the operation ignores (30_encoding.md R100) is no argument. -/
inductive Instr
  /-- `begin()` (40_init.md R120). -/
  | begin
  /-- `setRotation(m)` (43_rotation.md R210). -/
  | setRotation (m : Word)
  /-- `setAddrWindow(x0, y0, x1, y1)` (41_addressing.md R140). -/
  | setAddrWindow (x0 y0 x1 y1 : Word)
  /-- `drawPixel(x, y, color)` (42_drawing.md R180). -/
  | drawPixel (x y color : Word)
  /-- `fillRect(x, y, w, h, color)` (42_drawing.md R182). -/
  | fillRect (x y w h color : Word)
  /-- `fillScreen(color)` (42_drawing.md R185). -/
  | fillScreen (color : Word)
  /-- `drawFastHLine(x, y, length, color)` (42_drawing.md R186). -/
  | drawFastHLine (x y length color : Word)
  /-- `drawFastVLine(x, y, length, color)` (42_drawing.md R187). -/
  | drawFastVLine (x y length color : Word)
  /-- `color565(r, g, b)` (42_drawing.md R188). -/
  | color565 (r g b : Byte)
  /-- Reserved operation code 9 (30_encoding.md R98). -/
  | reserved9
  /-- Reserved operation code 10 (30_encoding.md R98). -/
  | reserved10
  /-- Reserved operation code 11 (30_encoding.md R98). -/
  | reserved11
  /-- Reserved operation code 12 (30_encoding.md R98). -/
  | reserved12
  /-- Reserved operation code 13 (30_encoding.md R98). -/
  | reserved13
  /-- Reserved operation code 14 (30_encoding.md R98). -/
  | reserved14
  /-- Reserved operation code 15 (30_encoding.md R98). -/
  | reserved15
  /-- `Cmd(C_SWRESET)` (41_addressing.md R156). -/
  | wSwreset
  /-- `Cmd(C_SETEXTC)` (41_addressing.md R157). -/
  | wSetextc
  /-- `Cmd(C_SLPOUT)` (41_addressing.md R157). -/
  | wSlpout
  /-- `Cmd(C_DISPON)` (41_addressing.md R157). -/
  | wDispon
  /-- `Cmd(C_CASET)` (41_addressing.md R147). -/
  | wCaset
  /-- `Cmd(C_PASET)` (41_addressing.md R147). -/
  | wPaset
  /-- `Cmd(C_RAMWR)` (41_addressing.md R151). -/
  | wRamwr
  /-- `Cmd(C_MADCTL)` (41_addressing.md R159). -/
  | wMadctl
  /-- `Cmd(b)` for a byte that is none of the eight above (41_addressing.md R157, 30_encoding.md R99). -/
  | wOther (b : Byte)
  /-- `Data(b)` (41_addressing.md R145). -/
  | wData (b : Byte)
  deriving DecidableEq, Repr

/-- A wire event (00_scope.md R8). -/
inductive Event
  | cmd (b : Byte)
  | data (b : Byte)
  | delay (ms : Nat)
  deriving DecidableEq, Repr

/-- A code word: a host request or a wire symbol (30_encoding.md R90, R94). -/
inductive Code
  | request (r : Req)
  | symbol (y : Sym)
  deriving DecidableEq, Repr

/-- What the outside world puts to the machine, one at a time (log 6). -/
inductive Input
  /-- A host request, run in one step (00_scope.md R10). -/
  | present (r : Req)
  /-- A host request, run one wire event a step (00_scope.md R10, 10_state.md R25; log 8). -/
  | byEvents (r : Req)
  /-- Hardware reset, the power-up of the whole block (70_reset_and_hazards.md R260). -/
  | powerUp
  deriving DecidableEq, Repr

end Sys2Proof
end

