-- ==== Sys2Proof/WellFormed.lean ====
section
/-! DEFINITION. Which terms of `Instr` an encoding stands for: every operand value of every row, but that W_OTHER's byte is
none of the eight named command bytes (30_encoding.md R95, R99; the row's note "none of the eight above"). -/

namespace Sys2Proof

/-- A term that some code word decodes to, under the parameters `p`. -/
def WellFormedFor (p : Params) : Instr → Bool
  | .wOther b => !(p.commandBytes.contains b)
  | .begin | .setRotation _ | .setAddrWindow _ _ _ _ | .drawPixel _ _ _ | .fillRect _ _ _ _ _ | .fillScreen _
  | .drawFastHLine _ _ _ _ | .drawFastVLine _ _ _ _ | .color565 _ _ _
  | .reserved9 | .reserved10 | .reserved11 | .reserved12 | .reserved13 | .reserved14 | .reserved15
  | .wSwreset | .wSetextc | .wSlpout | .wDispon | .wCaset | .wPaset | .wRamwr | .wMadctl | .wData _ => true

/-- A term that some code word decodes to, under the parameters in force. -/
def WellFormed (i : Instr) : Bool := WellFormedFor Machine.params i

end Sys2Proof
end

