-- ==== Sys2Proof/Decode.lean ====
section
/-! DEFINITION. The decoder, total on every code word (30_encoding.md R103), the framing of raw bits and bytes, which
rejects by name, and the encoder, written from the same tables (30_encoding.md R90 to R95). -/

namespace Sys2Proof

/-- `op`, bits 83:80 (30_encoding.md R90). -/
def Req.op (r : Req) : BitVec 4 := r.extractLsb' 80 4

/-- `a0`, bits 79:64 (30_encoding.md R90). -/
def Req.a0 (r : Req) : Word := r.extractLsb' 64 16

/-- `a1`, bits 63:48 (30_encoding.md R90). -/
def Req.a1 (r : Req) : Word := r.extractLsb' 48 16

/-- `a2`, bits 47:32 (30_encoding.md R90). -/
def Req.a2 (r : Req) : Word := r.extractLsb' 32 16

/-- `a3`, bits 31:16 (30_encoding.md R90). -/
def Req.a3 (r : Req) : Word := r.extractLsb' 16 16

/-- `color`, bits 15:0 (30_encoding.md R90). -/
def Req.color (r : Req) : Word := r.extractLsb' 0 16

/-- The channel value in bits 7:0 of an argument field; bits 15:8 are ignored (30_encoding.md R93). -/
def channel (w : Word) : Byte := w.extractLsb' 0 8

/-- The operation codes and argument fields of 30_encoding.md R92. -/
def decodeRequest (r : Req) : Instr :=
  match (Req.op r).toNat with
  | 0 => .begin
  | 1 => .setRotation (Req.a0 r)
  | 2 => .setAddrWindow (Req.a0 r) (Req.a1 r) (Req.a2 r) (Req.a3 r)
  | 3 => .drawPixel (Req.a0 r) (Req.a1 r) (Req.color r)
  | 4 => .fillRect (Req.a0 r) (Req.a1 r) (Req.a2 r) (Req.a3 r) (Req.color r)
  | 5 => .fillScreen (Req.color r)
  | 6 => .drawFastHLine (Req.a0 r) (Req.a1 r) (Req.a2 r) (Req.color r)
  | 7 => .drawFastVLine (Req.a0 r) (Req.a1 r) (Req.a2 r) (Req.color r)
  | 8 => .color565 (channel (Req.a0 r)) (channel (Req.a1 r)) (channel (Req.a2 r))
  | 9 => .reserved9
  | 10 => .reserved10
  | 11 => .reserved11
  | 12 => .reserved12
  | 13 => .reserved13
  | 14 => .reserved14
  | _ => .reserved15

/-- The command bytes of 30_encoding.md R95; any other byte is W_OTHER (R99). -/
def decodeCommand (p : Params) (b : Byte) : Instr :=
  if b = p.cSwreset then .wSwreset
  else if b = p.cSetextc then .wSetextc
  else if b = p.cSlpout then .wSlpout
  else if b = p.cDispon then .wDispon
  else if b = p.cCaset then .wCaset
  else if b = p.cPaset then .wPaset
  else if b = p.cRamwr then .wRamwr
  else if b = p.cMadctl then .wMadctl
  else .wOther b

/-- `dc` is bit 8 of a symbol: 0 marks a command byte, 1 a data byte (30_encoding.md R94). -/
def Sym.dc (y : Sym) : Bool := y.getLsbD 8

/-- The byte of a symbol, bits 7:0 (30_encoding.md R94). -/
def Sym.byte (y : Sym) : Byte := y.extractLsb' 0 8

/-- A wire symbol's row (30_encoding.md R94, R95). -/
def decodeSymbol (p : Params) (y : Sym) : Instr :=
  if Sym.dc y then .wData (Sym.byte y) else decodeCommand p (Sym.byte y)

/-- Decoding under the parameters `p`: total (30_encoding.md R103). -/
def decodeFor (p : Params) : Code → Instr
  | .request r => decodeRequest r
  | .symbol y => decodeSymbol p y

/-- Decoding under the parameters in force. -/
def decode (c : Code) : Instr := decodeFor Machine.params c

/-- Why raw bits are no code word. -/
inductive DecodeError
  /-- The bits are as many as neither a wire symbol nor a request has. -/
  | badWidth
  /-- A bit above the 9 of a symbol or the 84 of a request is set. -/
  | strayBits
  deriving DecidableEq, Repr

/-- A wire symbol is 9 bits, held in 2 bytes; a request is 84 bits, held in 11 (30_encoding.md R90, R94; log 6). -/
def frameBits (nbits w : Nat) : Except DecodeError Code :=
  if 9 ≤ nbits ∧ nbits ≤ 16 then
    if w < 2 ^ 9 then .ok (.symbol (BitVec.ofNat 9 w)) else .error .strayBits
  else if 84 ≤ nbits ∧ nbits ≤ 88 then
    if w < 2 ^ 84 then .ok (.request (BitVec.ofNat 84 w)) else .error .strayBits
  else .error .badWidth

/-- The number whose bits 7:0 are the first byte, bits 15:8 the second, and so on. 30_encoding.md R90 and R94 present a request
and a symbol whole and give their bytes no order: this order is the model's own. DESIGN CHOICE (log 25). -/
def bytesToNat : List Byte → Nat
  | [] => 0
  | b :: bs => b.toNat + 256 * bytesToNat bs

/-- The decoder on raw bytes, the first byte holding bits 7:0 (DESIGN CHOICE, log 25): total, rejecting by name. -/
def decodeBytes (bs : List Byte) : Except DecodeError Instr :=
  (frameBits (8 * bs.length) (bytesToNat bs)).map decode

/-- The instruction the decoder reads from the bits `w`, numbered as spec/opcode_table.json numbers them. -/
def decodeTableWord (nbits w : Nat) : Option Instr :=
  match frameBits nbits w with
  | .ok c => some (decode c)
  | .error _ => none

/-- `REQ = op ++ a0 ++ a1 ++ a2 ++ a3 ++ color` (30_encoding.md R90). -/
def assemble (op : BitVec 4) (a0 a1 a2 a3 color : Word) : Req := op ++ a0 ++ a1 ++ a2 ++ a3 ++ color

/-- A channel value in bits 7:0 of an argument field. -/
def channelField (b : Byte) : Word := b.setWidth 16

/-- The symbol of a command byte: `dc = 0` (30_encoding.md R94). -/
def commandSymbol (b : Byte) : Sym := BitVec.ofNat 9 b.toNat

/-- The symbol of a data byte: `dc = 1` (30_encoding.md R94). -/
def dataSymbol (b : Byte) : Sym := BitVec.ofNat 9 (256 + b.toNat)

/-- The code word of an instruction under the parameters `p`; a field the operation ignores is sent as zero
(30_encoding.md R92, R95, R100; log 20). -/
def encodeFor (p : Params) : Instr → Code
  | .begin => .request (assemble 0 0 0 0 0 0)
  | .setRotation m => .request (assemble 1 m 0 0 0 0)
  | .setAddrWindow x0 y0 x1 y1 => .request (assemble 2 x0 y0 x1 y1 0)
  | .drawPixel x y color => .request (assemble 3 x y 0 0 color)
  | .fillRect x y w h color => .request (assemble 4 x y w h color)
  | .fillScreen color => .request (assemble 5 0 0 0 0 color)
  | .drawFastHLine x y length color => .request (assemble 6 x y length 0 color)
  | .drawFastVLine x y length color => .request (assemble 7 x y length 0 color)
  | .color565 r g b => .request (assemble 8 (channelField r) (channelField g) (channelField b) 0 0)
  | .reserved9 => .request (assemble 9 0 0 0 0 0)
  | .reserved10 => .request (assemble 10 0 0 0 0 0)
  | .reserved11 => .request (assemble 11 0 0 0 0 0)
  | .reserved12 => .request (assemble 12 0 0 0 0 0)
  | .reserved13 => .request (assemble 13 0 0 0 0 0)
  | .reserved14 => .request (assemble 14 0 0 0 0 0)
  | .reserved15 => .request (assemble 15 0 0 0 0 0)
  | .wSwreset => .symbol (commandSymbol p.cSwreset)
  | .wSetextc => .symbol (commandSymbol p.cSetextc)
  | .wSlpout => .symbol (commandSymbol p.cSlpout)
  | .wDispon => .symbol (commandSymbol p.cDispon)
  | .wCaset => .symbol (commandSymbol p.cCaset)
  | .wPaset => .symbol (commandSymbol p.cPaset)
  | .wRamwr => .symbol (commandSymbol p.cRamwr)
  | .wMadctl => .symbol (commandSymbol p.cMadctl)
  | .wOther b => .symbol (commandSymbol b)
  | .wData b => .symbol (dataSymbol b)

/-- The code word of an instruction under the parameters in force. -/
def encode (i : Instr) : Code := encodeFor Machine.params i

end Sys2Proof
end

