-- ==== Sys2Proof/Machine/State.lean ====
section
/-! DEFINITION. The machine's state as plain data (10_state.md), the state after reset (10_state.md R38), and the reasons a
step can stop (none). -/

namespace Sys2Proof.Machine

/-- `LIFE` (10_state.md R23). -/
inductive Life
  | unbegun | ready | failed
  deriving DecidableEq, Repr

/-- `RXMODE` (10_state.md R27). -/
inductive RxMode
  | idle | pCaset | pPaset | pMadctl | stream | pOther
  deriving DecidableEq, Repr

/-- A level of the data/command line (10_state.md R26). -/
inductive Level
  | high | low
  deriving DecidableEq, Repr

/-- `SEQ` (10_state.md R25): idle, or the latched request with the index of the next event of its emission list. -/
inductive Seq
  | idle
  | busy (req : Req) (i : Nat)
  deriving DecidableEq, Repr

/-- The status codes of a response (60_exceptions.md R230). -/
inductive Status
  | ok | transportUnavailable | transmitFailure | invalidGeometry | notReady | illegalOp
  deriving DecidableEq, Repr

/-- A response `RSP` (30_encoding.md R91). -/
structure Response where
  status : Status
  value : Word
  deriving DecidableEq, Repr

/-- The frame memory: cell number and colour word, strictly rising; an unlisted cell holds no value
(10_state.md R34; log 11). -/
abbrev Memory := List (Nat × Word)

/-- The panel half (10_state.md R27 to R35); `none` in a register is the spec's `unspecified` (00_scope.md R7). -/
structure Panel where
  /-- `RXMODE` (R27). -/
  rxmode : RxMode
  /-- `PIDX` (R27). -/
  pidx : Nat
  /-- `PBUF` (R28). -/
  pbuf : List Byte
  /-- `SC`: start column (R29). -/
  sc : Option Word
  /-- `EC`: end column (R29). -/
  ec : Option Word
  /-- `SP`: start row (R29). -/
  sp : Option Word
  /-- `EP`: end row (R29). -/
  ep : Option Word
  /-- `CC`: cursor column (R30). -/
  cc : Option Nat
  /-- `CR`: cursor row (R30). -/
  cr : Option Nat
  /-- `PCNT`: pixels still accepted (R31). -/
  pcnt : Option Nat
  /-- `PIXHI`: the pixel byte latch (R32). -/
  pixhi : Option Byte
  /-- `MADCTL` (R33, R37). -/
  madctl : Option Byte
  /-- `GRAM` (R34). -/
  gram : Memory
  /-- `PFAULT` (R35). -/
  pfault : Bool
  deriving DecidableEq, Repr

/-- The panel half after reset (10_state.md R38). -/
def Panel.reset : Panel where
  rxmode := .idle
  pidx := 0
  pbuf := []
  sc := none
  ec := none
  sp := none
  ep := none
  cc := none
  cr := none
  pcnt := none
  pixhi := none
  madctl := none
  gram := []
  pfault := false

/-- The state of the step relation: the controller half, the wire, the panel half, and the model's own bookkeeping. The parameters of
00_scope.md R5 and the transport's answers are arguments of the relation and stand nowhere in it (10_state.md R41). -/
structure Block where
  /-- `ROT` (10_state.md R20). -/
  rot : Rot
  /-- `WIDTH` (R21). -/
  width : Word
  /-- `HEIGHT` (R21). -/
  height : Word
  /-- `LIFE` (R23). -/
  life : Life
  /-- `SEQ` (R25). -/
  seq : Seq
  /-- `DC`; none is `unspecified` (R26). -/
  dc : Option Level
  /-- The panel half (R27 to R35). -/
  panel : Panel
  /-- The wire trace, oldest event first (00_scope.md R8). -/
  trace : List Event
  /-- The responses given, oldest first (30_encoding.md R91). The model's own field, log 15. -/
  responses : List Response
  /-- What the host will present next. The model's own field, log 6. -/
  program : List Input
  /-- How many questions the transport has been asked: the number of the next one. The model's own field, log 5. -/
  asked : Nat
  /-- A symbol that a test bench puts to the panel half by itself (95_test_vectors.md V319). No step puts one here, so in a run
  it is none. The model's own field, log 7. -/
  bench : Option Sym
  deriving DecidableEq, Repr

/-- The block right after hardware reset (10_state.md R38, 70_reset_and_hazards.md R260). -/
def Block.reset : Block where
  rot := 0
  width := 320
  height := 480
  life := .unbegun
  seq := .idle
  dc := none
  panel := Panel.reset
  trace := []
  responses := []
  program := []
  asked := 0
  bench := none

/-- The machine behind the host's interface: the block, and the environment's choice of the transport's answers, which the host's
fixed type of a step leaves no other place for. No step writes it (60_exceptions.md R233; log 5). -/
structure State extends Block where
  /-- The transport's answers to its first questions, by the question's number. The model's own field, log 5. -/
  answers : List Bool
  deriving DecidableEq, Repr

/-- The machine right after hardware reset (10_state.md R38, 70_reset_and_hazards.md R260). -/
def State.reset : State where
  toBlock := Block.reset
  answers := []

/-- No instruction of this hardware stops the machine: errors are statuses of a response (60_exceptions.md R240) or the
sticky bit `PFAULT` (10_state.md R35), both of them next states. So there is no fault, and nobody raises one (log 21). -/
inductive Fault
  deriving DecidableEq, Repr

/-- Why an instruction has no meaning. -/
inductive Refusal
  /-- Raised by an arm of `exec` that has no meaning yet; safe. No arm raises it: every instruction has its meaning. -/
  | notModelled (mnemonic : String)
  deriving DecidableEq, Repr

end Sys2Proof.Machine
end

