-- ==== Sys2Proof/Machine/Operands.lean ====
section
/-! DEFINITION. Operand forms: sign and zero extension, `lo16`, the byte order of the wire, the rotation operand, and the
colour conversion's bits (00_scope.md R6, 30_encoding.md R93, R96, 20_memory.md R61, R62). -/

namespace Sys2Proof.Machine

/-- `sext_16`: x, y, w, h and length (00_scope.md R6, 30_encoding.md R93). -/
def sext16 (v : Word) : Int := v.toInt

/-- `zext_16`: x0, y0, x1, y1 and m (00_scope.md R6, 30_encoding.md R93). -/
def zext16 (v : Word) : Int := v.toNat

/-- `lo16(i)`: the u in 0 … 65535 congruent to i modulo 65536 (00_scope.md R6). -/
def lo16 (i : Int) : Word := BitVec.ofInt 16 i

/-- `v[15:8]`, sent first (20_memory.md R61). -/
def hiByte (v : Word) : Byte := v.extractLsb' 8 8

/-- `v[7:0]`, sent second (20_memory.md R61). -/
def loByte (v : Word) : Byte := v.extractLsb' 0 8

/-- `first ++ second` = first * 256 + second, unsigned (30_encoding.md R96). -/
def joinBytes (first second : Byte) : Word := first ++ second

/-- `m mod 4` (43_rotation.md R210, R213). -/
def rotationOf (m : Word) : Rot := Fin.ofNat 4 m.toNat

/-- `((r & 0xF8) << 8) | ((g & 0xFC) << 3) | (b >> 3)` on 16 bits (42_drawing.md R188). -/
def packColor565 (r g b : Byte) : Word :=
  ((r.setWidth 16 &&& 0xF8#16) <<< 8) ||| ((g.setWidth 16 &&& 0xFC#16) <<< 3) ||| (b.setWidth 16 >>> 3)

/-- The orientation a MADCTL byte stands for: its place in `MADCTL_TABLE`, none if it has no place there
(10_state.md R33, 41_addressing.md R159). -/
def orientationOf (p : Params) (b : Byte) : Option Rot :=
  if b = p.madctlTable 0 then some 0
  else if b = p.madctlTable 1 then some 1
  else if b = p.madctlTable 2 then some 2
  else if b = p.madctlTable 3 then some 3
  else none

/-- `ORI`; none is `UNKNOWN` (10_state.md R33). -/
def Panel.ori (p : Params) (q : Panel) : Option Rot := q.madctl.bind (orientationOf p)

/-- The number of the cell (px, py) in `GRAM` (log 11). -/
def cellNumber (cell : Nat × Nat) : Nat := cell.2 * nativeWidth + cell.1

/-- The level of the data/command line during an event's byte; a delay leaves the line (30_encoding.md R94). -/
def lineAfter (e : Event) (dc : Option Level) : Option Level :=
  match e with
  | .cmd _ => some .low
  | .data _ => some .high
  | .delay _ => dc

/-- The symbol of a wire event; a delay puts none on the wire (30_encoding.md R94). -/
def symbolOf (e : Event) : Option Sym :=
  match e with
  | .cmd b => some (commandSymbol b)
  | .data b => some (dataSymbol b)
  | .delay _ => none

/-- The wire event of a symbol (30_encoding.md R94). -/
def symbolEvent (y : Sym) : Event := if Sym.dc y then .data (Sym.byte y) else .cmd (Sym.byte y)

end Sys2Proof.Machine
end

