-- ==== Sys2Proof/Machine/Flags.lean ====
section
/-! DEFINITION. The block has no arithmetic flags, no condition codes and no predicates (10_state.md R36). Its only status
bits are `LIFE` (R23), `PFAULT` (R35) and the status of a response, whose codes stand here (60_exceptions.md R230). -/

namespace Sys2Proof.Machine

/-- The code of a status (60_exceptions.md R230). -/
def Status.code : Status → BitVec 3
  | .ok => 0
  | .transportUnavailable => 1
  | .transmitFailure => 2
  | .invalidGeometry => 3
  | .notReady => 4
  | .illegalOp => 5

/-- `RSP = status ++ value`, 19 bits (30_encoding.md R91). -/
def Response.word (r : Response) : BitVec 19 := r.status.code ++ r.value

/-- `PFAULT <- 1`; nothing clears it but hardware reset (10_state.md R35). -/
def Panel.fault (q : Panel) : Panel := { q with pfault := true }

end Sys2Proof.Machine
end

