-- ==== Sys2Proof/Machine/Ops.lean ====
section
/-! DEFINITION. The shared operations: the frame memory, the transport's answers, the wire, ending an operation and taking
an error (60_exceptions.md R240), the liveness check (R235), and what the machine presents next. There is no return from an
error: nothing is saved (R243). -/

namespace Sys2Proof.Machine

/-- What a cell of `GRAM` holds; none is `no value` (10_state.md R34). -/
def memRead : Memory → Nat → Option Word
  | [], _ => none
  | (b, w) :: m, a => if a = b then some w else memRead m a

/-- A cell takes a word, or becomes `no value`; the list stays canonical (10_state.md R34; log 11). -/
def memWrite : Memory → Nat → Option Word → Memory
  | [], _, none => []
  | [], a, some v => [(a, v)]
  | (b, w) :: m, a, v =>
    if a < b then
      match v with
      | none => (b, w) :: m
      | some x => (a, x) :: (b, w) :: m
    else if a = b then
      match v with
      | none => m
      | some x => (a, x) :: m
    else (b, w) :: memWrite m a v

/-- Cell numbers above `lo` and strictly rising, each one a cell of the 320 x 480 panel. -/
def memRising : Option Nat → Memory → Bool
  | _, [] => true
  | lo, (a, _) :: m => (match lo with | none => true | some b => b < a) && a < nativeWidth * nativeHeight && memRising (some a) m

/-- The canonical form of the frame memory (20_memory.md R67; log 11). -/
def Memory.wf (m : Memory) : Bool := memRising none m

/-- The transport's answers, by the question's number (an acquisition or a transmit), as the environment chooses them: an argument
of the step relation (10_state.md R41, 60_exceptions.md R233). -/
abbrev Oracle := Nat → Bool

/-- The environment's answers in the closed machine: the State's list, then the free value (60_exceptions.md R233; log 5). -/
def State.oracle (s : State) : Oracle := fun n =>
  match s.answers[n]? with
  | some a => a
  | none => Config.freeAnswer n

/-- The block takes a step. -/
def State.onBlock (f : Block → Block) (s : State) : State := { s with toBlock := f s.toBlock }

/-- The transport's answer to the next question. -/
def Block.answer (ω : Oracle) (s : Block) : Bool := ω s.asked

/-- One question has been asked. -/
def Block.consume (s : Block) : Block := { s with asked := s.asked + 1 }

/-- An event is on the wire: it joins the trace and leaves the line at its level (00_scope.md R8, 10_state.md R26). -/
def Block.record (e : Event) (s : Block) : Block := { s with trace := s.trace ++ [e], dc := lineAfter e s.dc }

/-- The panel half takes a step. -/
def Block.onPanel (f : Panel → Panel) (s : Block) : Block := { s with panel := f s.panel }

/-- The operation ends: the response is given and `SEQ` goes idle (30_encoding.md R91, 10_state.md R25). -/
def respond (st : Status) (v : Word) (s : Block) : Block :=
  { s with seq := .idle, responses := s.responses ++ [⟨st, v⟩] }

/-- The operation ran to completion, or was a geometry no-op: status OK, value 0 (60_exceptions.md R230). -/
def complete (s : Block) : Block := respond .ok 0 s

/-- Taking an error (60_exceptions.md R240): the operation ends, the response carries the status, `SEQ` goes idle; nothing is
saved and no event follows. -/
def raise (st : Status) (s : Block) : Block := respond st 0 s

/-- `LIFE` takes a value; BEGIN alone calls this (10_state.md R23). -/
def setLife (l : Life) (s : Block) : Block := { s with life := l }

/-- `ROT`, `WIDTH` and `HEIGHT` change together; SET_ROTATION alone calls this (43_rotation.md R211, R212). -/
def commitRotation (r : Rot) (s : Block) : Block :=
  { s with rot := r, width := BitVec.ofNat 16 (ext r).1, height := BitVec.ofNat 16 (ext r).2 }

/-- An operation that has nothing to change in the controller half. -/
def keep (s : Block) : Block := s

/-- The liveness check of every operation that would transmit but BEGIN (60_exceptions.md R235). -/
def whenReady (body : Block → Block) (s : Block) : Block :=
  if s.life = .ready then body s else raise .notReady s

/-- What the host presents next, and the state in which it runs (00_scope.md R10). -/
def Block.fetch (s : Block) : Option (Input × Block) :=
  match s.program with
  | [] => none
  | inp :: rest => some (inp, { s with program := rest })

/-- Hardware reset: every piece of the block's state at its reset value and the trace emptied; what the outside world holds
(the rest of its inputs, the count of the questions) goes on (70_reset_and_hazards.md R260; log 15). -/
def powerUp (s : Block) : Block := { Block.reset with program := s.program, asked := s.asked }

end Sys2Proof.Machine
end

