-- ==== Sys2Proof/Machine/Receiver.lean ====
section
/-! DEFINITION. The panel half: what it does with one wire event (41_addressing.md R145 to R160). Once `PFAULT` is set it
goes on by the same rules, as R145 allows (log 12). -/

namespace Sys2Proof.Machine

/-- A command byte in `STREAM` mode after an odd number of data bytes: the cell under the cursor, if there is one, becomes
`no value` (41_addressing.md R155). A register that is unspecified faults (00_scope.md R7; log 13). -/
def Panel.dropHalfPixel (p : Params) (q : Panel) : Panel :=
  if q.rxmode = .stream ∧ q.pixhi ≠ none ∧ q.pfault = false then
    match q.pcnt, q.cc, q.cr with
    | some n, some c, some r =>
      match q.ori p with
      | some o =>
        if 0 < n ∧ InRange o c r then { q with gram := memWrite q.gram (cellNumber (p.xform o c r)) none } else q
      | none => q
    | _, _, _ => q.fault
  else q

/-- Every command byte, common part (41_addressing.md R146). -/
def Panel.startCommand (p : Params) (q : Panel) : Panel :=
  { q.dropHalfPixel p with pbuf := [], pidx := 0, pixhi := none }

/-- `Cmd(C_CASET)` (41_addressing.md R147). -/
def Panel.caset (p : Params) (q : Panel) : Panel :=
  { q.startCommand p with sc := none, ec := none, rxmode := .pCaset }

/-- `Cmd(C_PASET)` (41_addressing.md R147). -/
def Panel.paset (p : Params) (q : Panel) : Panel :=
  { q.startCommand p with sp := none, ep := none, rxmode := .pPaset }

/-- The stricter reading of a window's declaration (41_addressing.md R151): the orientation is unknown or the window reaches
beyond its extents. -/
def Panel.declaredOut (p : Params) (q : Panel) (ec ep : Word) : Bool :=
  match q.ori p with
  | none => true
  | some o => decide ((ext o).1 ≤ ec.toNat) || decide ((ext o).2 ≤ ep.toNat)

/-- "The pixel count implied by the window", both ends inclusive (41_addressing.md R151). -/
def windowArea (sc ec sp ep : Word) : Nat := (ec.toNat - sc.toNat + 1) * (ep.toNat - sp.toNat + 1)

/-- Entering `STREAM`, after the common part (41_addressing.md R151). -/
def Panel.openStream (p : Params) (q : Panel) : Panel :=
  match q.sc, q.ec, q.sp, q.ep with
  | some sc, some ec, some sp, some ep =>
    if ec.toNat < sc.toNat ∨ ep.toNat < sp.toNat then { q with rxmode := .stream, pfault := true }
    else if q.declaredOut p ec ep && p.strictWindow then { q with rxmode := .stream, pfault := true }
    else { q with rxmode := .stream, cc := some sc.toNat, cr := some sp.toNat, pcnt := some (windowArea sc ec sp ep) }
  | _, _, _, _ => { q with rxmode := .stream, pfault := true }

/-- `Cmd(C_RAMWR)` (41_addressing.md R151). -/
def Panel.ramwr (p : Params) (q : Panel) : Panel := (q.startCommand p).openStream p

/-- `Cmd(C_MADCTL)` (41_addressing.md R159, command part). -/
def Panel.madctlCommand (p : Params) (q : Panel) : Panel :=
  { q.startCommand p with madctl := none, rxmode := .pMadctl }

/-- `Cmd(C_SWRESET)`: nothing of the panel half survives it but `PFAULT` (41_addressing.md R156). -/
def Panel.swreset (p : Params) (q : Panel) : Panel :=
  { q.startCommand p with
      sc := none, ec := none, sp := none, ep := none, cc := none, cr := none, pcnt := none, madctl := none, gram := [],
      rxmode := .pOther }

/-- Any other command (41_addressing.md R157). -/
def Panel.otherCommand (p : Params) (q : Panel) : Panel := { q.startCommand p with rxmode := .pOther }

/-- The dispatch on a command byte (41_addressing.md R146). -/
def Panel.command (p : Params) (b : Byte) (q : Panel) : Panel :=
  if b = p.cCaset then q.caset p
  else if b = p.cPaset then q.paset p
  else if b = p.cRamwr then q.ramwr p
  else if b = p.cMadctl then q.madctlCommand p
  else if b = p.cSwreset then q.swreset p
  else q.otherCommand p

/-- A data byte in `P_CASET` (41_addressing.md R148, R150). A fourth byte that does not find three in `PBUF` faults (log 13). -/
def Panel.casetByte (b : Byte) (q : Panel) : Panel :=
  if q.pidx < 3 then { q with pbuf := q.pbuf ++ [b] }
  else if q.pidx = 3 then
    match q.pbuf with
    | [b0, b1, b2] => { q with pbuf := [b0, b1, b2, b], sc := some (joinBytes b0 b1), ec := some (joinBytes b2 b) }
    | _ => q.fault
  else q.fault

/-- A data byte in `P_PASET` (41_addressing.md R149, R150). -/
def Panel.pasetByte (b : Byte) (q : Panel) : Panel :=
  if q.pidx < 3 then { q with pbuf := q.pbuf ++ [b] }
  else if q.pidx = 3 then
    match q.pbuf with
    | [b0, b1, b2] => { q with pbuf := [b0, b1, b2, b], sp := some (joinBytes b0 b1), ep := some (joinBytes b2 b) }
    | _ => q.fault
  else q.fault

/-- A data byte in `P_MADCTL` (41_addressing.md R159, data part). -/
def Panel.madctlByte (b : Byte) (q : Panel) : Panel :=
  if q.pidx = 0 then { q with madctl := some b } else q.fault

/-- The cursor's advance after a pixel written, row-major (41_addressing.md R153); `n` is `PCNT` after it. -/
def Panel.advance (n c r : Nat) (q : Panel) : Panel :=
  match q.sc, q.ec with
  | some sc, some ec =>
    if c = ec.toNat then { q with pcnt := some n, cc := some sc.toNat, cr := some (r + 1) }
    else { q with pcnt := some n, cc := some (c + 1) }
  | _, _ => q.fault

/-- A whole pixel in `STREAM` mode, the latch already cleared (41_addressing.md R152, R154). -/
def Panel.pixel (p : Params) (pix : Word) (q : Panel) : Panel :=
  if q.pfault then q
  else
    match q.pcnt, q.cc, q.cr, q.ori p with
    | some (n + 1), some c, some r, some o =>
      if InRange o c r then
        Panel.advance n c r { q with gram := memWrite q.gram (cellNumber (p.xform o c r)) (some pix) }
      else q.fault
    | _, _, _, _ => q.fault

/-- A data byte in `STREAM`: half of a colour word, high byte first (41_addressing.md R152, 20_memory.md R62). -/
def Panel.streamByte (p : Params) (b : Byte) (q : Panel) : Panel :=
  match q.pixhi with
  | none => { q with pixhi := some b }
  | some hi => Panel.pixel p (joinBytes hi b) { q with pixhi := none }

/-- What a data byte does besides being counted, by the mode (41_addressing.md R145): in `IDLE` it faults (R158), in `P_OTHER` it
is absorbed (R157). -/
def Panel.takeByte (p : Params) (b : Byte) (q : Panel) : Panel :=
  match q.rxmode with
  | .idle => q.fault
  | .pCaset => q.casetByte b
  | .pPaset => q.pasetByte b
  | .pMadctl => q.madctlByte b
  | .stream => q.streamByte p b
  | .pOther => q

/-- A data byte: `PIDX` counts it in every mode (10_state.md R27; log 14). -/
def Panel.dataByte (p : Params) (b : Byte) (q : Panel) : Panel := { q.takeByte p b with pidx := q.pidx + 1 }

/-- The receiver's step on one delivered wire event (41_addressing.md R145); a delay changes nothing (R160). -/
def Panel.receive (p : Params) (q : Panel) (e : Event) : Panel :=
  match e with
  | .cmd b => q.command p b
  | .data b => q.dataByte p b
  | .delay _ => q

end Sys2Proof.Machine
end

