-- ==== Sys2Proof/Machine/Emission.lean ====
section
/-! DEFINITION. The controller half's emission lists (00_scope.md R8) and their transmission over the wire: each operation's
finite list of events as a function of the request and of PanelState, and the rule of the first failing transmit
(60_exceptions.md R241). -/

namespace Sys2Proof.Machine

/-- A coordinate's two bytes, high byte first (20_memory.md R61). -/
def coordinateBytes (v : Word) : List Event := [.data (hiByte v), .data (loByte v)]

/-- `AddrWindow(a, b, c, d)`: first column, first row, last column, last row (41_addressing.md R141). -/
def addrWindow (p : Params) (a b c d : Int) : List Event :=
  [.cmd p.cCaset] ++ coordinateBytes (lo16 a) ++ coordinateBytes (lo16 c) ++
  [.cmd p.cPaset] ++ coordinateBytes (lo16 b) ++ coordinateBytes (lo16 d) ++
  [.cmd p.cRamwr]

/-- `PushColor(c)`: high byte first (41_addressing.md R142). -/
def pushColor (color : Word) : List Event := [.data (hiByte color), .data (loByte color)]

/-- `repeat n times: PushColor(color)` (42_drawing.md R182). -/
def pushColors (color : Word) : Nat → List Event
  | 0 => []
  | n + 1 => pushColor color ++ pushColors color n

/-- One write of the tuning table: the command, then its data bytes in order (40_init.md R120). -/
def entryEvents (e : InitEntry) : List Event := .cmd e.command :: e.data.map .data

/-- BEGIN's emission list, the order normative (40_init.md R120, R122). -/
def beginEvents (p : Params) : List Event :=
  [.cmd p.cSwreset, .cmd p.cSetextc] ++ unlockBytes.map .data ++ [.delay settleUnlock] ++
  p.initTable.flatMap entryEvents ++
  [.cmd p.cSlpout, .delay settleSlpout, .cmd p.cDispon, .delay settleDispon]

/-- SET_ROTATION's emission list (43_rotation.md R210). -/
def rotationEvents (p : Params) (r : Rot) : List Event := [.cmd p.cMadctl, .data (p.madctlTable r)]

/-- DRAW_PIXEL's emission list; empty when the pixel is rejected (42_drawing.md R180). -/
def drawPixelEvents (p : Params) (width height x y : Int) (color : Word) : List Event :=
  if x < 0 ∨ y < 0 ∨ width ≤ x ∨ height ≤ y then []
  else addrWindow p x y (x + 1) (y + 1) ++ pushColor color

/-- The clamp of a size to the room left of an edge (42_drawing.md R182): `if x + w - 1 >= WIDTH: w <- WIDTH - x`. -/
def clampSize (extent x w : Int) : Int := if extent ≤ x + w - 1 then extent - x else w

/-- FILL_RECT's reject tests and clamps (42_drawing.md R182): none is a no-op, else the clamped size. -/
def clipRect (width height x y w h : Int) : Option (Int × Int) :=
  if width ≤ x ∨ height ≤ y then none
  else if x < 0 ∨ y < 0 then none
  else if clampSize width x w ≤ 0 ∨ clampSize height y h ≤ 0 then none
  else some (clampSize width x w, clampSize height y h)

/-- FILL_RECT's emission list; empty when it is a no-op (42_drawing.md R182). -/
def fillRectEvents (p : Params) (width height x y w h : Int) (color : Word) : List Event :=
  match clipRect width height x y w h with
  | none => []
  | some (w', h') => addrWindow p x y (x + w' - 1) (y + h' - 1) ++ pushColors color (w' * h').toNat

/-- FILL_SCREEN delegates to FILL_RECT(0, 0, WIDTH, HEIGHT, color) (42_drawing.md R185). -/
def fillScreenEvents (p : Params) (width height : Int) (color : Word) : List Event :=
  fillRectEvents p width height 0 0 width height color

/-- DRAW_FAST_HLINE is FILL_RECT(x, y, length, 1, color) (42_drawing.md R186). -/
def hLineEvents (p : Params) (width height x y length : Int) (color : Word) : List Event :=
  fillRectEvents p width height x y length 1 color

/-- DRAW_FAST_VLINE is FILL_RECT(x, y, 1, length, color) (42_drawing.md R187). -/
def vLineEvents (p : Params) (width height x y length : Int) (color : Word) : List Event :=
  fillRectEvents p width height x y 1 length color

/-- The event reaches the panel half: it joins the trace, and the receiver takes its step (20_memory.md R69). -/
def Block.deliver (p : Params) (e : Event) (s : Block) : Block :=
  (s.record e).onPanel fun q => q.receive p e

/-- One transmit, a blocking send: the line is driven, then the transport answers; an event whose transmit succeeds has reached the
panel half when the send returns, a byte whose transmit fails is not delivered (00_scope.md R8, 10_state.md R26, 20_memory.md R75,
60_exceptions.md R241; log 9, 10). A delay asks nothing and cannot fail. -/
def Block.send (p : Params) (ω : Oracle) (e : Event) (s : Block) : Block × Bool :=
  match e with
  | .delay ms => (s.deliver p (.delay ms), true)
  | .cmd b => if s.answer ω then (s.consume.deliver p (.cmd b), true) else ({ s.consume with dc := some .low }, false)
  | .data b => if s.answer ω then (s.consume.deliver p (.data b), true) else ({ s.consume with dc := some .high }, false)

/-- The events of an emission list in order, up to the first failing transmit (60_exceptions.md R241). -/
def emit (p : Params) (ω : Oracle) : List Event → Block → Block × Bool
  | [], s => (s, true)
  | e :: es, s =>
    match s.send p ω e with
    | (t, true) => emit p ω es t
    | (t, false) => (t, false)

/-- An operation past its checks: emit; on success commit and answer OK, at the first failing transmit answer
TRANSMIT_FAILURE (60_exceptions.md R230, R232, R241). -/
def perform (p : Params) (ω : Oracle) (es : List Event) (commit abort : Block → Block) (s : Block) : Block :=
  match emit p ω es s with
  | (t, true) => complete (commit t)
  | (t, false) => raise .transmitFailure (abort t)

/-- The logical width as an integer (42_drawing.md R190). -/
def Block.widthInt (s : Block) : Int := zext16 s.width

/-- The logical height as an integer (42_drawing.md R190). -/
def Block.heightInt (s : Block) : Int := zext16 s.height

end Sys2Proof.Machine
end

