-- ==== Sys2Proof/Machine/Addressing.lean ====
section
/-! DEFINITION. SET_ADDR_WINDOW (41_addressing.md R140). -/

namespace Sys2Proof.Machine

/-- SET_ADDR_WINDOW under the parameters `p` and the answers `ω` (41_addressing.md R140): the four values are sent as given, neither clipped nor
ordered. -/
def runSetAddrWindow (p : Params) (ω : Oracle) (x0 y0 x1 y1 : Word) (s : Block) : Block :=
  whenReady (perform p ω (addrWindow p (zext16 x0) (zext16 y0) (zext16 x1) (zext16 y1)) keep keep) s

/-- SET_ADDR_WINDOW (41_addressing.md R140). -/
def execSetAddrWindow (x0 y0 x1 y1 : Word) (s : State) : Host.Outcome State Fault Refusal :=
  .next (s.onBlock (runSetAddrWindow params s.oracle x0 y0 x1 y1))

end Sys2Proof.Machine
end

