-- ==== Sys2Proof/Machine/Drawing.lean ====
section
/-! DEFINITION. The drawing primitives and COLOR565 (42_drawing.md R180 to R195). A rejected shape answers OK and emits
nothing (R195): its emission list is empty. -/

namespace Sys2Proof.Machine

/-- A drawing primitive past its decoding: the liveness check, then the events (60_exceptions.md R235, R239). -/
def draw (p : Params) (ω : Oracle) (es : List Event) (s : Block) : Block := whenReady (perform p ω es keep keep) s

/-- DRAW_PIXEL under the parameters `p` and the answers `ω` (42_drawing.md R180). -/
def runDrawPixel (p : Params) (ω : Oracle) (x y color : Word) (s : Block) : Block :=
  draw p ω (drawPixelEvents p s.widthInt s.heightInt (sext16 x) (sext16 y) color) s

/-- FILL_RECT under the parameters `p` and the answers `ω` (42_drawing.md R182). -/
def runFillRect (p : Params) (ω : Oracle) (x y w h color : Word) (s : Block) : Block :=
  draw p ω (fillRectEvents p s.widthInt s.heightInt (sext16 x) (sext16 y) (sext16 w) (sext16 h) color) s

/-- FILL_SCREEN under the parameters `p` and the answers `ω` (42_drawing.md R185). -/
def runFillScreen (p : Params) (ω : Oracle) (color : Word) (s : Block) : Block :=
  draw p ω (fillScreenEvents p s.widthInt s.heightInt color) s

/-- DRAW_FAST_HLINE under the parameters `p` and the answers `ω` (42_drawing.md R186). -/
def runDrawFastHLine (p : Params) (ω : Oracle) (x y length color : Word) (s : Block) : Block :=
  draw p ω (hLineEvents p s.widthInt s.heightInt (sext16 x) (sext16 y) (sext16 length) color) s

/-- DRAW_FAST_VLINE under the parameters `p` and the answers `ω` (42_drawing.md R187). -/
def runDrawFastVLine (p : Params) (ω : Oracle) (x y length color : Word) (s : Block) : Block :=
  draw p ω (vLineEvents p s.widthInt s.heightInt (sext16 x) (sext16 y) (sext16 length) color) s

/-- DRAW_PIXEL (42_drawing.md R180). -/
def execDrawPixel (x y color : Word) (s : State) : Host.Outcome State Fault Refusal :=
  .next (s.onBlock (runDrawPixel params s.oracle x y color))

/-- FILL_RECT (42_drawing.md R182). -/
def execFillRect (x y w h color : Word) (s : State) : Host.Outcome State Fault Refusal :=
  .next (s.onBlock (runFillRect params s.oracle x y w h color))

/-- FILL_SCREEN (42_drawing.md R185). -/
def execFillScreen (color : Word) (s : State) : Host.Outcome State Fault Refusal := .next (s.onBlock (runFillScreen params s.oracle color))

/-- DRAW_FAST_HLINE (42_drawing.md R186). -/
def execDrawFastHLine (x y length color : Word) (s : State) : Host.Outcome State Fault Refusal :=
  .next (s.onBlock (runDrawFastHLine params s.oracle x y length color))

/-- DRAW_FAST_VLINE (42_drawing.md R187). -/
def execDrawFastVLine (x y length color : Word) (s : State) : Host.Outcome State Fault Refusal :=
  .next (s.onBlock (runDrawFastVLine params s.oracle x y length color))

/-- COLOR565 (42_drawing.md R188): answered in every `LIFE`, no wire event. -/
def execColor565 (r g b : Byte) (s : State) : Host.Outcome State Fault Refusal :=
  .next (s.onBlock (respond .ok (packColor565 r g b)))

end Sys2Proof.Machine
end

