-- ==== Sys2Proof/Machine/Init.lean ====
section
/-! DEFINITION. BEGIN (40_init.md R120 to R128). -/

namespace Sys2Proof.Machine

/-- BEGIN up to its emission (40_init.md R120, R121, R127): refused in FAILED; in UNBEGUN the transport is acquired first,
in READY it is not acquired again; then `body`. -/
def openBegin (ω : Oracle) (body : Block → Block) (s : Block) : Block :=
  match s.life with
  | .failed => raise .notReady s
  | .ready => body s
  | .unbegun =>
    if s.answer ω then body s.consume else raise .transportUnavailable (setLife .failed s.consume)

/-- BEGIN under the parameters `p` and the answers `ω` (40_init.md R120): on success `LIFE` is READY, at a failing transmit FAILED (R126).
PanelState is untouched. -/
def runBegin (p : Params) (ω : Oracle) (s : Block) : Block :=
  openBegin ω (perform p ω (beginEvents p) (setLife .ready) (setLife .failed)) s

/-- BEGIN (40_init.md R120). -/
def execBegin (s : State) : Host.Outcome State Fault Refusal := .next (s.onBlock (runBegin params s.oracle))

end Sys2Proof.Machine
end

