-- ==== Sys2Proof/Machine/Reserved.lean ====
section
/-! DEFINITION. The reserved operation codes 9 to 15 (30_encoding.md R98, 60_exceptions.md R236): no wire event, no state
changed, status ILLEGAL_OP in every `LIFE`. -/

namespace Sys2Proof.Machine

/-- Operation code 9 is reserved (30_encoding.md R98). -/
def execReserved9 (s : State) : Host.Outcome State Fault Refusal := .next (s.onBlock (raise .illegalOp))

/-- Operation code 10 is reserved (30_encoding.md R98). -/
def execReserved10 (s : State) : Host.Outcome State Fault Refusal := .next (s.onBlock (raise .illegalOp))

/-- Operation code 11 is reserved (30_encoding.md R98). -/
def execReserved11 (s : State) : Host.Outcome State Fault Refusal := .next (s.onBlock (raise .illegalOp))

/-- Operation code 12 is reserved (30_encoding.md R98). -/
def execReserved12 (s : State) : Host.Outcome State Fault Refusal := .next (s.onBlock (raise .illegalOp))

/-- Operation code 13 is reserved (30_encoding.md R98). -/
def execReserved13 (s : State) : Host.Outcome State Fault Refusal := .next (s.onBlock (raise .illegalOp))

/-- Operation code 14 is reserved (30_encoding.md R98). -/
def execReserved14 (s : State) : Host.Outcome State Fault Refusal := .next (s.onBlock (raise .illegalOp))

/-- Operation code 15 is reserved (30_encoding.md R98). -/
def execReserved15 (s : State) : Host.Outcome State Fault Refusal := .next (s.onBlock (raise .illegalOp))

end Sys2Proof.Machine
end

