-- ==== Sys2Proof/Machine/Rotation.lean ====
section
/-! DEFINITION. SET_ROTATION (43_rotation.md R210 to R213). -/

namespace Sys2Proof.Machine

/-- SET_ROTATION under the parameters `p` and the answers `ω` (43_rotation.md R210): `ROT`, `WIDTH`, `HEIGHT` commit after both bytes are delivered,
not at all otherwise (R212). -/
def runSetRotation (p : Params) (ω : Oracle) (m : Word) (s : Block) : Block :=
  whenReady (perform p ω (rotationEvents p (rotationOf m)) (commitRotation (rotationOf m)) keep) s

/-- SET_ROTATION (43_rotation.md R210). -/
def execSetRotation (m : Word) (s : State) : Host.Outcome State Fault Refusal := .next (s.onBlock (runSetRotation params s.oracle m))

end Sys2Proof.Machine
end

