-- ==== Sys2Proof/Machine/WireSymbols.lean ====
section
/-! DEFINITION. The wire symbols, as the panel half consumes them (41_addressing.md R145 to R159): its step changes its own
registers and nothing of the controller half or of the wire (20_memory.md R72). In a run a symbol reaches it as an event that the
controller half emits (`Block.deliver`); by itself, from a test bench, as 95_test_vectors.md V319 does (log 7). -/

namespace Sys2Proof.Machine

/-- W_SWRESET (41_addressing.md R156). -/
def execWSwreset (s : State) : Host.Outcome State Fault Refusal := .next (s.onBlock (Block.onPanel (Panel.swreset params)))

/-- W_SETEXTC (41_addressing.md R157). -/
def execWSetextc (s : State) : Host.Outcome State Fault Refusal := .next (s.onBlock (Block.onPanel (Panel.otherCommand params)))

/-- W_SLPOUT (41_addressing.md R157, 60_exceptions.md R250). -/
def execWSlpout (s : State) : Host.Outcome State Fault Refusal := .next (s.onBlock (Block.onPanel (Panel.otherCommand params)))

/-- W_DISPON (41_addressing.md R157, 60_exceptions.md R250). -/
def execWDispon (s : State) : Host.Outcome State Fault Refusal := .next (s.onBlock (Block.onPanel (Panel.otherCommand params)))

/-- W_CASET (41_addressing.md R147). -/
def execWCaset (s : State) : Host.Outcome State Fault Refusal := .next (s.onBlock (Block.onPanel (Panel.caset params)))

/-- W_PASET (41_addressing.md R147). -/
def execWPaset (s : State) : Host.Outcome State Fault Refusal := .next (s.onBlock (Block.onPanel (Panel.paset params)))

/-- W_RAMWR (41_addressing.md R151). -/
def execWRamwr (s : State) : Host.Outcome State Fault Refusal := .next (s.onBlock (Block.onPanel (Panel.ramwr params)))

/-- W_MADCTL (41_addressing.md R159). -/
def execWMadctl (s : State) : Host.Outcome State Fault Refusal := .next (s.onBlock (Block.onPanel (Panel.madctlCommand params)))

/-- W_OTHER (41_addressing.md R157, 30_encoding.md R99). -/
def execWOther (_b : Byte) (s : State) : Host.Outcome State Fault Refusal := .next (s.onBlock (Block.onPanel (Panel.otherCommand params)))

/-- W_DATA (41_addressing.md R145). -/
def execWData (b : Byte) (s : State) : Host.Outcome State Fault Refusal := .next (s.onBlock (Block.onPanel (Panel.dataByte params b)))

end Sys2Proof.Machine
end

