-- ==== Sys2Proof/Machine/Dispatch.lean ====
section
/-! DEFINITION. The dispatch: one arm per constructor of `Instr`, each one call of its meaning. -/

namespace Sys2Proof.Machine

def exec (i : Instr) (s : State) : Host.Outcome State Fault Refusal :=
  match i with
  | .begin => Sys2Proof.Machine.execBegin s
  | .setRotation m => Sys2Proof.Machine.execSetRotation m s
  | .setAddrWindow x0 y0 x1 y1 => Sys2Proof.Machine.execSetAddrWindow x0 y0 x1 y1 s
  | .drawPixel x y color => Sys2Proof.Machine.execDrawPixel x y color s
  | .fillRect x y w h color => Sys2Proof.Machine.execFillRect x y w h color s
  | .fillScreen color => Sys2Proof.Machine.execFillScreen color s
  | .drawFastHLine x y length color => Sys2Proof.Machine.execDrawFastHLine x y length color s
  | .drawFastVLine x y length color => Sys2Proof.Machine.execDrawFastVLine x y length color s
  | .color565 r g b => Sys2Proof.Machine.execColor565 r g b s
  | .reserved9 => Sys2Proof.Machine.execReserved9 s
  | .reserved10 => Sys2Proof.Machine.execReserved10 s
  | .reserved11 => Sys2Proof.Machine.execReserved11 s
  | .reserved12 => Sys2Proof.Machine.execReserved12 s
  | .reserved13 => Sys2Proof.Machine.execReserved13 s
  | .reserved14 => Sys2Proof.Machine.execReserved14 s
  | .reserved15 => Sys2Proof.Machine.execReserved15 s
  | .wSwreset => Sys2Proof.Machine.execWSwreset s
  | .wSetextc => Sys2Proof.Machine.execWSetextc s
  | .wSlpout => Sys2Proof.Machine.execWSlpout s
  | .wDispon => Sys2Proof.Machine.execWDispon s
  | .wCaset => Sys2Proof.Machine.execWCaset s
  | .wPaset => Sys2Proof.Machine.execWPaset s
  | .wRamwr => Sys2Proof.Machine.execWRamwr s
  | .wMadctl => Sys2Proof.Machine.execWMadctl s
  | .wOther b => Sys2Proof.Machine.execWOther b s
  | .wData b => Sys2Proof.Machine.execWData b s

end Sys2Proof.Machine
end

