-- ==== Sys2Proof/Machine/Sequencer.lean ====
section
/-! DEFINITION. The step relation, with the parameters and the transport's answers as its arguments (10_state.md R41, 60_exceptions.md
R233): `execFor`, an instruction run whole; `tick`, one event of an operation in progress (00_scope.md R10, 10_state.md R25);
`stepFor`, one step of the whole block. It always answers a next state (log 21). -/

namespace Sys2Proof.Machine

/-- An instruction run whole under the parameters `p` and the answers `ω`. -/
def execFor (p : Params) (ω : Oracle) (i : Instr) (s : Block) : Block :=
  match i with
  | .begin => runBegin p ω s
  | .setRotation m => runSetRotation p ω m s
  | .setAddrWindow x0 y0 x1 y1 => runSetAddrWindow p ω x0 y0 x1 y1 s
  | .drawPixel x y color => runDrawPixel p ω x y color s
  | .fillRect x y w h color => runFillRect p ω x y w h color s
  | .fillScreen color => runFillScreen p ω color s
  | .drawFastHLine x y length color => runDrawFastHLine p ω x y length color s
  | .drawFastVLine x y length color => runDrawFastVLine p ω x y length color s
  | .color565 r g b => respond .ok (packColor565 r g b) s
  | .reserved9 | .reserved10 | .reserved11 | .reserved12 | .reserved13 | .reserved14 | .reserved15 => raise .illegalOp s
  | .wSwreset => s.onPanel (Panel.swreset p)
  | .wSetextc | .wSlpout | .wDispon | .wOther _ => s.onPanel (Panel.otherCommand p)
  | .wCaset => s.onPanel (Panel.caset p)
  | .wPaset => s.onPanel (Panel.paset p)
  | .wRamwr => s.onPanel (Panel.ramwr p)
  | .wMadctl => s.onPanel (Panel.madctlCommand p)
  | .wData b => s.onPanel (Panel.dataByte p b)

/-- The emission list of an operation past its checks, a function of the request and of PanelState (00_scope.md R8). -/
def emissionOf (p : Params) (i : Instr) (s : Block) : List Event :=
  match i with
  | .begin => beginEvents p
  | .setRotation m => rotationEvents p (rotationOf m)
  | .setAddrWindow x0 y0 x1 y1 => addrWindow p (zext16 x0) (zext16 y0) (zext16 x1) (zext16 y1)
  | .drawPixel x y color => drawPixelEvents p s.widthInt s.heightInt (sext16 x) (sext16 y) color
  | .fillRect x y w h color => fillRectEvents p s.widthInt s.heightInt (sext16 x) (sext16 y) (sext16 w) (sext16 h) color
  | .fillScreen color => fillScreenEvents p s.widthInt s.heightInt color
  | .drawFastHLine x y length color => hLineEvents p s.widthInt s.heightInt (sext16 x) (sext16 y) (sext16 length) color
  | .drawFastVLine x y length color => vLineEvents p s.widthInt s.heightInt (sext16 x) (sext16 y) (sext16 length) color
  | .color565 _ _ _ | .reserved9 | .reserved10 | .reserved11 | .reserved12 | .reserved13 | .reserved14 | .reserved15
  | .wSwreset | .wSetextc | .wSlpout | .wDispon | .wCaset | .wPaset | .wRamwr | .wMadctl | .wOther _ | .wData _ => []

/-- What an operation changes in the controller half when every transmit succeeded (40_init.md R120, 43_rotation.md R210). -/
def commitOf (i : Instr) (s : Block) : Block :=
  match i with
  | .begin => setLife .ready s
  | .setRotation m => commitRotation (rotationOf m) s
  | .setAddrWindow _ _ _ _ | .drawPixel _ _ _ | .fillRect _ _ _ _ _ | .fillScreen _ | .drawFastHLine _ _ _ _
  | .drawFastVLine _ _ _ _ | .color565 _ _ _
  | .reserved9 | .reserved10 | .reserved11 | .reserved12 | .reserved13 | .reserved14 | .reserved15
  | .wSwreset | .wSetextc | .wSlpout | .wDispon | .wCaset | .wPaset | .wRamwr | .wMadctl | .wOther _ | .wData _ => keep s

/-- What an operation changes in the controller half at a failing transmit (40_init.md R126, 60_exceptions.md R232). -/
def abortOf (i : Instr) (s : Block) : Block :=
  match i with
  | .begin => setLife .failed s
  | .setRotation _ | .setAddrWindow _ _ _ _ | .drawPixel _ _ _ | .fillRect _ _ _ _ _ | .fillScreen _
  | .drawFastHLine _ _ _ _ | .drawFastVLine _ _ _ _ | .color565 _ _ _
  | .reserved9 | .reserved10 | .reserved11 | .reserved12 | .reserved13 | .reserved14 | .reserved15
  | .wSwreset | .wSetextc | .wSlpout | .wDispon | .wCaset | .wPaset | .wRamwr | .wMadctl | .wOther _ | .wData _ => keep s

/-- The checks are passed: the request is latched at event 0, or, with nothing to emit, the operation ends (10_state.md R25). -/
def latch (p : Params) (r : Req) (s : Block) : Block :=
  if emissionOf p (decodeRequest r) s = [] then complete (commitOf (decodeRequest r) s)
  else { s with seq := .busy r 0 }

/-- A request presented for the one-event reading: the checks of 60_exceptions.md R239, then the latch; an operation that
never transmits is run whole. -/
def startByEvents (p : Params) (ω : Oracle) (r : Req) (s : Block) : Block :=
  match decodeRequest r with
  | .begin => openBegin ω (latch p r) s
  | .setRotation _ | .setAddrWindow _ _ _ _ | .drawPixel _ _ _ | .fillRect _ _ _ _ _ | .fillScreen _
  | .drawFastHLine _ _ _ _ | .drawFastVLine _ _ _ _ => whenReady (latch p r) s
  | .color565 _ _ _ | .reserved9 | .reserved10 | .reserved11 | .reserved12 | .reserved13 | .reserved14 | .reserved15
  | .wSwreset | .wSetextc | .wSlpout | .wDispon | .wCaset | .wPaset | .wRamwr | .wMadctl | .wOther _ | .wData _ =>
    execFor p ω (decodeRequest r) s

/-- The operation's next event (10_state.md R25): delivered, `i <- i + 1`, and at the list's end the operation completes
(20_memory.md R75); at a failing transmit it ends (60_exceptions.md R241). -/
def tick (p : Params) (ω : Oracle) (r : Req) (i : Nat) (s : Block) : Block :=
  match (emissionOf p (decodeRequest r) s)[i]? with
  | none => complete (commitOf (decodeRequest r) s)
  | some e =>
    match s.send p ω e with
    | (t, true) =>
      if i + 1 < (emissionOf p (decodeRequest r) s).length then { t with seq := .busy r (i + 1) }
      else complete (commitOf (decodeRequest r) t)
    | (t, false) => raise .transmitFailure (abortOf (decodeRequest r) t)

/-- One input, on an idle block (00_scope.md R10). -/
def runInput (p : Params) (ω : Oracle) (inp : Input) (s : Block) : Block :=
  match inp with
  | .present r => execFor p ω (decodeRequest r) s
  | .byEvents r => startByEvents p ω r s
  | .powerUp => powerUp s

/-- One step of the block under the parameters `p` and the answers `ω` (00_scope.md R10, 70_reset_and_hazards.md R261): an
operation in progress goes on by one event; an idle block takes the next input, or, with none, waits. A symbol on the test bench,
which no step puts there, is taken by the panel half before anything else (log 7). -/
def stepFor (p : Params) (ω : Oracle) (s : Block) : Block :=
  match s.bench with
  | some y => execFor p ω (decodeSymbol p y) { s with bench := none }
  | none =>
    match s.seq with
    | .busy r i => tick p ω r i s
    | .idle =>
      match s.fetch with
      | none => s
      | some (inp, t) => runInput p ω inp t

end Sys2Proof.Machine
end

