-- ==== Sys2Proof/Machine/Step.lean ====
section
/-! DEFINITION. One step of the closed machine: the step relation at the parameters in force and at the answers that the environment
chose (10_state.md R41; log 5). -/

namespace Sys2Proof.Machine

/-- One step. -/
def step (s : State) : Host.Outcome State Fault Refusal := .next (s.onBlock (stepFor params s.oracle))

/-- The state in which the next step runs the instruction of the bits `w`: a symbol is on the test bench for the panel half, or the
block is idle with nothing on the bench and the request is at the front of what the host will present (log 6, 7). -/
def State.withFetchWord (s : State) (nbits w : Nat) : State :=
  if nbits ≤ 16 then { s with bench := some (BitVec.ofNat 9 w) }
  else { s with bench := none, seq := .idle, program := .present (BitVec.ofNat 84 w) :: s.program }

end Sys2Proof.Machine
end

