-- ==== Sys2Proof/Safety.lean ====
section
/-! DEFINITION. The words claims are stated in: what a good state is (the invariants), when the transport's answers succeed,
and the state after a list of delivered events in closed form. -/

namespace Sys2Proof

/-- An event that is a byte on the wire, so that its transmit may fail (60_exceptions.md R241). -/
def Event.isByte : Event → Bool
  | .cmd _ => true
  | .data _ => true
  | .delay _ => false

/-- The operations that transmit and are no BEGIN (60_exceptions.md R235). -/
def Instr.transmits : Instr → Bool
  | .setRotation _ | .setAddrWindow _ _ _ _ | .drawPixel _ _ _ | .fillRect _ _ _ _ _ | .fillScreen _
  | .drawFastHLine _ _ _ _ | .drawFastVLine _ _ _ _ => true
  | .begin | .color565 _ _ _
  | .reserved9 | .reserved10 | .reserved11 | .reserved12 | .reserved13 | .reserved14 | .reserved15
  | .wSwreset | .wSetextc | .wSlpout | .wDispon | .wCaset | .wPaset | .wRamwr | .wMadctl | .wOther _ | .wData _ => false

/-- The drawing operations (42_drawing.md). -/
def Instr.draws : Instr → Bool
  | .drawPixel _ _ _ | .fillRect _ _ _ _ _ | .fillScreen _ | .drawFastHLine _ _ _ _ | .drawFastVLine _ _ _ _ => true
  | .begin | .setRotation _ | .setAddrWindow _ _ _ _ | .color565 _ _ _
  | .reserved9 | .reserved10 | .reserved11 | .reserved12 | .reserved13 | .reserved14 | .reserved15
  | .wSwreset | .wSetextc | .wSlpout | .wDispon | .wCaset | .wPaset | .wRamwr | .wMadctl | .wOther _ | .wData _ => false

end Sys2Proof

namespace Sys2Proof.Machine

/-- The panel half has not been driven outside what the source defines: the premise of every claim about `GRAM`
(00_scope.md R9, 10_state.md R35). -/
abbrev Block.Safe (s : Block) : Prop := s.panel.pfault = false

/-- The PanelState invariant (10_state.md R22). -/
def Block.PanelStateOk (s : Block) : Prop :=
  (s.rot.val % 2 = 0 → s.width = 320 ∧ s.height = 480) ∧ (s.rot.val % 2 = 1 → s.width = 480 ∧ s.height = 320)

/-- In `STREAM` mode without a fault the window is specified and not inverted, the cursor stands in its columns, and the
pixels already placed and those still accepted make up its area (41_addressing.md R151, R153). -/
def Panel.StreamOk (q : Panel) : Prop :=
  ∃ (sc ec sp ep : Word) (c r n : Nat),
    q.sc = some sc ∧ q.ec = some ec ∧ q.sp = some sp ∧ q.ep = some ep ∧
    q.cc = some c ∧ q.cr = some r ∧ q.pcnt = some n ∧
    sc.toNat ≤ ec.toNat ∧ sp.toNat ≤ ep.toNat ∧ sc.toNat ≤ c ∧ c ≤ ec.toNat ∧ sp.toNat ≤ r ∧
    (r - sp.toNat) * (ec.toNat - sc.toNat + 1) + (c - sc.toNat) + n = windowArea sc ec sp ep

/-- What every reachable panel half satisfies (10_state.md R27 to R34). -/
structure Panel.Wf (q : Panel) : Prop where
  /-- `GRAM` is canonical and lists only cells of the panel (R34). -/
  gram_wf : Memory.wf q.gram = true
  /-- In the window modes `PBUF` holds the first four of the `PIDX` bytes received; a fifth has faulted (R27, R28). -/
  params_counted : q.rxmode = .pCaset ∨ q.rxmode = .pPaset → q.pbuf.length = min q.pidx 4 ∧ (q.pfault = false → q.pidx ≤ 4)
  /-- In every other mode `PBUF` is empty (R28). -/
  params_cleared : q.rxmode ≠ .pCaset → q.rxmode ≠ .pPaset → q.pbuf = []
  /-- A half pixel is held in `STREAM` mode only (R32). -/
  latch_in_stream : q.pixhi ≠ none → q.rxmode = .stream
  /-- In `STREAM` mode a half pixel is held after an odd number of data bytes (R27, R32). -/
  latch_parity : q.rxmode = .stream → (q.pixhi ≠ none ↔ q.pidx % 2 = 1)
  /-- In `P_MADCTL`, `MADCTL` is unspecified until its byte is received; a second one has faulted (R27, R33). -/
  madctl_counted : q.rxmode = .pMadctl → (q.madctl = none ↔ q.pidx = 0) ∧ (q.pfault = false → q.pidx ≤ 1)
  /-- The window's ends are specified pair by pair (R29). -/
  columns_paired : q.sc = none ↔ q.ec = none
  /-- As `columns_paired`, for the rows. -/
  rows_paired : q.sp = none ↔ q.ep = none
  /-- While CASET's parameters arrive its pair is unspecified, and specified once all four have (41_addressing.md R147, R148). -/
  caset_pair : q.rxmode = .pCaset → (q.sc = none ↔ q.pidx < 4)
  /-- As `caset_pair`, for PASET (R147, R149). -/
  paset_pair : q.rxmode = .pPaset → (q.sp = none ↔ q.pidx < 4)
  /-- The cursor's bounds (R30). -/
  column_bound : ∀ c, q.cc = some c → c ≤ 65536
  /-- The cursor's bounds (R30). -/
  row_bound : ∀ r, q.cr = some r → r ≤ 65536
  /-- The count's bound (R31). -/
  count_bound : ∀ n, q.pcnt = some n → n ≤ 2 ^ 32
  /-- The window in `STREAM` mode. -/
  stream_ok : q.rxmode = .stream → q.pfault = false → q.StreamOk

/-- The panel half is the result of applying the wire trace, in order, to its reset state, and no test bench acts on it
(20_memory.md R69, R76; log 7). -/
def Block.Replayed (p : Params) (s : Block) : Prop :=
  s.bench = none ∧ s.panel = s.trace.foldl (Panel.receive p) Panel.reset

/-- An operation in progress has an event left to emit, and passed its liveness check (10_state.md R25, 60_exceptions.md R235). -/
def Block.SeqOk (p : Params) (s : Block) : Prop :=
  match s.seq with
  | .idle => True
  | .busy r i =>
    i < (emissionOf p (decodeRequest r) s).length ∧
    (s.life = .ready ∨ (decodeRequest r = .begin ∧ s.life = .unbegun))

/-- What every reachable state satisfies, under the parameters `p`. -/
structure Block.Inv (p : Params) (s : Block) : Prop where
  panel_state : s.PanelStateOk
  panel_wf : s.panel.Wf
  seq_ok : s.SeqOk p
  never_invalid : ∀ r ∈ s.responses, r.status ≠ .invalidGeometry

/-- The next `n` answers of the transport are successes (60_exceptions.md R233). -/
def Block.Succeeds (ω : Oracle) (n : Nat) (s : Block) : Prop := ∀ k < n, ω (s.asked + k) = true

/-- The next `k` answers are successes and the one after them a failure (60_exceptions.md R241). -/
def Block.FailsAt (ω : Oracle) (k : Nat) (s : Block) : Prop := s.Succeeds ω k ∧ ω (s.asked + k) = false

/-- The k-th of the answers to come in the closed machine. -/
def State.answerAt (s : State) (k : Nat) : Bool := s.oracle (s.asked + k)

/-- As `Block.Succeeds`, in the closed machine. -/
def State.Succeeds (n : Nat) (s : State) : Prop := ∀ k < n, s.answerAt k = true

/-- As `Block.FailsAt`, in the closed machine. -/
def State.FailsAt (k : Nat) (s : State) : Prop := s.Succeeds k ∧ s.answerAt k = false

/-- The number of byte events of an emission list (70_reset_and_hazards.md R277). -/
def byteCount (es : List Event) : Nat := es.countP Event.isByte

/-- The events before byte event number `k` (from 0): the delivered prefix when that byte's transmit is the first to fail
(60_exceptions.md R241). -/
def beforeByte : Nat → List Event → List Event
  | _, [] => []
  | k, .delay ms :: es => .delay ms :: beforeByte k es
  | 0, .cmd _ :: _ => []
  | 0, .data _ :: _ => []
  | k + 1, .cmd b :: es => .cmd b :: beforeByte k es
  | k + 1, .data b :: es => .data b :: beforeByte k es

/-- The panel half after a list of events. -/
def Panel.afterEvents (p : Params) (es : List Event) (q : Panel) : Panel := es.foldl (Panel.receive p) q

/-- The level of the line after a list of events. -/
def lineAfterEvents (es : List Event) (dc : Option Level) : Option Level := es.foldl (fun d e => lineAfter e d) dc

/-- The state when every event of the list has been delivered: the trace has grown by the list, the panel half has consumed it,
and one question has been asked for each byte. -/
def Block.allDelivered (p : Params) (es : List Event) (s : Block) : Block :=
  { s with
      trace := s.trace ++ es
      dc := lineAfterEvents es s.dc
      panel := s.panel.afterEvents p es
      asked := s.asked + byteCount es }

/-- The state when the transmit of byte event number `k` is the first to fail: the events before it have been delivered, it
and those after it have not, and the line stands at its level (60_exceptions.md R241; log 10). -/
def Block.cutOff (p : Params) (k : Nat) (es : List Event) (s : Block) : Block :=
  { s with
      trace := s.trace ++ beforeByte k es
      dc := lineAfterEvents ((es.filter Event.isByte).take (k + 1)) s.dc
      panel := s.panel.afterEvents p (beforeByte k es)
      asked := s.asked + (k + 1) }

/-- As `Block.allDelivered`, in the closed machine. -/
abbrev State.allDelivered (p : Params) (es : List Event) (s : State) : State := s.onBlock (Block.allDelivered p es)

/-- As `Block.cutOff`, in the closed machine. -/
abbrev State.cutOff (p : Params) (k : Nat) (es : List Event) (s : State) : State := s.onBlock (Block.cutOff p k es)

/-- The eleven events of a window declaration, bit by bit (41_addressing.md R141): the statements' own spelling of them. -/
def windowEvents (p : Params) (x0 y0 x1 y1 : Word) : List Event :=
  [.cmd p.cCaset, .data (x0.extractLsb' 8 8), .data (x0.extractLsb' 0 8), .data (x1.extractLsb' 8 8), .data (x1.extractLsb' 0 8),
   .cmd p.cPaset, .data (y0.extractLsb' 8 8), .data (y0.extractLsb' 0 8), .data (y1.extractLsb' 8 8), .data (y1.extractLsb' 0 8),
   .cmd p.cRamwr]

/-- `n` colour words of one colour, high byte first (41_addressing.md R142): the statements' own spelling of them. -/
def colorEvents (color : Word) (n : Nat) : List Event :=
  (List.replicate n [Event.data (color.extractLsb' 8 8), Event.data (color.extractLsb' 0 8)]).flatten

/-- The logical image `IMG_o(c, r)` (43_rotation.md R217). -/
def Panel.image (p : Params) (q : Panel) (o : Rot) (c r : Nat) : Option Word := memRead q.gram (cellNumber (p.xform o c r))

end Sys2Proof.Machine
end

