-- ==== Sys2Proof/Certificates/Slice0/Obligations.lean ====
section
/-! DEFINITION. The statements for the provers, each citing the rule of spec/ it formalises. -/

open Sys2Proof Sys2Proof.Machine

/-! ### Encoding and decoding -/

/-- The operation table: every request decodes by its operation code to the row's operands; the other fields are ignored
(30_encoding.md R92, R93, R98, R100; the spec's own decisions D2, D4, D35, D36). -/
def Obligations.RequestsDecodeByTheOperationTable : Prop :=
  ∀ a0 a1 a2 a3 k : Word,
    decodeRequest (assemble 0 a0 a1 a2 a3 k) = .begin ∧
    decodeRequest (assemble 1 a0 a1 a2 a3 k) = .setRotation a0 ∧
    decodeRequest (assemble 2 a0 a1 a2 a3 k) = .setAddrWindow a0 a1 a2 a3 ∧
    decodeRequest (assemble 3 a0 a1 a2 a3 k) = .drawPixel a0 a1 k ∧
    decodeRequest (assemble 4 a0 a1 a2 a3 k) = .fillRect a0 a1 a2 a3 k ∧
    decodeRequest (assemble 5 a0 a1 a2 a3 k) = .fillScreen k ∧
    decodeRequest (assemble 6 a0 a1 a2 a3 k) = .drawFastHLine a0 a1 a2 k ∧
    decodeRequest (assemble 7 a0 a1 a2 a3 k) = .drawFastVLine a0 a1 a2 k ∧
    decodeRequest (assemble 8 a0 a1 a2 a3 k) =
      .color565 (a0.extractLsb' 0 8) (a1.extractLsb' 0 8) (a2.extractLsb' 0 8) ∧
    decodeRequest (assemble 9 a0 a1 a2 a3 k) = .reserved9 ∧
    decodeRequest (assemble 10 a0 a1 a2 a3 k) = .reserved10 ∧
    decodeRequest (assemble 11 a0 a1 a2 a3 k) = .reserved11 ∧
    decodeRequest (assemble 12 a0 a1 a2 a3 k) = .reserved12 ∧
    decodeRequest (assemble 13 a0 a1 a2 a3 k) = .reserved13 ∧
    decodeRequest (assemble 14 a0 a1 a2 a3 k) = .reserved14 ∧
    decodeRequest (assemble 15 a0 a1 a2 a3 k) = .reserved15

/-- The symbol table, for every admissible choice of the command bytes (30_encoding.md R94, R95, R99). -/
def Obligations.SymbolsDecodeByTheCommandTable : Prop :=
  ∀ (p : Params) (b : Byte), p.Ok →
    decodeSymbol p (commandSymbol p.cSwreset) = .wSwreset ∧
    decodeSymbol p (commandSymbol p.cSetextc) = .wSetextc ∧
    decodeSymbol p (commandSymbol p.cSlpout) = .wSlpout ∧
    decodeSymbol p (commandSymbol p.cDispon) = .wDispon ∧
    decodeSymbol p (commandSymbol p.cCaset) = .wCaset ∧
    decodeSymbol p (commandSymbol p.cPaset) = .wPaset ∧
    decodeSymbol p (commandSymbol p.cRamwr) = .wRamwr ∧
    decodeSymbol p (commandSymbol p.cMadctl) = .wMadctl ∧
    (b ∉ p.commandBytes → decodeSymbol p (commandSymbol b) = .wOther b) ∧
    decodeSymbol p (dataSymbol b) = .wData b

/-- Decode after encode is the identity on every well-formed instruction, for every admissible choice of the parameters. -/
def Obligations.DecodeOfEncodeIsIdentity : Prop :=
  ∀ p : Params, p.Ok → ∀ i : Instr, WellFormedFor p i = true → decodeFor p (encodeFor p i) = i

/-- Encode after decode is the identity on every wire symbol, and whatever a code word decodes to is well formed
(30_encoding.md R94, R103). -/
def Obligations.SymbolsReencodeAndDecodedTermsAreWellFormed : Prop :=
  ∀ p : Params,
    (∀ y : Sym, encodeFor p (decodeFor p (.symbol y)) = .symbol y) ∧
    (∀ c : Code, WellFormedFor p (decodeFor p c) = true)

/-- A few code words written out from the tables (95_test_vectors.md V303, V310, V311, V314; 30_encoding.md R92, R94, R95). That the
command byte 0x2A is CASET's is a default of the parameters, PRESUMED (log 2). -/
def Obligations.WrittenOutWordsDecode : Prop :=
  decode (.request 0x4013E0000000A0005F800) = .fillRect 318 0 10 5 0xF800 ∧
  decode (.request 0x3000A00140000000007E0) = .drawPixel 10 20 0x07E0 ∧
  decode (.request 0x200000000013F01DF0000) = .setAddrWindow 0 0 319 479 ∧
  decode (.request 0x8FF12AA34555600000000) = .color565 0x12 0x34 0x56 ∧
  decode (.symbol 0x02A) = .wCaset ∧
  decode (.symbol 0x1F8) = .wData 0xF8

/-! ### The step -/

/-- A step runs the decoded instruction: an idle block takes the request at the front of what the host will present; a symbol that a
test bench puts to the panel half by itself, which no run does, is run by itself (log 7). In a run a symbol is run where its byte is
delivered (`EverySymbolStepsTheReceiver`). There is no program counter (30_encoding.md R103, 10_state.md R25). -/
def Obligations.StepRunsTheDecodedInstruction : Prop :=
  ∀ s : State,
    (∀ (r : Req) (rest : List Input), s.bench = none → s.seq = .idle → s.program = .present r :: rest →
      step s = exec (decode (.request r)) { s with program := rest }) ∧
    (∀ y : Sym, s.bench = some y → step s = exec (decode (.symbol y)) { s with bench := none })

/-- What a step does besides running an instruction: an idle block with nothing presented waits (log 6), a power-up puts the block
at its reset state (the outside world's own fields go on, log 15), and an operation in progress goes on by the event number `i`
of its emission list, `i` never jumping: a delivered event that is not the last moves `i` on by one, the last ends the operation
with OK and what it commits, a failing transmit ends it at once (70_reset_and_hazards.md R260, R261; 10_state.md R25;
60_exceptions.md R241). The panel half has taken the event when the step ends (10_state.md R26, 20_memory.md R75); a failing byte
does not reach it (decision D39), though the line stands at its level (log 10). -/
def Obligations.StepWaitsPowersUpOrGoesOn : Prop :=
  ∀ s : State, s.bench = none →
    (s.seq = .idle → s.program = [] → step s = .next s) ∧
    (∀ rest, s.seq = .idle → s.program = .powerUp :: rest →
      step s = .next { State.reset with program := rest, answers := s.answers, asked := s.asked }) ∧
    (∀ (r : Req) (i : Nat) (e : Event), s.seq = .busy r i →
      (emissionOf params (decodeRequest r) s.toBlock)[i]? = some e →
      ∀ u : State,
        ((∃ b, e = .cmd b ∧ s.answerAt 0 = true ∧ u = { s with
            trace := s.trace ++ [e], dc := some .low, panel := s.panel.receive params e, asked := s.asked + 1 }) ∨
          (∃ b, e = .data b ∧ s.answerAt 0 = true ∧ u = { s with
            trace := s.trace ++ [e], dc := some .high, panel := s.panel.receive params e, asked := s.asked + 1 }) ∨
          (∃ ms, e = .delay ms ∧ u = { s with trace := s.trace ++ [e] })) →
        (i + 1 < (emissionOf params (decodeRequest r) s.toBlock).length → step s = .next { u with seq := .busy r (i + 1) }) ∧
        (i + 1 = (emissionOf params (decodeRequest r) s.toBlock).length → step s = .next { u with
          seq := .idle, responses := s.responses ++ [⟨.ok, 0⟩]
          life := if decodeRequest r = .begin then .ready else s.life
          rot := (match decodeRequest r with | .setRotation m => Fin.ofNat 4 m.toNat | _ => s.rot)
          width := (match decodeRequest r with | .setRotation m => if m.toNat % 2 = 0 then 320 else 480 | _ => s.width)
          height := (match decodeRequest r with | .setRotation m => if m.toNat % 2 = 0 then 480 else 320 | _ => s.height) })) ∧
    (∀ (r : Req) (i : Nat) (e : Event) (d : Level), s.seq = .busy r i →
      (emissionOf params (decodeRequest r) s.toBlock)[i]? = some e → s.answerAt 0 = false →
      ((∃ b, e = .cmd b ∧ d = .low) ∨ (∃ b, e = .data b ∧ d = .high)) →
      step s = .next { s with
        seq := .idle, dc := some d, asked := s.asked + 1
        responses := s.responses ++ [⟨.transmitFailure, 0⟩]
        life := if decodeRequest r = .begin then .failed else s.life })

/-- An operation run one event a step ends in the state that the operation run in one step ends in (00_scope.md R10,
10_state.md R25; log 8). -/
def Obligations.OperationsByEventsAgreeWithAtomicOnes : Prop :=
  ∀ (s : State) (r : Req) (rest : List Input),
    s.bench = none → s.seq = .idle → s.program = .byEvents r :: rest →
    ∃ n, Host.Core.run Sys2Proof.core (n + 1) s =
      Host.Core.run Sys2Proof.core 1 { s with program := .present r :: rest }

/-! ### Reset and the invariants -/

/-- The state after hardware reset, field by field (10_state.md R38; the spec's own decisions D30, D31). -/
def Obligations.ResetStateIsAsTheSpecSays : Prop :=
  State.reset.rot = 0 ∧ State.reset.width = 320 ∧ State.reset.height = 480 ∧ State.reset.life = .unbegun ∧
  State.reset.seq = .idle ∧ State.reset.dc = none ∧
  State.reset.panel.rxmode = .idle ∧ State.reset.panel.pidx = 0 ∧ State.reset.panel.pbuf = [] ∧
  State.reset.panel.sc = none ∧ State.reset.panel.ec = none ∧ State.reset.panel.sp = none ∧ State.reset.panel.ep = none ∧
  State.reset.panel.cc = none ∧ State.reset.panel.cr = none ∧ State.reset.panel.pcnt = none ∧
  State.reset.panel.pixhi = none ∧ State.reset.panel.madctl = none ∧ State.reset.panel.ori params = none ∧
  (∀ a, memRead State.reset.panel.gram a = none) ∧ State.reset.panel.pfault = false ∧ State.reset.trace = []

/-- The parameters in force meet the spec's constraints on them, the bijectivity of `XFORM` among them (00_scope.md R5,
30_encoding.md R95, 43_rotation.md R215, R216, 40_init.md R124). The defaults are PRESUMED (log 2, 3); the tuning table is a free
value (log 1). That exactly one entry of the table is of the gamma subject is no constraint of the spec but the model's reading of
"the gamma entry" (DESIGN CHOICE, log 26): R124's constraint 1 lets a subject take several entries. -/
def Obligations.ParametersInForceMeetTheirConstraints : Prop := params.Ok ∧ params.InitOrdered

/-- The PanelState invariant holds at reset (whose values are the spec's own decision D30) and every step keeps it, a failing
operation's too (10_state.md R22). -/
def Obligations.PanelStateInvariantHolds : Prop :=
  State.reset.PanelStateOk ∧
  ∀ s t : State, s.PanelStateOk → step s = .next t → t.PanelStateOk

/-- The machine's invariant holds at reset, for every choice of the parameters. -/
def Obligations.InvariantHoldsAtReset : Prop := ∀ p : Params, State.reset.Inv p

/-- Every step keeps the machine's invariant: PanelState, the panel half's registers and memory, `SEQ` (10_state.md R20 to R35); for
the parameters in force, and for every admissible choice of them and every answer of the transport (R41). -/
def Obligations.InvariantKeptByEveryStep : Prop :=
  (∀ s t : State, s.Inv params → step s = .next t → t.Inv params) ∧
  ∀ (p : Params) (ω : Oracle) (b : Block), p.Ok → b.Inv p → (stepFor p ω b).Inv p

/-- The panel half is the result of applying the wire trace, in order, to its reset state, and no test bench acts on it: it holds at
reset, and every step keeps it, for the parameters in force, and for every admissible choice of them and every answer of the
transport (20_memory.md R69, R75, R76; 10_state.md R41). No byte stands between two steps for the panel half to take (10_state.md
R26): after every step, from any block, the place where a test bench could put one is empty (log 7). -/
def Obligations.PanelHalfIsTheReplayOfTheWireTrace : Prop :=
  State.reset.Replayed params ∧
  (∀ s t : State, s.Replayed params → step s = .next t → t.Replayed params) ∧
  (∀ (p : Params) (ω : Oracle), p.Ok → Block.reset.Replayed p ∧
    ∀ b : Block, b.Replayed p → (stepFor p ω b).Replayed p) ∧
  ∀ (p : Params) (ω : Oracle) (b : Block), (stepFor p ω b).bench = none

/-! ### Rules about the whole machine -/

/-- `PFAULT` is sticky: only a power-up clears it (10_state.md R35, 70_reset_and_hazards.md R260; decisions D27, D30). -/
def Obligations.PfaultIsClearedByPowerUpOnly : Prop :=
  ∀ s t : State, step s = .next t → s.panel.pfault = true →
    t.panel.pfault = true ∨ (s.seq = .idle ∧ ∃ rest, s.program = .powerUp :: rest)

/-- FAILED is terminal: only a power-up leaves it, and in it nothing reaches the wire or the panel half (40_init.md R127,
60_exceptions.md R244, R245; decision D13; no test bench acting on the panel half, log 7). -/
def Obligations.FailedIsLeftByPowerUpOnly : Prop :=
  ∀ s t : State, s.bench = none → s.Inv params → step s = .next t → s.life = .failed →
    (∃ rest, s.program = .powerUp :: rest) ∨ (t.life = .failed ∧ t.trace = s.trace ∧ t.panel = s.panel)

/-- Who writes the controller half: PanelState only SET_ROTATION, `LIFE` only BEGIN; COLOR565, the reserved codes and the wire
symbols ask the transport nothing; a wire symbol changes nothing but the panel half, from which nothing flows back (10_state.md
R20, R21, R23, R39; 20_memory.md R72; 42_drawing.md R188; 30_encoding.md R98). That a symbol runs as an instruction of its own is
log 7. -/
def Obligations.ControllerRegistersChangeOnlyByTheirOperation : Prop :=
  ∀ (i : Instr) (s t : State), exec i s = .next t →
    ((∀ m, i ≠ .setRotation m) → t.rot = s.rot ∧ t.width = s.width ∧ t.height = s.height) ∧
    (i ≠ .begin → t.life = s.life) ∧
    (i.transmits = false → i ≠ .begin → t.asked = s.asked ∧ t.trace = s.trace ∧ t.dc = s.dc) ∧
    (t.program = s.program ∧ t.bench = s.bench ∧ t.answers = s.answers) ∧
    (∀ y, i = decode (.symbol y) → t = { s with panel := t.panel })

/-- A request is answered by exactly one response, `SEQ` is idle when it is, INVALID_GEOMETRY is never the status, and the
value is 0 but for COLOR565 (30_encoding.md R91, 60_exceptions.md R234, R240; decision D3). A symbol, run as an instruction of its
own, is no request: it is given no response and leaves `SEQ`. That reading is the model's choice (log 7); 20_memory.md R72 has
nothing flow back from the panel half. -/
def Obligations.EveryRequestIsAnsweredOnce : Prop :=
  (∀ (r : Req) (s : State), ∃ t a, exec (decode (.request r)) s = .next t ∧ t.responses = s.responses ++ [a] ∧
    t.seq = .idle ∧ a.status ≠ .invalidGeometry ∧ ((∀ x y z, decodeRequest r ≠ .color565 x y z) → a.value = 0)) ∧
  (∀ (y : Sym) (s : State), ∃ t, exec (decode (.symbol y)) s = .next t ∧ t.responses = s.responses ∧ t.seq = s.seq)

/-- The trace only grows, but for a power-up, which empties it (00_scope.md R8, 70_reset_and_hazards.md R260). -/
def Obligations.WireTraceOnlyGrows : Prop :=
  ∀ s t : State, step s = .next t →
    (∃ es, t.trace = s.trace ++ es) ∨ (s.seq = .idle ∧ (∃ rest, s.program = .powerUp :: rest) ∧ t.trace = [])

/-- The 19-bit response word: the status code above the value, and the codes (30_encoding.md R91, 60_exceptions.md R230;
decision D3). -/
def Obligations.ResponseWordCarriesStatusAndValue : Prop :=
  (∀ r : Response, r.word.extractLsb' 16 3 = r.status.code ∧ r.word.extractLsb' 0 16 = r.value) ∧
  Status.code .ok = 0 ∧ Status.code .transportUnavailable = 1 ∧ Status.code .transmitFailure = 2 ∧
  Status.code .invalidGeometry = 3 ∧ Status.code .notReady = 4 ∧ Status.code .illegalOp = 5

/-! ### Errors -/

/-- The liveness check: every operation that would transmit but BEGIN, with any operands, answers NOT_READY when `LIFE` is not
READY, emits nothing and changes nothing (60_exceptions.md R235, R239; decision D12). -/
def Obligations.NotReadyRefusesEveryTransmission : Prop :=
  ∀ (i : Instr) (s : State), i.transmits = true → s.life ≠ .ready →
    exec i s = .next { s with seq := .idle, responses := s.responses ++ [⟨.notReady, 0⟩] }

/-- The reserved codes answer ILLEGAL_OP in every state, emit nothing and change nothing (30_encoding.md R98,
60_exceptions.md R236; decision D35). -/
def Obligations.ReservedCodesAnswerIllegalOp : Prop :=
  ∀ s : State, ∀ i ∈ [Instr.reserved9, .reserved10, .reserved11, .reserved12, .reserved13, .reserved14, .reserved15],
    exec i s = .next { s with seq := .idle, responses := s.responses ++ [⟨.illegalOp, 0⟩] }

/-- The first failing transmit cuts every operation at that event: the events before it have had their effect, it and those after
it have none, the status is TRANSMIT_FAILURE, PanelState is as before, and so is `LIFE` but after BEGIN, which leaves it FAILED
(60_exceptions.md R232, R241; decisions D15, D16, D39). A BEGIN from READY acquires nothing again, so that its first question is
its first byte's transmit (40_init.md R121; decision D14, which log 24 calls unsafe). The line's level after the failure is the
model's reading (log 10). -/
def Obligations.FirstFailingTransmitCutsTheOperation : Prop :=
  (∀ (i : Instr) (s : State) (k : Nat),
    i.transmits = true → s.life = .ready → k < byteCount (emissionOf params i s.toBlock) → s.FailsAt k →
    exec i s = .next { s.cutOff params k (emissionOf params i s.toBlock) with
      seq := .idle, responses := s.responses ++ [⟨.transmitFailure, 0⟩] }) ∧
  (∀ (s u : State) (k : Nat),
    (s.life = .unbegun ∧ s.answerAt 0 = true ∧ u = { s with asked := s.asked + 1 }) ∨
      (s.life = .ready ∧ u = s) →
    k < byteCount (beginEvents params) → u.FailsAt k →
    exec .begin s = .next { u.cutOff params k (beginEvents params) with
      life := .failed, seq := .idle, responses := s.responses ++ [⟨.transmitFailure, 0⟩] })

/-- What taking an error does (60_exceptions.md R240): the operation ends, the response carries the status, `SEQ` goes idle, and
the only register of the controller half an error changes is `LIFE`, to FAILED, from BEGIN only. -/
def Obligations.TakingAnErrorSavesNothing : Prop :=
  ∀ (r : Req) (s t : State) (a : Response), exec (decode (.request r)) s = .next t →
    t.responses = s.responses ++ [a] → a.status ≠ .ok →
    t.seq = .idle ∧ t.rot = s.rot ∧ t.width = s.width ∧ t.height = s.height ∧ t.program = s.program ∧
    (t.life = s.life ∨ (decode (.request r) = .begin ∧ t.life = .failed))

/-! ### BEGIN -/

/-- BEGIN (40_init.md R120, R122; that it is refused in FAILED is decision D13, that READY acquires nothing again D14, which log 24
calls unsafe, and the life a failing transmit leaves D15): refused in FAILED; from UNBEGUN the transport is acquired first, and a
failing acquisition leaves `LIFE` FAILED with no event; the emission list in strict order, after which `LIFE` is READY; a failing
transmit leaves `LIFE` FAILED. PanelState is neither read nor written. -/
def Obligations.BeginRunsTheBootSequence : Prop :=
  ∀ (s u : State) (es : List Event),
    es = [.cmd params.cSwreset, .cmd params.cSetextc, .data 0xFF, .data 0x83, .data 0x57, .delay 300] ++
      params.initTable.flatMap (fun e => Event.cmd e.command :: e.data.map Event.data) ++
      [.cmd params.cSlpout, .delay 150, .cmd params.cDispon, .delay 50] →
    (s.life = .failed → exec .begin s = .next { s with seq := .idle, responses := s.responses ++ [⟨.notReady, 0⟩] }) ∧
    (s.life = .unbegun → s.answerAt 0 = false →
      exec .begin s = .next { s with
        life := .failed, asked := s.asked + 1, seq := .idle,
        responses := s.responses ++ [⟨.transportUnavailable, 0⟩] }) ∧
    ((s.life = .unbegun ∧ s.answerAt 0 = true ∧ u = { s with asked := s.asked + 1 }) ∨
      (s.life = .ready ∧ u = s) →
      (u.Succeeds (byteCount es) →
        exec .begin s = .next { u.allDelivered params es with
          life := .ready, seq := .idle, responses := s.responses ++ [⟨.ok, 0⟩] }) ∧
      (∀ k < byteCount es, u.FailsAt k →
        ∃ t, exec .begin s = .next t ∧ t.life = .failed ∧ t.responses = s.responses ++ [⟨.transmitFailure, 0⟩] ∧
          t.rot = s.rot ∧ t.width = s.width ∧ t.height = s.height))

/-- After the whole boot sequence the panel half, from any state without a fault, knows its orientation (0), no window, no
cursor and no pixel (40_init.md R125), for every admissible choice of the parameters. -/
def Obligations.BootSequenceLeavesThePanelAtOrientationZero : Prop :=
  ∀ (p : Params) (q : Panel), p.Ok → q.Wf → q.pfault = false →
    q.afterEvents p (beginEvents p) = { Panel.reset with rxmode := .pOther, madctl := some (p.madctlTable 0) } ∧
    (q.afterEvents p (beginEvents p)).ori p = some 0

/-! ### SET_ROTATION -/

/-- SET_ROTATION (43_rotation.md R210, R212; the refusal is decision D12, the commit D16): NOT_READY unless READY; else the MADCTL
command and the table's byte for m mod 4; when both are delivered `ROT`, `WIDTH` and `HEIGHT` change together, and with a failing
transmit none of them does; whatever the transport answers, no window register changes, and no pixel while `PFAULT` is clear
(00_scope.md R9; no half pixel being held; with one, see `SetRotationFieldByField`). That the window registers are kept in a panel
half with `PFAULT` set too is the model's choice (log 12). -/
def Obligations.SetRotationFollowsItsRule : Prop :=
  ∀ (m : Word) (s : State) (r : Rot), r.val = m.toNat % 4 →
    (s.life ≠ .ready → exec (.setRotation m) s =
      .next { s with seq := .idle, responses := s.responses ++ [⟨.notReady, 0⟩] }) ∧
    (s.life = .ready → s.Succeeds 2 → exec (.setRotation m) s =
      .next { s.allDelivered params [.cmd params.cMadctl, .data (params.madctlTable r)] with
        rot := r
        width := if r.val % 2 = 0 then 320 else 480
        height := if r.val % 2 = 0 then 480 else 320
        seq := .idle
        responses := s.responses ++ [⟨.ok, 0⟩] }) ∧
    (s.life = .ready → ∀ k < 2, s.FailsAt k → ∃ t, exec (.setRotation m) s = .next t ∧
      t.responses = s.responses ++ [⟨.transmitFailure, 0⟩] ∧ t.rot = s.rot ∧ t.width = s.width ∧ t.height = s.height ∧
      t.life = s.life) ∧
    (∀ t, s.panel.pixhi = none → exec (.setRotation m) s = .next t →
      (t.Safe → ∀ a, memRead t.panel.gram a = memRead s.panel.gram a) ∧
      t.panel.sc = s.panel.sc ∧ t.panel.ec = s.panel.ec ∧ t.panel.sp = s.panel.sp ∧ t.panel.ep = s.panel.ep)

/-- SET_ROTATION field by field (43_rotation.md R210, R212, 41_addressing.md R155, R159; decisions D12, D16, D28, D39): what the
panel half makes of the two bytes, and that a failing first byte reaches it not at all, a failing second byte leaves `MADCTL`
unspecified. A dangling half pixel is decision D26; the line's level after a failure is the model's reading (log 10); that a panel
half with `PFAULT` set goes on so is the model's choice (log 12), and that a half pixel with an unspecified cursor or count, which
the invariant excludes, faults is log 13. -/
def Obligations.SetRotationFieldByField : Prop :=
  ∀ (m : Word) (s : State),
    (s.life ≠ .ready → exec (.setRotation m) s =
      .next { s with seq := .idle, responses := s.responses ++ [⟨.notReady, 0⟩] }) ∧
    (s.life = .ready → s.Succeeds 2 → exec (.setRotation m) s = .next { s with
      rot := Fin.ofNat 4 m.toNat
      width := if m.toNat % 2 = 0 then 320 else 480
      height := if m.toNat % 2 = 0 then 480 else 320
      seq := .idle
      dc := some .high
      trace := s.trace ++ [.cmd params.cMadctl, .data (params.madctlTable (Fin.ofNat 4 m.toNat))]
      panel := { s.panel.dropHalfPixel params with
        rxmode := .pMadctl, pidx := 1, pbuf := [], pixhi := none
        madctl := some (params.madctlTable (Fin.ofNat 4 m.toNat)) }
      asked := s.asked + 2
      responses := s.responses ++ [⟨.ok, 0⟩] }) ∧
    (s.life = .ready → s.FailsAt 0 → exec (.setRotation m) s = .next { s with
      seq := .idle, dc := some .low, asked := s.asked + 1
      responses := s.responses ++ [⟨.transmitFailure, 0⟩] }) ∧
    (s.life = .ready → s.FailsAt 1 → exec (.setRotation m) s = .next { s with
      seq := .idle, dc := some .high
      trace := s.trace ++ [.cmd params.cMadctl]
      panel := { s.panel.dropHalfPixel params with
        rxmode := .pMadctl, pidx := 0, pbuf := [], pixhi := none, madctl := none }
      asked := s.asked + 2
      responses := s.responses ++ [⟨.transmitFailure, 0⟩] })

/-- Rotation moves no pixel, `PFAULT` being clear (00_scope.md R9), and leaves the window's numbers; the halves agree after it
(43_rotation.md R218, R219, R220). No half pixel is held (with one, see `SetRotationFieldByField`). That the rest is so of a panel
half with `PFAULT` set too is the model's choice (log 12). -/
def Obligations.RotationMovesNoPixel : Prop :=
  ∀ (m : Word) (s t : State), s.life = .ready → s.panel.Wf → s.panel.pixhi = none → s.Succeeds 2 →
    exec (.setRotation m) s = .next t →
    (t.Safe → ∀ a, memRead t.panel.gram a = memRead s.panel.gram a) ∧
    t.panel.sc = s.panel.sc ∧ t.panel.ec = s.panel.ec ∧ t.panel.sp = s.panel.sp ∧ t.panel.ep = s.panel.ep ∧
    t.panel.rxmode ≠ .stream ∧ t.panel.pfault = s.panel.pfault ∧ t.panel.ori params = some t.rot

/-- Who writes pixels (20_memory.md R69, 43_rotation.md R220; decision D26): SET_ROTATION, SET_ADDR_WINDOW, COLOR565 and the
reserved codes, whatever the transport answers, leave every cell as it was, but for the cell that a dangling half pixel loses;
`PFAULT` being clear after it, without which `GRAM` means nothing (00_scope.md R9). -/
def Obligations.OnlyDrawingAndBeginWriteCells : Prop :=
  ∀ (r : Req) (s t : State), (decodeRequest r).draws = false → decodeRequest r ≠ .begin →
    exec (decodeRequest r) s = .next t → t.Safe →
    (∀ a, memRead t.panel.gram a = memRead s.panel.gram a) ∨
    (s.panel.pixhi ≠ none ∧ ∀ a, memRead t.panel.gram a = memRead (s.panel.dropHalfPixel params).gram a)

/-- Orientation agreement (43_rotation.md R218): a BEGIN that answered OK with `ROT` 0 and a SET_ROTATION that answered OK bring
the halves together; whatever the transport answers, the drawing operations, SET_ADDR_WINDOW, COLOR565 and the reserved codes
keep both `ROT` and `ORI`. That the second and third part are so of a panel half with `PFAULT` set too is the model's choice
(41_addressing.md R145 allows it; log 12). -/
def Obligations.OrientationAgreementIsReachedAndKept : Prop :=
  (∀ s t : State, s.panel.Wf → s.panel.pfault = false → s.rot = 0 →
    exec .begin s = .next t → t.responses = s.responses ++ [⟨.ok, 0⟩] → t.panel.ori params = some t.rot) ∧
  (∀ (m : Word) (s t : State), exec (.setRotation m) s = .next t → t.responses = s.responses ++ [⟨.ok, 0⟩] →
    t.panel.ori params = some t.rot) ∧
  (∀ (r : Req) (s t : State), decodeRequest r ≠ .begin → (∀ m, decodeRequest r ≠ .setRotation m) →
    exec (decodeRequest r) s = .next t → t.rot = s.rot ∧ t.panel.ori params = s.panel.ori params)

/-! ### The addressing window -/

/-- `AddrWindow(a, b, c, d)` is exactly eleven events (41_addressing.md R141): each coordinate modulo 65536, columns before rows,
first before last, high byte first. -/
def Obligations.AddrWindowIsElevenEvents : Prop :=
  ∀ (p : Params) (a b c d : Int) (A B C D : Word),
    (A.toNat : Int) = a % 65536 → (B.toNat : Int) = b % 65536 → (C.toNat : Int) = c % 65536 → (D.toNat : Int) = d % 65536 →
    addrWindow p a b c d =
      [.cmd p.cCaset, .data (A.extractLsb' 8 8), .data (A.extractLsb' 0 8), .data (C.extractLsb' 8 8), .data (C.extractLsb' 0 8),
       .cmd p.cPaset, .data (B.extractLsb' 8 8), .data (B.extractLsb' 0 8), .data (D.extractLsb' 8 8), .data (D.extractLsb' 0 8),
       .cmd p.cRamwr]

/-- SET_ADDR_WINDOW (41_addressing.md R140): NOT_READY unless READY; else the eleven events of the window with the values as
given, neither clipped nor ordered, high bytes first; cut at the first failing transmit (R241 of 60_exceptions.md, decision D39;
the line's level after it is log 10). -/
def Obligations.SetAddrWindowSendsItsArguments : Prop :=
  ∀ (x0 y0 x1 y1 : Word) (s : State),
    (s.life ≠ .ready → exec (.setAddrWindow x0 y0 x1 y1) s =
      .next { s with seq := .idle, responses := s.responses ++ [⟨.notReady, 0⟩] }) ∧
    (s.life = .ready → s.Succeeds 11 → exec (.setAddrWindow x0 y0 x1 y1) s =
      .next { s.allDelivered params (windowEvents params x0 y0 x1 y1) with
        seq := .idle, responses := s.responses ++ [⟨.ok, 0⟩] }) ∧
    (s.life = .ready → ∀ k < 11, s.FailsAt k → exec (.setAddrWindow x0 y0 x1 y1) s =
      .next { s.cutOff params k (windowEvents params x0 y0 x1 y1) with
        seq := .idle, responses := s.responses ++ [⟨.transmitFailure, 0⟩] })

/-- The window lemma (41_addressing.md R161), for every admissible choice of the parameters; the prior window, cursor, count and
mode do not matter, and `GRAM` is as it was but for a dangling half pixel's cell (R155). -/
def Obligations.WindowDeclarationSetsTheWindow : Prop :=
  ∀ (p : Params) (q : Panel) (a b c d : Int), p.Ok → q.Wf → q.pfault = false →
    0 ≤ a → a ≤ c → c ≤ 65535 → 0 ≤ b → b ≤ d → d ≤ 65535 →
    (p.strictWindow = true → ∃ o, q.ori p = some o ∧ c < ((ext o).1 : Int) ∧ d < ((ext o).2 : Int)) →
    q.afterEvents p (addrWindow p a b c d) = { q.dropHalfPixel p with
      rxmode := .stream, pidx := 0, pbuf := [], pixhi := none
      sc := some (BitVec.ofInt 16 a), ec := some (BitVec.ofInt 16 c)
      sp := some (BitVec.ofInt 16 b), ep := some (BitVec.ofInt 16 d)
      cc := some a.toNat, cr := some b.toNat
      pcnt := some ((c - a + 1) * (d - b + 1)).toNat } ∧
    (q.afterEvents p (addrWindow p a b c d)).pfault = false

/-- The fill lemma (41_addressing.md R162, R153): in the state a window declaration leaves, colour word number k lands at the
k-th logical position of the window in row-major order, every other cell is unchanged, and the count drops by the number sent;
for every admissible choice of the parameters. -/
def Obligations.ColourWordsFillTheWindowRowMajor : Prop :=
  ∀ (p : Params) (q : Panel) (o : Rot) (a b c d : Word) (vs : List Word),
    p.Ok → q.rxmode = .stream → q.pfault = false → q.pixhi = none → q.ori p = some o →
    q.sc = some a → q.ec = some c → q.sp = some b → q.ep = some d → a.toNat ≤ c.toNat → b.toNat ≤ d.toNat →
    q.cc = some a.toNat → q.cr = some b.toNat → q.pcnt = some (windowArea a c b d) → vs.length ≤ windowArea a c b d →
    (∀ k < vs.length, InRange o (a.toNat + k % (c.toNat - a.toNat + 1)) (b.toNat + k / (c.toNat - a.toNat + 1))) →
    (∀ k (h : k < vs.length),
      (q.afterEvents p (vs.flatMap pushColor)).image p o (a.toNat + k % (c.toNat - a.toNat + 1))
        (b.toNat + k / (c.toNat - a.toNat + 1)) = some vs[k]) ∧
    (∀ n, (∀ k < vs.length,
        n ≠ cellNumber (p.xform o (a.toNat + k % (c.toNat - a.toNat + 1)) (b.toNat + k / (c.toNat - a.toNat + 1)))) →
      memRead (q.afterEvents p (vs.flatMap pushColor)).gram n = memRead q.gram n) ∧
    (q.afterEvents p (vs.flatMap pushColor)).pcnt = some (windowArea a c b d - vs.length) ∧
    (q.afterEvents p (vs.flatMap pushColor)).pfault = false

/-- Self-containment (41_addressing.md R163): what a window with colour words does to `GRAM` depends on the panel half's prior
state only through `ORI`, `PFAULT` and the cells: not on the prior window, cursor, count, latch or mode. The cells are compared
where `PFAULT` is clear afterwards (00_scope.md R9), and whether it is depends on no more. -/
def Obligations.DrawingForgetsTheEarlierWindow : Prop :=
  ∀ (p : Params) (q q' : Panel) (a b c d : Int) (vs : List Word), p.Ok → q.Wf → q'.Wf →
    q.madctl = q'.madctl → q.pfault = q'.pfault → (q.dropHalfPixel p).gram = (q'.dropHalfPixel p).gram →
    (q.afterEvents p (addrWindow p a b c d ++ vs.flatMap pushColor)).pfault =
      (q'.afterEvents p (addrWindow p a b c d ++ vs.flatMap pushColor)).pfault ∧
    ((q.afterEvents p (addrWindow p a b c d ++ vs.flatMap pushColor)).pfault = false →
      (q.afterEvents p (addrWindow p a b c d ++ vs.flatMap pushColor)).gram =
        (q'.afterEvents p (addrWindow p a b c d ++ vs.flatMap pushColor)).gram)

/-- RAMWR under every admissible choice of the parameters (41_addressing.md R151): an unspecified end or an inverted window
faults; a window that reaches beyond the extents faults exactly when `STRICT_WINDOW` says so; any other window is entered with
the cursor at its start and its area as the count (decision D27). -/
def Obligations.RamwrChecksTheWindow : Prop :=
  ∀ (p : Params) (q : Panel), p.Ok → q.Wf → q.pfault = false →
    ((q.sc = none ∨ q.sp = none) → (q.receive p (.cmd p.cRamwr)).pfault = true) ∧
    (∀ sc ec sp ep : Word, q.sc = some sc → q.ec = some ec → q.sp = some sp → q.ep = some ep →
      ((ec.toNat < sc.toNat ∨ ep.toNat < sp.toNat) → (q.receive p (.cmd p.cRamwr)).pfault = true) ∧
      (sc.toNat ≤ ec.toNat → sp.toNat ≤ ep.toNat →
        ((q.receive p (.cmd p.cRamwr)).pfault = true ↔
          p.strictWindow = true ∧ ∀ o, q.ori p = some o → (ext o).1 ≤ ec.toNat ∨ (ext o).2 ≤ ep.toNat) ∧
        ((q.receive p (.cmd p.cRamwr)).pfault = false →
          (q.receive p (.cmd p.cRamwr)).cc = some sc.toNat ∧ (q.receive p (.cmd p.cRamwr)).cr = some sp.toNat ∧
          (q.receive p (.cmd p.cRamwr)).pcnt =
            some ((ec.toNat - sc.toNat + 1) * (ep.toNat - sp.toNat + 1))))) ∧
    (q.receive p (.cmd p.cRamwr)).rxmode = .stream

/-- A dangling half pixel (41_addressing.md R155): any command byte but the reset command makes the cell under the cursor
`no value` and no other; with the count exhausted, the orientation unknown or the cursor out of range, and with no half pixel
held, no cell changes; the latch is cleared, and the cursor is not advanced (decision D26). -/
def Obligations.DanglingHalfPixelLosesItsCell : Prop :=
  ∀ (p : Params) (q : Panel) (b : Byte), p.Ok → q.Wf → q.pfault = false → b ≠ p.cSwreset →
    (∀ (hi : Byte) (n c r : Nat) (o : Rot), q.rxmode = .stream → q.pixhi = some hi → q.pcnt = some (n + 1) →
      q.cc = some c → q.cr = some r → q.ori p = some o → InRange o c r →
      memRead (q.receive p (.cmd b)).gram (cellNumber (p.xform o c r)) = none ∧
      ∀ a, a ≠ cellNumber (p.xform o c r) → memRead (q.receive p (.cmd b)).gram a = memRead q.gram a) ∧
    (∀ hi : Byte, q.rxmode = .stream → q.pixhi = some hi →
      (q.pcnt = some 0 ∨ q.ori p = none ∨
        ∃ c r o, q.cc = some c ∧ q.cr = some r ∧ q.ori p = some o ∧ ¬ InRange o c r) →
      (q.receive p (.cmd b)).gram = q.gram) ∧
    (q.pixhi = none → (q.receive p (.cmd b)).gram = q.gram) ∧
    (b ≠ p.cRamwr → (q.receive p (.cmd b)).cc = q.cc ∧ (q.receive p (.cmd b)).cr = q.cr ∧
      (q.receive p (.cmd b)).pcnt = q.pcnt) ∧
    (q.receive p (.cmd b)).pixhi = none

/-- A delay changes no state in either half; it stands in the trace (41_addressing.md R160). -/
def Obligations.DelayChangesNothingButTheTrace : Prop :=
  ∀ (p : Params) (ω : Oracle) (s : Block) (ms : Nat),
    s.send p ω (.delay ms) = ({ s with trace := s.trace ++ [.delay ms] }, true)

/-! ### The wire symbols -/

/-- Every symbol, decoded and run, is the receiver's step on its event, and nothing outside the panel half changes (41_addressing.md
R145, R146; 20_memory.md R72; that a symbol can be run by itself is log 7); and the delivery of a byte, once it is in the trace and
the line at its level, is the run of its symbol, under every admissible choice of the parameters. That the receiver takes its step
in a panel half with `PFAULT` set too is the model's choice (log 12). -/
def Obligations.EverySymbolStepsTheReceiver : Prop :=
  (∀ (y : Sym) (s : State), exec (decode (.symbol y)) s = .next { s with
    panel := s.panel.receive params (if y.getLsbD 8 then .data (y.extractLsb' 0 8) else .cmd (y.extractLsb' 0 8)) }) ∧
  (∀ (p : Params) (ω : Oracle) (b : Byte) (s : Block), p.Ok →
    s.deliver p (.cmd b) = execFor p ω (decodeSymbol p (commandSymbol b))
      { s with trace := s.trace ++ [.cmd b], dc := some .low } ∧
    s.deliver p (.data b) = execFor p ω (decodeSymbol p (dataSymbol b))
      { s with trace := s.trace ++ [.data b], dc := some .high })

/-- CASET and PASET invalidate their own pair and no other, and wait for parameters (41_addressing.md R146, R147; decision
D23; the half pixel is D26). Nothing outside the panel half changes (log 7). That this is the whole next state of a
panel half with `PFAULT` set too is the model's choice (log 12), and that a half pixel with an unspecified cursor or count, which
the invariant excludes, faults is log 13. -/
def Obligations.WindowCommandsInvalidateTheirPair : Prop :=
  ∀ s : State,
    exec .wCaset s = .next { s with
      panel := { s.panel.dropHalfPixel params with
        pbuf := [], pidx := 0, pixhi := none, sc := none, ec := none, rxmode := .pCaset } } ∧
    exec .wPaset s = .next { s with
      panel := { s.panel.dropHalfPixel params with
        pbuf := [], pidx := 0, pixhi := none, sp := none, ep := none, rxmode := .pPaset } }

/-- RAMWR as an instruction (41_addressing.md R146, R151): with a specified window it enters `STREAM` with the cursor at the
window's start, unless the window is inverted; with an unspecified end it faults. `STRICT_WINDOW` is false in the parameters in
force (log 4, decision D27); the half pixel is decision D26. Nothing outside the panel half changes (log 7). That this is the whole
next state of a panel half with `PFAULT` set too is the model's choice (log 12), and that a half pixel with an unspecified cursor or
count, which the invariant excludes, faults is log 13. -/
def Obligations.RamwrEntersTheStream : Prop :=
  ∀ s : State,
    (∀ sc ec sp ep : Word, s.panel.sc = some sc → s.panel.ec = some ec → s.panel.sp = some sp → s.panel.ep = some ep →
      (sc.toNat ≤ ec.toNat → sp.toNat ≤ ep.toNat → exec .wRamwr s = .next { s with
        panel := { s.panel.dropHalfPixel params with
          pbuf := [], pidx := 0, pixhi := none, rxmode := .stream, cc := some sc.toNat, cr := some sp.toNat
          pcnt := some ((ec.toNat - sc.toNat + 1) * (ep.toNat - sp.toNat + 1)) } }) ∧
      (ec.toNat < sc.toNat ∨ ep.toNat < sp.toNat → exec .wRamwr s = .next { s with
        panel := { s.panel.dropHalfPixel params with
          pbuf := [], pidx := 0, pixhi := none, rxmode := .stream, pfault := true } })) ∧
    (s.panel.sc = none ∨ s.panel.ec = none ∨ s.panel.sp = none ∨ s.panel.ep = none → exec .wRamwr s = .next { s with
      panel := { s.panel.dropHalfPixel params with
        pbuf := [], pidx := 0, pixhi := none, rxmode := .stream, pfault := true } })

/-- The MADCTL command and the reset command (41_addressing.md R146, R156, R159; decisions D28, D29): MADCTL unspecified until
its byte; of the panel half only `PFAULT` survives the reset command; the half pixel is decision D26. Nothing outside the panel half
changes (log 7). That this is the whole next state of a
panel half with `PFAULT` set too is the model's choice (log 12), and that a half pixel with an unspecified cursor or count, which
the invariant excludes, faults is log 13. -/
def Obligations.MadctlAndResetCommandsForget : Prop :=
  ∀ s : State,
    exec .wMadctl s = .next { s with
      panel := { s.panel.dropHalfPixel params with
        pbuf := [], pidx := 0, pixhi := none, madctl := none, rxmode := .pMadctl } } ∧
    exec .wSwreset s = .next { s with
      panel := { Panel.reset with rxmode := .pOther, pfault := (s.panel.dropHalfPixel params).pfault } }

/-- The other commands, W_OTHER with every byte that is none of the eight named, end `STREAM` and change nothing else of the
addressing state (41_addressing.md R146, R157; decision D34), a half pixel's cell apart (R155, decision D26). Nothing outside the
panel half changes (log 7). That this is the whole next state of a
panel half with `PFAULT` set too is the model's choice (log 12), and that a half pixel with an unspecified cursor or count, which
the invariant excludes, faults is log 13. -/
def Obligations.OtherCommandsOnlyEndTheStream : Prop :=
  ∀ (s : State) (i : Instr),
    i = .wSetextc ∨ i = .wSlpout ∨ i = .wDispon ∨ (∃ b, i = .wOther b ∧ WellFormed (.wOther b) = true) →
    exec i s = .next { s with
      panel := { s.panel.dropHalfPixel params with pbuf := [], pidx := 0, pixhi := none, rxmode := .pOther } }

/-- A data byte in `P_CASET` and `P_PASET` (41_addressing.md R148, R149; decision D23): up to three bytes are kept; the fourth gives
the pair its two ends, high byte first. Nothing outside the panel half changes (log 7). That this is the whole next state of a panel
half with `PFAULT` set too is the model's choice (log 12). A fourth byte that does not find three in `PBUF`, which the invariant
excludes, is not stated here; it faults (log 13). -/
def Obligations.WindowParametersAreReassembled : Prop :=
  ∀ (s : State) (b : Byte),
    (s.panel.rxmode = .pCaset ∨ s.panel.rxmode = .pPaset → s.panel.pidx < 3 → exec (.wData b) s =
      .next { s with panel := { s.panel with pbuf := s.panel.pbuf ++ [b], pidx := s.panel.pidx + 1 } }) ∧
    (∀ (b0 b1 b2 : Byte) (first last : Word), s.panel.pidx = 3 → s.panel.pbuf = [b0, b1, b2] →
      first.toNat = b0.toNat * 256 + b1.toNat → last.toNat = b2.toNat * 256 + b.toNat →
      (s.panel.rxmode = .pCaset → exec (.wData b) s = .next { s with panel := { s.panel with
        pbuf := [b0, b1, b2, b], pidx := 4, sc := some first, ec := some last } }) ∧
      (s.panel.rxmode = .pPaset → exec (.wData b) s = .next { s with panel := { s.panel with
        pbuf := [b0, b1, b2, b], pidx := 4, sp := some first, ep := some last } }))

/-- A data byte outside `STREAM` that is no window parameter, by the mode (41_addressing.md R150, R157, R158, R159; decisions D25,
D28): a byte too many, or one with no command before it, faults; MADCTL takes one byte; other commands' bytes are absorbed. Every
one of them is counted in `PIDX`, as 10_state.md R27 defines it (log 14). Nothing outside the panel half changes (log 7). That this
is the whole next state of a panel half with `PFAULT` set too is the model's choice (log 12). -/
def Obligations.DataByteOutsideTheStream : Prop :=
  ∀ (s : State) (b : Byte),
    (s.panel.rxmode = .idle → exec (.wData b) s =
      .next { s with panel := { s.panel with pidx := s.panel.pidx + 1, pfault := true } }) ∧
    (s.panel.rxmode = .pOther → exec (.wData b) s = .next { s with panel := { s.panel with pidx := s.panel.pidx + 1 } }) ∧
    (s.panel.rxmode = .pMadctl → s.panel.pidx = 0 →
      exec (.wData b) s = .next { s with panel := { s.panel with madctl := some b, pidx := 1 } }) ∧
    (s.panel.rxmode = .pMadctl → s.panel.pidx ≠ 0 →
      exec (.wData b) s = .next { s with panel := { s.panel with pidx := s.panel.pidx + 1, pfault := true } }) ∧
    (s.panel.rxmode = .pCaset ∨ s.panel.rxmode = .pPaset → 4 ≤ s.panel.pidx →
      exec (.wData b) s = .next { s with panel := { s.panel with pidx := s.panel.pidx + 1, pfault := true } })

/-- A data byte in `STREAM` (41_addressing.md R152, R153, R154): the first of a pair is latched; the second makes a pixel, which
is written under the cursor, and the cursor advances row-major; a pixel after exhaustion, with the orientation unknown, or out of
range writes nothing and faults (decisions D24, D27, D28). The first byte is the high one (decision D7, PRESUMED, log 16); `PIDX`
counts both, as 10_state.md R27 defines it (log 14); that a panel half with `PFAULT` set goes on so is log 12. Nothing outside the
panel half changes (log 7). -/
def Obligations.DataByteInTheStream : Prop :=
  ∀ (s : State) (b : Byte), s.panel.rxmode = .stream →
    (s.panel.pixhi = none → exec (.wData b) s =
      .next { s with panel := { s.panel with pixhi := some b, pidx := s.panel.pidx + 1 } }) ∧
    (∀ (hi : Byte) (n c r : Nat) (sc ec : Word) (o : Rot), s.panel.pixhi = some hi → s.panel.pfault = false →
      s.panel.pcnt = some (n + 1) → s.panel.cc = some c → s.panel.cr = some r → s.panel.sc = some sc → s.panel.ec = some ec →
      s.panel.ori params = some o → InRange o c r →
      ∃ g, exec (.wData b) s = .next { s with panel := { s.panel with
          pixhi := none, gram := g, pcnt := some n, pidx := s.panel.pidx + 1
          cc := some (if c = ec.toNat then sc.toNat else c + 1)
          cr := some (if c = ec.toNat then r + 1 else r) } } ∧
        memRead g (cellNumber (params.xform o c r)) = some (hi ++ b) ∧
        ∀ a, a ≠ cellNumber (params.xform o c r) → memRead g a = memRead s.panel.gram a) ∧
    (∀ hi : Byte, s.panel.pixhi = some hi → s.panel.pfault = false →
      (s.panel.pcnt = some 0 ∨ s.panel.ori params = none ∨
        ∃ c r o, s.panel.cc = some c ∧ s.panel.cr = some r ∧ s.panel.ori params = some o ∧ ¬ InRange o c r) →
      exec (.wData b) s =
        .next { s with panel := { s.panel with pixhi := none, pidx := s.panel.pidx + 1, pfault := true } }) ∧
    (∀ hi : Byte, s.panel.pixhi = some hi → s.panel.pfault = true →
      exec (.wData b) s = .next { s with panel := { s.panel with pixhi := none, pidx := s.panel.pidx + 1 } })

/-! ### Drawing -/

/-- DRAW_PIXEL (42_drawing.md R180; the refusal is decision D12, the colour's byte order D7, PRESUMED, log 16): NOT_READY unless
READY; a pixel outside the logical range is a no-op answered OK; an accepted
one emits exactly 13 byte events, the 2 x 2 window at (x, y) and one colour word; with the halves in step its cell becomes the
colour and no other cell changes (for the right and bottom edges, R181, see `DrawPixelPaintsItsCell`). -/
def Obligations.DrawPixelSendsOneWord : Prop :=
  ∀ (x y color : Word) (s : State),
    (s.life ≠ .ready → exec (.drawPixel x y color) s =
      .next { s with seq := .idle, responses := s.responses ++ [⟨.notReady, 0⟩] }) ∧
    (s.life = .ready → (x.toInt < 0 ∨ y.toInt < 0 ∨ (s.width.toNat : Int) ≤ x.toInt ∨ (s.height.toNat : Int) ≤ y.toInt) →
      exec (.drawPixel x y color) s = .next { s with seq := .idle, responses := s.responses ++ [⟨.ok, 0⟩] }) ∧
    (s.life = .ready → 0 ≤ x.toInt → x.toInt < s.width.toNat → 0 ≤ y.toInt → y.toInt < s.height.toNat → s.Succeeds 13 →
      exec (.drawPixel x y color) s =
        .next { s.allDelivered params (windowEvents params x y (x + 1) (y + 1) ++ colorEvents color 1) with
          seq := .idle, responses := s.responses ++ [⟨.ok, 0⟩] } ∧
      (x.toInt + 1 < s.width.toNat → y.toInt + 1 < s.height.toNat →
        s.PanelStateOk → s.panel.Wf → s.panel.pixhi = none → s.panel.pfault = false → s.panel.ori params = some s.rot →
        ∃ t, exec (.drawPixel x y color) s = .next t ∧ t.panel.image params s.rot x.toNat y.toNat = some color ∧
          ∀ a, a ≠ cellNumber (params.xform s.rot x.toNat y.toNat) → memRead t.panel.gram a = memRead s.panel.gram a))

/-- FILL_RECT (42_drawing.md R182, R183): an origin outside the logical range or a size that is not positive is a no-op answered
OK (the negative origin and the size are the spec's own decisions D17, D18); else the sizes are clamped to the room left, and the
window and exactly its area of colour words are sent. Integers do not wrap (R190, decision D5). The colour's byte order is D7
(PRESUMED, log 16); at a failing transmit, the undelivered byte is D39 and the line's level log 10. NOT_READY is
`NotReadyRefusesEveryTransmission`. -/
def Obligations.FillRectClampsAndFills : Prop :=
  ∀ (x y w h color : Word) (s : State) (w' h' : Int),
    w' = min w.toInt (s.width.toNat - x.toInt) → h' = min h.toInt (s.height.toNat - y.toInt) → s.life = .ready →
    ((x.toInt < 0 ∨ y.toInt < 0 ∨ (s.width.toNat : Int) ≤ x.toInt ∨ (s.height.toNat : Int) ≤ y.toInt ∨
        w.toInt ≤ 0 ∨ h.toInt ≤ 0) →
      exec (.fillRect x y w h color) s = .next { s with seq := .idle, responses := s.responses ++ [⟨.ok, 0⟩] }) ∧
    (0 ≤ x.toInt → x.toInt < s.width.toNat → 0 ≤ y.toInt → y.toInt < s.height.toNat → 0 < w.toInt → 0 < h.toInt →
      (s.Succeeds (11 + 2 * (w' * h').toNat) → exec (.fillRect x y w h color) s =
        .next { s.allDelivered params
            (windowEvents params x y (BitVec.ofInt 16 (x.toInt + w' - 1)) (BitVec.ofInt 16 (y.toInt + h' - 1)) ++
              colorEvents color (w' * h').toNat) with
          seq := .idle, responses := s.responses ++ [⟨.ok, 0⟩] }) ∧
      (∀ k < 11 + 2 * (w' * h').toNat, s.FailsAt k → exec (.fillRect x y w h color) s =
        .next { s.cutOff params k
            (windowEvents params x y (BitVec.ofInt 16 (x.toInt + w' - 1)) (BitVec.ofInt 16 (y.toInt + h' - 1)) ++
              colorEvents color (w' * h').toNat) with
          seq := .idle, responses := s.responses ++ [⟨.transmitFailure, 0⟩] }))

/-- FILL_SCREEN (42_drawing.md R185): NOT_READY unless READY; else the window (0,0)-(WIDTH-1,HEIGHT-1) and exactly
WIDTH * HEIGHT = 153600 colour words, in either orientation: 307211 byte events. The colour's byte order is decision D7 (PRESUMED,
log 16); at a failing transmit, the undelivered byte is D39 and the line's level log 10. -/
def Obligations.FillScreenSendsEveryPixel : Prop :=
  ∀ (color : Word) (s : State), s.PanelStateOk →
    (s.life ≠ .ready → exec (.fillScreen color) s =
      .next { s with seq := .idle, responses := s.responses ++ [⟨.notReady, 0⟩] }) ∧
    (s.life = .ready → s.Succeeds 307211 → exec (.fillScreen color) s =
      .next { s.allDelivered params
          (windowEvents params 0 0 (s.width - 1) (s.height - 1) ++ colorEvents color 153600) with
        seq := .idle, responses := s.responses ++ [⟨.ok, 0⟩] }) ∧
    (s.life = .ready → ∀ k < 307211, s.FailsAt k → exec (.fillScreen color) s =
      .next { s.cutOff params k
          (windowEvents params 0 0 (s.width - 1) (s.height - 1) ++ colorEvents color 153600) with
        seq := .idle, responses := s.responses ++ [⟨.transmitFailure, 0⟩] })

/-- The lines (42_drawing.md R186, R187; decision D19): in every state exactly FILL_RECT with a height or a width of 1. Out of
range or with no positive length they are no-ops answered OK; else the window of the clamped length and that many colour words,
whose byte order is decision D7 (PRESUMED, log 16). -/
def Obligations.LinesAreOnePixelRectangles : Prop :=
  ∀ (x y length color : Word) (s : State),
    exec (.drawFastHLine x y length color) s = exec (.fillRect x y length 1 color) s ∧
    exec (.drawFastVLine x y length color) s = exec (.fillRect x y 1 length color) s ∧ (s.life = .ready →
    ((x.toInt < 0 ∨ y.toInt < 0 ∨ (s.width.toNat : Int) ≤ x.toInt ∨ (s.height.toNat : Int) ≤ y.toInt ∨ length.toInt ≤ 0) →
      exec (.drawFastHLine x y length color) s = .next { s with seq := .idle, responses := s.responses ++ [⟨.ok, 0⟩] } ∧
      exec (.drawFastVLine x y length color) s = .next { s with seq := .idle, responses := s.responses ++ [⟨.ok, 0⟩] }) ∧
    (0 ≤ x.toInt → x.toInt < s.width.toNat → 0 ≤ y.toInt → y.toInt < s.height.toNat → 0 < length.toInt →
      (∀ n : Int, n = min length.toInt (s.width.toNat - x.toInt) → s.Succeeds (11 + 2 * n.toNat) →
        exec (.drawFastHLine x y length color) s =
          .next { s.allDelivered params
              (windowEvents params x y (BitVec.ofInt 16 (x.toInt + n - 1)) y ++ colorEvents color n.toNat) with
            seq := .idle, responses := s.responses ++ [⟨.ok, 0⟩] }) ∧
      (∀ n : Int, n = min length.toInt (s.height.toNat - y.toInt) → s.Succeeds (11 + 2 * n.toNat) →
        exec (.drawFastVLine x y length color) s =
          .next { s.allDelivered params
              (windowEvents params x y x (BitVec.ofInt 16 (y.toInt + n - 1)) ++ colorEvents color n.toNat) with
            seq := .idle, responses := s.responses ++ [⟨.ok, 0⟩] })))

/-- What the clipping engine guarantees when a rectangle transmits (42_drawing.md R183): the origin in range, the clamped sizes
positive and the least of the size asked and the room left, the window not inverted and wholly inside the logical range, at most
153600 pixels. -/
def Obligations.ClippedRectangleLiesInside : Prop :=
  ∀ (o : Rot) (x y w h w' h' : Int),
    clipRect ((ext o).1 : Int) ((ext o).2 : Int) x y w h = some (w', h') →
      0 ≤ x ∧ x < (ext o).1 ∧ 0 ≤ y ∧ y < (ext o).2 ∧ w' = min w ((ext o).1 - x) ∧ h' = min h ((ext o).2 - y) ∧
      1 ≤ w' ∧ 1 ≤ h' ∧ x + w' - 1 < (ext o).1 ∧ y + h' - 1 < (ext o).2 ∧ w' * h' ≤ 153600

/-- A FILL_RECT that transmits, every transmit succeeding, the halves in step and no fault, sets exactly its clipped rectangle of
the logical image (42_drawing.md R184); every other cell is as it was, but for a dangling half pixel's (41_addressing.md R155). -/
def Obligations.FillRectPaintsItsRectangle : Prop :=
  ∀ (x y w h color : Word) (s : State) (w' h' : Int),
    s.PanelStateOk → s.panel.Wf → s.life = .ready → s.panel.pfault = false → s.panel.ori params = some s.rot →
    0 ≤ x.toInt → x.toInt < s.width.toNat → 0 ≤ y.toInt → y.toInt < s.height.toNat → 0 < w.toInt → 0 < h.toInt →
    w' = min w.toInt (s.width.toNat - x.toInt) → h' = min h.toInt (s.height.toNat - y.toInt) →
    s.Succeeds (11 + 2 * (w' * h').toNat) →
    ∃ t, exec (.fillRect x y w h color) s = .next t ∧ t.panel.pfault = false ∧
      (∀ i j : Nat, x.toInt ≤ i → (i : Int) < x.toInt + w' → y.toInt ≤ j → (j : Int) < y.toInt + h' →
        t.panel.image params s.rot i j = some color) ∧
      (∀ a, (∀ i j : Nat, x.toInt ≤ i → (i : Int) < x.toInt + w' → y.toInt ≤ j → (j : Int) < y.toInt + h' →
          a ≠ cellNumber (params.xform s.rot i j)) →
        memRead t.panel.gram a = memRead (s.panel.dropHalfPixel params).gram a)

/-- An accepted DRAW_PIXEL sets exactly its cell of the logical image, at the right and bottom edges too unless `STRICT_WINDOW`
(42_drawing.md R181, R184), and leaves the cursor one column on with three pixels unused (95_test_vectors.md V311). -/
def Obligations.DrawPixelPaintsItsCell : Prop :=
  ∀ (x y color : Word) (s : State),
    s.PanelStateOk → s.panel.Wf → s.life = .ready → s.panel.pfault = false → s.panel.ori params = some s.rot →
    0 ≤ x.toInt → x.toInt < s.width.toNat → 0 ≤ y.toInt → y.toInt < s.height.toNat →
    (params.strictWindow = false ∨ (x.toInt + 1 < s.width.toNat ∧ y.toInt + 1 < s.height.toNat)) → s.Succeeds 13 →
    ∃ t, exec (.drawPixel x y color) s = .next t ∧ t.panel.pfault = false ∧
      t.panel.image params s.rot x.toNat y.toNat = some color ∧
      (∀ a, a ≠ cellNumber (params.xform s.rot x.toNat y.toNat) →
        memRead t.panel.gram a = memRead (s.panel.dropHalfPixel params).gram a) ∧
      t.panel.sc = some x ∧ t.panel.ec = some (x + 1) ∧ t.panel.sp = some y ∧ t.panel.ep = some (y + 1) ∧
      t.panel.cc = some (x.toNat + 1) ∧ t.panel.cr = some y.toNat ∧ t.panel.pcnt = some 3 ∧ t.panel.rxmode = .stream

/-- FILL_SCREEN, every transmit succeeding, the halves in step and no fault, makes every one of the 320 x 480 cells hold the
colour (42_drawing.md R185, 43_rotation.md R215). -/
def Obligations.FillScreenPaintsEveryCell : Prop :=
  ∀ (color : Word) (s : State),
    s.PanelStateOk → s.panel.Wf → s.life = .ready → s.panel.pfault = false → s.panel.ori params = some s.rot →
    s.Succeeds 307211 →
    ∃ t, exec (.fillScreen color) s = .next t ∧ t.panel.pfault = false ∧
      ∀ px py, px < 320 → py < 480 → memRead t.panel.gram (cellNumber (px, py)) = some color

/-- The halves in step, without a fault, stay so under drawing: whatever the transport answers, a drawing operation keeps PanelState
consistent, the panel half's invariant, `PFAULT` clear and `ORI` = `ROT` (42_drawing.md R183, 43_rotation.md R218,
70_reset_and_hazards.md R273), `STRICT_WINDOW` being false (decision D27, log 4). -/
def Obligations.DrawingNeverFaultsThePanel : Prop :=
  ∀ (i : Instr) (s t : State), i.draws = true → params.strictWindow = false →
    s.PanelStateOk → s.panel.Wf → s.panel.pfault = false → s.panel.ori params = some s.rot →
    exec i s = .next t →
    t.PanelStateOk ∧ t.panel.Wf ∧ t.panel.pfault = false ∧ t.panel.ori params = some t.rot

/-- The number of byte events of each operation that transmits (70_reset_and_hazards.md R277), for every choice of the
parameters. -/
def Obligations.OperationsHaveTheirByteCounts : Prop :=
  ∀ (p : Params) (o : Rot) (x y w h : Int) (a b c d color : Word),
    byteCount (beginEvents p) = 7 + (p.initTable.map fun e => 1 + e.data.length).sum ∧
    byteCount (rotationEvents p o) = 2 ∧
    byteCount (addrWindow p (zext16 a) (zext16 b) (zext16 c) (zext16 d)) = 11 ∧
    byteCount (drawPixelEvents p (ext o).1 (ext o).2 x y color) =
      (if 0 ≤ x ∧ x < (ext o).1 ∧ 0 ≤ y ∧ y < (ext o).2 then 13 else 0) ∧
    byteCount (fillRectEvents p (ext o).1 (ext o).2 x y w h color) =
      (if 0 ≤ x ∧ x < (ext o).1 ∧ 0 ≤ y ∧ y < (ext o).2 ∧ 0 < w ∧ 0 < h then
        11 + 2 * (min w ((ext o).1 - x) * min h ((ext o).2 - y)).toNat else 0) ∧
    byteCount (fillScreenEvents p (ext o).1 (ext o).2 color) = 307211 ∧
    byteCount (hLineEvents p (ext o).1 (ext o).2 x y w color) =
      (if 0 ≤ x ∧ x < (ext o).1 ∧ 0 ≤ y ∧ y < (ext o).2 ∧ 0 < w then 11 + 2 * (min w ((ext o).1 - x)).toNat else 0) ∧
    byteCount (vLineEvents p (ext o).1 (ext o).2 x y h color) =
      (if 0 ≤ x ∧ x < (ext o).1 ∧ 0 ≤ y ∧ y < (ext o).2 ∧ 0 < h then 11 + 2 * (min h ((ext o).2 - y)).toNat else 0)

/-! ### COLOR565 -/

/-- COLOR565 (42_drawing.md R188): answered OK in every state, `LIFE` whatever it is, with the top 5, 6 and 5 bits of the
channels, which is the formula's value; no wire event and no other state. -/
def Obligations.Color565PacksTheTopBits : Prop :=
  ∀ (r g b : Byte) (s : State),
    exec (.color565 r g b) s = .next { s with
      seq := .idle
      responses := s.responses ++ [⟨.ok, r.extractLsb' 3 5 ++ g.extractLsb' 2 6 ++ b.extractLsb' 3 5⟩] } ∧
    (r.extractLsb' 3 5 ++ g.extractLsb' 2 6 ++ b.extractLsb' 3 5).toNat =
      (((r.toNat &&& 0xF8) <<< 8) ||| ((g.toNat &&& 0xFC) <<< 3) ||| (b.toNat >>> 3))

/-- The bit laws of COLOR565 (42_drawing.md R191): monotone in each channel, blind to the bits it drops, and onto all 16-bit
words. -/
def Obligations.Color565IsMonotoneAndOnto : Prop :=
  (∀ r r' g g' b b' : Byte, r ≤ r' → g ≤ g' → b ≤ b' → packColor565 r g b ≤ packColor565 r' g' b') ∧
  (∀ r r' g g' b b' : Byte, r.toNat / 8 = r'.toNat / 8 → g.toNat / 4 = g'.toNat / 4 → b.toNat / 8 = b'.toNat / 8 →
    packColor565 r g b = packColor565 r' g' b') ∧
  (∀ v : Word, ∃ r g b, packColor565 r g b = v)

/-! ### The open parameters -/

/-- The open parameters and the transport's answers are arguments of the step relation (00_scope.md R5, 10_state.md R41,
60_exceptions.md R233): `exec` and `step` are the relation at the parameters in force and at the answers the environment chose,
which no step changes (log 5); and under every choice of both an operation that transmits, in READY, emits its list as the
parameters spell it and the panel half takes it as they read it, up to the first failing transmit (R241; decision D39); so does
BEGIN, which in READY acquires nothing again (decision D14). -/
def Obligations.StepRelationTakesTheParameters : Prop :=
  (∀ (i : Instr) (s : State), exec i s = .next { s with toBlock := execFor params s.oracle i s.toBlock }) ∧
  (∀ s : State, step s = .next { s with toBlock := stepFor params s.oracle s.toBlock }) ∧
  (∀ (p : Params) (ω : Oracle) (i : Instr) (b : Block), i.transmits = true → b.life = .ready →
    (b.Succeeds ω (byteCount (emissionOf p i b)) →
      (execFor p ω i b).responses = b.responses ++ [⟨.ok, 0⟩] ∧ (execFor p ω i b).trace = b.trace ++ emissionOf p i b ∧
      (execFor p ω i b).panel = b.panel.afterEvents p (emissionOf p i b) ∧ (execFor p ω i b).life = .ready) ∧
    (∀ k < byteCount (emissionOf p i b), b.FailsAt ω k →
      (execFor p ω i b).responses = b.responses ++ [⟨.transmitFailure, 0⟩] ∧
      (execFor p ω i b).trace = b.trace ++ beforeByte k (emissionOf p i b) ∧
      (execFor p ω i b).panel = b.panel.afterEvents p (beforeByte k (emissionOf p i b)) ∧
      (execFor p ω i b).life = .ready)) ∧
  (∀ (p : Params) (ω : Oracle) (b : Block), b.life = .ready → b.Succeeds ω (byteCount (beginEvents p)) →
    (execFor p ω .begin b).responses = b.responses ++ [⟨.ok, 0⟩] ∧
    (execFor p ω .begin b).trace = b.trace ++ beginEvents p ∧
    (execFor p ω .begin b).panel = b.panel.afterEvents p (beginEvents p) ∧ (execFor p ω .begin b).life = .ready)
end

