-- ==== Sys2Proof/Laws/State.lean ====
section
/-! SUPPORT. One lemma per field per state update, true by rfl, so that no proof unfolds a record update. -/

namespace Sys2Proof.Machine

@[simp] theorem onBlock_toBlock (f : Block → Block) (s : State) : (s.onBlock f).toBlock = f s.toBlock := rfl
@[simp] theorem onBlock_answers (f : Block → Block) (s : State) : (s.onBlock f).answers = s.answers := rfl
@[simp] theorem onBlock_oracle (f : Block → Block) (s : State) : (s.onBlock f).oracle = s.oracle := rfl

@[simp] theorem keep_eq (s : Block) : keep s = s := rfl

@[simp] theorem record_rot (e : Event) (s : Block) : (s.record e).rot = s.rot := rfl
@[simp] theorem record_width (e : Event) (s : Block) : (s.record e).width = s.width := rfl
@[simp] theorem record_height (e : Event) (s : Block) : (s.record e).height = s.height := rfl
@[simp] theorem record_life (e : Event) (s : Block) : (s.record e).life = s.life := rfl
@[simp] theorem record_seq (e : Event) (s : Block) : (s.record e).seq = s.seq := rfl
@[simp] theorem record_dc (e : Event) (s : Block) : (s.record e).dc = lineAfter e s.dc := rfl
@[simp] theorem record_panel (e : Event) (s : Block) : (s.record e).panel = s.panel := rfl
@[simp] theorem record_trace (e : Event) (s : Block) : (s.record e).trace = s.trace ++ [e] := rfl
@[simp] theorem record_bench (e : Event) (s : Block) : (s.record e).bench = s.bench := rfl
@[simp] theorem record_responses (e : Event) (s : Block) : (s.record e).responses = s.responses := rfl
@[simp] theorem record_program (e : Event) (s : Block) : (s.record e).program = s.program := rfl
@[simp] theorem record_asked (e : Event) (s : Block) : (s.record e).asked = s.asked := rfl

@[simp] theorem onPanel_rot (f : Panel → Panel) (s : Block) : (s.onPanel f).rot = s.rot := rfl
@[simp] theorem onPanel_width (f : Panel → Panel) (s : Block) : (s.onPanel f).width = s.width := rfl
@[simp] theorem onPanel_height (f : Panel → Panel) (s : Block) : (s.onPanel f).height = s.height := rfl
@[simp] theorem onPanel_life (f : Panel → Panel) (s : Block) : (s.onPanel f).life = s.life := rfl
@[simp] theorem onPanel_seq (f : Panel → Panel) (s : Block) : (s.onPanel f).seq = s.seq := rfl
@[simp] theorem onPanel_dc (f : Panel → Panel) (s : Block) : (s.onPanel f).dc = s.dc := rfl
@[simp] theorem onPanel_panel (f : Panel → Panel) (s : Block) : (s.onPanel f).panel = f s.panel := rfl
@[simp] theorem onPanel_trace (f : Panel → Panel) (s : Block) : (s.onPanel f).trace = s.trace := rfl
@[simp] theorem onPanel_bench (f : Panel → Panel) (s : Block) : (s.onPanel f).bench = s.bench := rfl
@[simp] theorem onPanel_responses (f : Panel → Panel) (s : Block) : (s.onPanel f).responses = s.responses := rfl
@[simp] theorem onPanel_program (f : Panel → Panel) (s : Block) : (s.onPanel f).program = s.program := rfl
@[simp] theorem onPanel_asked (f : Panel → Panel) (s : Block) : (s.onPanel f).asked = s.asked := rfl

@[simp] theorem consume_rot (s : Block) : (s.consume).rot = s.rot := rfl
@[simp] theorem consume_width (s : Block) : (s.consume).width = s.width := rfl
@[simp] theorem consume_height (s : Block) : (s.consume).height = s.height := rfl
@[simp] theorem consume_life (s : Block) : (s.consume).life = s.life := rfl
@[simp] theorem consume_seq (s : Block) : (s.consume).seq = s.seq := rfl
@[simp] theorem consume_dc (s : Block) : (s.consume).dc = s.dc := rfl
@[simp] theorem consume_panel (s : Block) : (s.consume).panel = s.panel := rfl
@[simp] theorem consume_trace (s : Block) : (s.consume).trace = s.trace := rfl
@[simp] theorem consume_bench (s : Block) : (s.consume).bench = s.bench := rfl
@[simp] theorem consume_responses (s : Block) : (s.consume).responses = s.responses := rfl
@[simp] theorem consume_program (s : Block) : (s.consume).program = s.program := rfl
@[simp] theorem consume_asked (s : Block) : (s.consume).asked = s.asked + 1 := rfl

@[simp] theorem respond_rot (st : Status) (v : Word) (s : Block) : (respond st v s).rot = s.rot := rfl
@[simp] theorem respond_width (st : Status) (v : Word) (s : Block) : (respond st v s).width = s.width := rfl
@[simp] theorem respond_height (st : Status) (v : Word) (s : Block) : (respond st v s).height = s.height := rfl
@[simp] theorem respond_life (st : Status) (v : Word) (s : Block) : (respond st v s).life = s.life := rfl
@[simp] theorem respond_seq (st : Status) (v : Word) (s : Block) : (respond st v s).seq = .idle := rfl
@[simp] theorem respond_dc (st : Status) (v : Word) (s : Block) : (respond st v s).dc = s.dc := rfl
@[simp] theorem respond_panel (st : Status) (v : Word) (s : Block) : (respond st v s).panel = s.panel := rfl
@[simp] theorem respond_trace (st : Status) (v : Word) (s : Block) : (respond st v s).trace = s.trace := rfl
@[simp] theorem respond_bench (st : Status) (v : Word) (s : Block) : (respond st v s).bench = s.bench := rfl
@[simp] theorem respond_responses (st : Status) (v : Word) (s : Block) : (respond st v s).responses = s.responses ++ [⟨st, v⟩] := rfl
@[simp] theorem respond_program (st : Status) (v : Word) (s : Block) : (respond st v s).program = s.program := rfl
@[simp] theorem respond_asked (st : Status) (v : Word) (s : Block) : (respond st v s).asked = s.asked := rfl

@[simp] theorem complete_rot (s : Block) : (complete s).rot = s.rot := rfl
@[simp] theorem complete_width (s : Block) : (complete s).width = s.width := rfl
@[simp] theorem complete_height (s : Block) : (complete s).height = s.height := rfl
@[simp] theorem complete_life (s : Block) : (complete s).life = s.life := rfl
@[simp] theorem complete_seq (s : Block) : (complete s).seq = .idle := rfl
@[simp] theorem complete_dc (s : Block) : (complete s).dc = s.dc := rfl
@[simp] theorem complete_panel (s : Block) : (complete s).panel = s.panel := rfl
@[simp] theorem complete_trace (s : Block) : (complete s).trace = s.trace := rfl
@[simp] theorem complete_bench (s : Block) : (complete s).bench = s.bench := rfl
@[simp] theorem complete_responses (s : Block) : (complete s).responses = s.responses ++ [⟨.ok, 0⟩] := rfl
@[simp] theorem complete_program (s : Block) : (complete s).program = s.program := rfl
@[simp] theorem complete_asked (s : Block) : (complete s).asked = s.asked := rfl

@[simp] theorem raise_rot (st : Status) (s : Block) : (raise st s).rot = s.rot := rfl
@[simp] theorem raise_width (st : Status) (s : Block) : (raise st s).width = s.width := rfl
@[simp] theorem raise_height (st : Status) (s : Block) : (raise st s).height = s.height := rfl
@[simp] theorem raise_life (st : Status) (s : Block) : (raise st s).life = s.life := rfl
@[simp] theorem raise_seq (st : Status) (s : Block) : (raise st s).seq = .idle := rfl
@[simp] theorem raise_dc (st : Status) (s : Block) : (raise st s).dc = s.dc := rfl
@[simp] theorem raise_panel (st : Status) (s : Block) : (raise st s).panel = s.panel := rfl
@[simp] theorem raise_trace (st : Status) (s : Block) : (raise st s).trace = s.trace := rfl
@[simp] theorem raise_bench (st : Status) (s : Block) : (raise st s).bench = s.bench := rfl
@[simp] theorem raise_responses (st : Status) (s : Block) : (raise st s).responses = s.responses ++ [⟨st, 0⟩] := rfl
@[simp] theorem raise_program (st : Status) (s : Block) : (raise st s).program = s.program := rfl
@[simp] theorem raise_asked (st : Status) (s : Block) : (raise st s).asked = s.asked := rfl

@[simp] theorem setLife_rot (l : Life) (s : Block) : (setLife l s).rot = s.rot := rfl
@[simp] theorem setLife_width (l : Life) (s : Block) : (setLife l s).width = s.width := rfl
@[simp] theorem setLife_height (l : Life) (s : Block) : (setLife l s).height = s.height := rfl
@[simp] theorem setLife_life (l : Life) (s : Block) : (setLife l s).life = l := rfl
@[simp] theorem setLife_seq (l : Life) (s : Block) : (setLife l s).seq = s.seq := rfl
@[simp] theorem setLife_dc (l : Life) (s : Block) : (setLife l s).dc = s.dc := rfl
@[simp] theorem setLife_panel (l : Life) (s : Block) : (setLife l s).panel = s.panel := rfl
@[simp] theorem setLife_trace (l : Life) (s : Block) : (setLife l s).trace = s.trace := rfl
@[simp] theorem setLife_bench (l : Life) (s : Block) : (setLife l s).bench = s.bench := rfl
@[simp] theorem setLife_responses (l : Life) (s : Block) : (setLife l s).responses = s.responses := rfl
@[simp] theorem setLife_program (l : Life) (s : Block) : (setLife l s).program = s.program := rfl
@[simp] theorem setLife_asked (l : Life) (s : Block) : (setLife l s).asked = s.asked := rfl

@[simp] theorem commitRotation_rot (r : Rot) (s : Block) : (commitRotation r s).rot = r := rfl
@[simp] theorem commitRotation_width (r : Rot) (s : Block) : (commitRotation r s).width = BitVec.ofNat 16 (ext r).1 := rfl
@[simp] theorem commitRotation_height (r : Rot) (s : Block) : (commitRotation r s).height = BitVec.ofNat 16 (ext r).2 := rfl
@[simp] theorem commitRotation_life (r : Rot) (s : Block) : (commitRotation r s).life = s.life := rfl
@[simp] theorem commitRotation_seq (r : Rot) (s : Block) : (commitRotation r s).seq = s.seq := rfl
@[simp] theorem commitRotation_dc (r : Rot) (s : Block) : (commitRotation r s).dc = s.dc := rfl
@[simp] theorem commitRotation_panel (r : Rot) (s : Block) : (commitRotation r s).panel = s.panel := rfl
@[simp] theorem commitRotation_trace (r : Rot) (s : Block) : (commitRotation r s).trace = s.trace := rfl
@[simp] theorem commitRotation_bench (r : Rot) (s : Block) : (commitRotation r s).bench = s.bench := rfl
@[simp] theorem commitRotation_responses (r : Rot) (s : Block) : (commitRotation r s).responses = s.responses := rfl
@[simp] theorem commitRotation_program (r : Rot) (s : Block) : (commitRotation r s).program = s.program := rfl
@[simp] theorem commitRotation_asked (r : Rot) (s : Block) : (commitRotation r s).asked = s.asked := rfl

@[simp] theorem deliver_rot (p : Params) (e : Event) (s : Block) : (s.deliver p e).rot = s.rot := rfl
@[simp] theorem deliver_width (p : Params) (e : Event) (s : Block) : (s.deliver p e).width = s.width := rfl
@[simp] theorem deliver_height (p : Params) (e : Event) (s : Block) : (s.deliver p e).height = s.height := rfl
@[simp] theorem deliver_life (p : Params) (e : Event) (s : Block) : (s.deliver p e).life = s.life := rfl
@[simp] theorem deliver_seq (p : Params) (e : Event) (s : Block) : (s.deliver p e).seq = s.seq := rfl
@[simp] theorem deliver_dc (p : Params) (e : Event) (s : Block) : (s.deliver p e).dc = lineAfter e s.dc := rfl
@[simp] theorem deliver_panel (p : Params) (e : Event) (s : Block) : (s.deliver p e).panel = s.panel.receive p e := rfl
@[simp] theorem deliver_trace (p : Params) (e : Event) (s : Block) : (s.deliver p e).trace = s.trace ++ [e] := rfl
@[simp] theorem deliver_bench (p : Params) (e : Event) (s : Block) : (s.deliver p e).bench = s.bench := rfl
@[simp] theorem deliver_responses (p : Params) (e : Event) (s : Block) : (s.deliver p e).responses = s.responses := rfl
@[simp] theorem deliver_program (p : Params) (e : Event) (s : Block) : (s.deliver p e).program = s.program := rfl
@[simp] theorem deliver_asked (p : Params) (e : Event) (s : Block) : (s.deliver p e).asked = s.asked := rfl

@[simp] theorem allDelivered_rot (p : Params) (es : List Event) (s : Block) : (s.allDelivered p es).rot = s.rot := rfl
@[simp] theorem allDelivered_width (p : Params) (es : List Event) (s : Block) : (s.allDelivered p es).width = s.width := rfl
@[simp] theorem allDelivered_height (p : Params) (es : List Event) (s : Block) : (s.allDelivered p es).height = s.height := rfl
@[simp] theorem allDelivered_life (p : Params) (es : List Event) (s : Block) : (s.allDelivered p es).life = s.life := rfl
@[simp] theorem allDelivered_seq (p : Params) (es : List Event) (s : Block) : (s.allDelivered p es).seq = s.seq := rfl
@[simp] theorem allDelivered_dc (p : Params) (es : List Event) (s : Block) : (s.allDelivered p es).dc = lineAfterEvents es s.dc := rfl
@[simp] theorem allDelivered_panel (p : Params) (es : List Event) (s : Block) : (s.allDelivered p es).panel = s.panel.afterEvents p es := rfl
@[simp] theorem allDelivered_trace (p : Params) (es : List Event) (s : Block) : (s.allDelivered p es).trace = s.trace ++ es := rfl
@[simp] theorem allDelivered_bench (p : Params) (es : List Event) (s : Block) : (s.allDelivered p es).bench = s.bench := rfl
@[simp] theorem allDelivered_responses (p : Params) (es : List Event) (s : Block) : (s.allDelivered p es).responses = s.responses := rfl
@[simp] theorem allDelivered_program (p : Params) (es : List Event) (s : Block) : (s.allDelivered p es).program = s.program := rfl
@[simp] theorem allDelivered_asked (p : Params) (es : List Event) (s : Block) : (s.allDelivered p es).asked = s.asked + byteCount es := rfl

@[simp] theorem cutOff_rot (p : Params) (k : Nat) (es : List Event) (s : Block) : (s.cutOff p k es).rot = s.rot := rfl
@[simp] theorem cutOff_width (p : Params) (k : Nat) (es : List Event) (s : Block) : (s.cutOff p k es).width = s.width := rfl
@[simp] theorem cutOff_height (p : Params) (k : Nat) (es : List Event) (s : Block) : (s.cutOff p k es).height = s.height := rfl
@[simp] theorem cutOff_life (p : Params) (k : Nat) (es : List Event) (s : Block) : (s.cutOff p k es).life = s.life := rfl
@[simp] theorem cutOff_seq (p : Params) (k : Nat) (es : List Event) (s : Block) : (s.cutOff p k es).seq = s.seq := rfl
@[simp] theorem cutOff_dc (p : Params) (k : Nat) (es : List Event) (s : Block) : (s.cutOff p k es).dc = lineAfterEvents ((es.filter Event.isByte).take (k + 1)) s.dc := rfl
@[simp] theorem cutOff_panel (p : Params) (k : Nat) (es : List Event) (s : Block) : (s.cutOff p k es).panel = s.panel.afterEvents p (beforeByte k es) := rfl
@[simp] theorem cutOff_trace (p : Params) (k : Nat) (es : List Event) (s : Block) : (s.cutOff p k es).trace = s.trace ++ beforeByte k es := rfl
@[simp] theorem cutOff_bench (p : Params) (k : Nat) (es : List Event) (s : Block) : (s.cutOff p k es).bench = s.bench := rfl
@[simp] theorem cutOff_responses (p : Params) (k : Nat) (es : List Event) (s : Block) : (s.cutOff p k es).responses = s.responses := rfl
@[simp] theorem cutOff_program (p : Params) (k : Nat) (es : List Event) (s : Block) : (s.cutOff p k es).program = s.program := rfl
@[simp] theorem cutOff_asked (p : Params) (k : Nat) (es : List Event) (s : Block) : (s.cutOff p k es).asked = s.asked + (k + 1) := rfl

@[simp] theorem powerUp_rot (s : Block) : (powerUp s).rot = Block.reset.rot := rfl
@[simp] theorem powerUp_width (s : Block) : (powerUp s).width = Block.reset.width := rfl
@[simp] theorem powerUp_height (s : Block) : (powerUp s).height = Block.reset.height := rfl
@[simp] theorem powerUp_life (s : Block) : (powerUp s).life = Block.reset.life := rfl
@[simp] theorem powerUp_seq (s : Block) : (powerUp s).seq = Block.reset.seq := rfl
@[simp] theorem powerUp_dc (s : Block) : (powerUp s).dc = Block.reset.dc := rfl
@[simp] theorem powerUp_panel (s : Block) : (powerUp s).panel = Block.reset.panel := rfl
@[simp] theorem powerUp_trace (s : Block) : (powerUp s).trace = Block.reset.trace := rfl
@[simp] theorem powerUp_bench (s : Block) : (powerUp s).bench = Block.reset.bench := rfl
@[simp] theorem powerUp_responses (s : Block) : (powerUp s).responses = Block.reset.responses := rfl
@[simp] theorem powerUp_program (s : Block) : (powerUp s).program = s.program := rfl
@[simp] theorem powerUp_asked (s : Block) : (powerUp s).asked = s.asked := rfl

/-- A fault sets `PFAULT` and nothing else. -/
theorem fault_eq (q : Panel) : q.fault = { q with pfault := true } := rfl
@[simp] theorem fault_rxmode (q : Panel) : q.fault.rxmode = q.rxmode := rfl
@[simp] theorem fault_pidx (q : Panel) : q.fault.pidx = q.pidx := rfl
@[simp] theorem fault_pbuf (q : Panel) : q.fault.pbuf = q.pbuf := rfl
@[simp] theorem fault_sc (q : Panel) : q.fault.sc = q.sc := rfl
@[simp] theorem fault_ec (q : Panel) : q.fault.ec = q.ec := rfl
@[simp] theorem fault_sp (q : Panel) : q.fault.sp = q.sp := rfl
@[simp] theorem fault_ep (q : Panel) : q.fault.ep = q.ep := rfl
@[simp] theorem fault_cc (q : Panel) : q.fault.cc = q.cc := rfl
@[simp] theorem fault_cr (q : Panel) : q.fault.cr = q.cr := rfl
@[simp] theorem fault_pcnt (q : Panel) : q.fault.pcnt = q.pcnt := rfl
@[simp] theorem fault_pixhi (q : Panel) : q.fault.pixhi = q.pixhi := rfl
@[simp] theorem fault_madctl (q : Panel) : q.fault.madctl = q.madctl := rfl
@[simp] theorem fault_gram (q : Panel) : q.fault.gram = q.gram := rfl
@[simp] theorem fault_pfault (q : Panel) : q.fault.pfault = true := rfl

end Sys2Proof.Machine
end

