-- ==== Sys2Proof/Laws/Wire.lean ====
section
/-! SUPPORT. What transmitting an emission list can do: either every event is delivered, or a first byte fails and exactly the
events before it are. -/

namespace Sys2Proof.Machine

@[simp] theorem beforeByte_nil (k : Nat) : beforeByte k [] = [] := by cases k <;> rfl
@[simp] theorem beforeByte_delay (k ms : Nat) (es : List Event) :
    beforeByte k (.delay ms :: es) = .delay ms :: beforeByte k es := by cases k <;> rfl
@[simp] theorem byteCount_nil : byteCount [] = 0 := rfl
@[simp] theorem byteCount_delay (ms : Nat) (es : List Event) : byteCount (.delay ms :: es) = byteCount es := rfl
@[simp] theorem byteCount_cmd (b : Byte) (es : List Event) : byteCount (.cmd b :: es) = byteCount es + 1 :=
  List.countP_cons_of_pos rfl
@[simp] theorem byteCount_data (b : Byte) (es : List Event) : byteCount (.data b :: es) = byteCount es + 1 :=
  List.countP_cons_of_pos rfl
@[simp] theorem byteCount_append (es fs : List Event) : byteCount (es ++ fs) = byteCount es + byteCount fs :=
  List.countP_append

variable {ω : Oracle}

theorem succeeds_deliver {p : Params} {e : Event} {n : Nat} {s : Block} : (s.deliver p e).Succeeds ω n ↔ s.Succeeds ω n := Iff.rfl

theorem failsAt_deliver {p : Params} {e : Event} {n : Nat} {s : Block} : (s.deliver p e).FailsAt ω n ↔ s.FailsAt ω n := Iff.rfl

/-- One question further on, the answers are those from the next on. -/
theorem asked_consume (s : Block) (k : Nat) : s.consume.asked + k = s.asked + (k + 1) := by
  simp only [Block.consume]
  omega

theorem succeeds_succ {n : Nat} {s : Block} : s.Succeeds ω (n + 1) ↔ s.answer ω = true ∧ s.consume.Succeeds ω n := by
  constructor
  · intro h
    refine ⟨h 0 (by omega), fun k hk => ?_⟩
    rw [asked_consume]
    exact h (k + 1) (by omega)
  · rintro ⟨h0, h⟩ k hk
    cases k with
    | zero => exact h0
    | succ k =>
      rw [← asked_consume]
      exact h k (by omega)

theorem failsAt_zero {s : Block} : s.FailsAt ω 0 ↔ s.answer ω = false := by
  simp [Block.FailsAt, Block.Succeeds, Block.answer]

theorem failsAt_succ {k : Nat} {s : Block} : s.FailsAt ω (k + 1) ↔ s.answer ω = true ∧ s.consume.FailsAt ω k := by
  rw [Block.FailsAt, Block.FailsAt, succeeds_succ, asked_consume]
  tauto

theorem succeeds_zero (s : Block) : s.Succeeds ω 0 := fun k hk => absurd hk (by omega)

/-- Either the next `n` answers are all successes or there is a first failure among them. -/
theorem succeeds_or_failsAt (n : Nat) (s : Block) : s.Succeeds ω n ∨ ∃ k < n, s.FailsAt ω k := by
  induction n generalizing s with
  | zero => exact .inl (succeeds_zero s)
  | succ n ih =>
    cases h : s.answer ω with
    | false => exact .inr ⟨0, by omega, failsAt_zero.mpr h⟩
    | true =>
      rcases ih s.consume with hs | ⟨k, hk, hf⟩
      · exact .inl (succeeds_succ.mpr ⟨h, hs⟩)
      · exact .inr ⟨k + 1, by omega, failsAt_succ.mpr ⟨h, hf⟩⟩

/-- Everything one transmit can do. -/
theorem send_cases (p : Params) (ω : Oracle) (e : Event) (s : Block) :
    (∃ ms, e = .delay ms ∧ s.send p ω e = (s.deliver p e, true)) ∨
    (e.isByte = true ∧ s.answer ω = true ∧ s.send p ω e = (s.consume.deliver p e, true)) ∨
    (e.isByte = true ∧ s.answer ω = false ∧ s.send p ω e = ({ s.consume with dc := lineAfter e s.dc }, false)) := by
  cases e <;> cases h : s.answer ω <;> simp [Block.send, Event.isByte, lineAfter, h]

theorem send_delay (p : Params) (ω : Oracle) (ms : Nat) (s : Block) : s.send p ω (.delay ms) = (s.deliver p (.delay ms), true) := rfl

/-- A byte's transmit that succeeds delivers it. -/
theorem send_byte_succeeds {p : Params} {e : Event} {s : Block} (he : e.isByte = true) (h : s.answer ω = true) :
    s.send p ω e = (s.consume.deliver p e, true) := by
  cases e <;> simp_all [Block.send, Event.isByte]

/-- A byte's transmit that fails delivers nothing; the line stands at the byte's level. -/
theorem send_byte_fails {p : Params} {e : Event} {s : Block} (he : e.isByte = true) (h : s.answer ω = false) :
    s.send p ω e = ({ s.consume with dc := lineAfter e s.dc }, false) := by
  cases e <;> simp_all [Block.send, Event.isByte, lineAfter]

theorem allDelivered_nil (p : Params) (s : Block) : s.allDelivered p [] = s := by
  simp [Block.allDelivered, lineAfterEvents, Panel.afterEvents]

theorem allDelivered_delay (p : Params) (ms : Nat) (es : List Event) (s : Block) :
    s.allDelivered p (.delay ms :: es) = (s.deliver p (.delay ms)).allDelivered p es := by
  simp [Block.allDelivered, lineAfterEvents, Panel.afterEvents, Block.deliver, Block.record, Block.onPanel]

theorem byteCount_cons {e : Event} (es : List Event) (he : e.isByte = true) : byteCount (e :: es) = byteCount es + 1 := by
  simp [byteCount, he]

theorem allDelivered_byte {p : Params} {e : Event} (es : List Event) (s : Block) (he : e.isByte = true) :
    s.allDelivered p (e :: es) = (s.consume.deliver p e).allDelivered p es := by
  simp [Block.allDelivered, byteCount_cons es he, lineAfterEvents, Panel.afterEvents, Block.deliver, Block.record,
    Block.onPanel, Block.consume, Nat.add_assoc, Nat.add_comm 1]

theorem cutOff_delay (p : Params) (k ms : Nat) (es : List Event) (s : Block) :
    s.cutOff p k (.delay ms :: es) = (s.deliver p (.delay ms)).cutOff p k es := by
  simp [Block.cutOff, lineAfterEvents, lineAfter, Panel.afterEvents, Block.deliver, Block.record, Block.onPanel, Event.isByte]

theorem cutOff_byte_zero {p : Params} {e : Event} (es : List Event) (s : Block) (he : e.isByte = true) :
    s.cutOff p 0 (e :: es) = { s.consume with dc := lineAfter e s.dc } := by
  have hb : beforeByte 0 (e :: es) = [] := by cases e <;> simp_all [Event.isByte, beforeByte]
  simp [Block.cutOff, hb, List.filter_cons_of_pos he, lineAfterEvents, Panel.afterEvents, Block.consume]

theorem cutOff_byte_succ {p : Params} {e : Event} (k : Nat) (es : List Event) (s : Block) (he : e.isByte = true) :
    s.cutOff p (k + 1) (e :: es) = (s.consume.deliver p e).cutOff p k es := by
  have hb : beforeByte (k + 1) (e :: es) = e :: beforeByte k es := by cases e <;> simp_all [Event.isByte, beforeByte]
  simp [Block.cutOff, hb, List.filter_cons_of_pos he, lineAfterEvents, Panel.afterEvents, Block.deliver, Block.record,
    Block.onPanel, Block.consume, Nat.add_assoc, Nat.add_comm 1]

/-- Every transmit succeeding, the whole list is delivered. -/
theorem emit_succeeds {p : Params} {es : List Event} {s : Block} (h : s.Succeeds ω (byteCount es)) :
    emit p ω es s = (s.allDelivered p es, true) := by
  induction es generalizing s with
  | nil => rw [allDelivered_nil]; rfl
  | cons e es ih =>
    cases he : e.isByte with
    | false =>
      cases e <;> simp [Event.isByte] at he
      rw [emit, send_delay, allDelivered_delay]
      exact ih h
    | true =>
      have hc : byteCount (e :: es) = byteCount es + 1 := by simp [byteCount, he]
      rw [hc, succeeds_succ] at h
      rw [emit, send_byte_succeeds he h.1, allDelivered_byte es s he]
      exact ih h.2

/-- The transmit of byte number `k` being the first to fail, exactly the events before it are delivered. -/
theorem emit_fails {p : Params} {es : List Event} {s : Block} {k : Nat} (hk : k < byteCount es) (h : s.FailsAt ω k) :
    emit p ω es s = (s.cutOff p k es, false) := by
  induction es generalizing s k with
  | nil => simp at hk
  | cons e es ih =>
    cases he : e.isByte with
    | false =>
      cases e <;> simp [Event.isByte] at he
      rw [emit, send_delay, cutOff_delay]
      exact ih hk h
    | true =>
      have hc : byteCount (e :: es) = byteCount es + 1 := by simp [byteCount, he]
      cases k with
      | zero => rw [emit, send_byte_fails he (failsAt_zero.mp h), cutOff_byte_zero es s he]
      | succ k =>
        rw [failsAt_succ] at h
        rw [emit, send_byte_succeeds he h.1, cutOff_byte_succ k es s he]
        exact ih (by omega) h.2

/-- Everything transmitting a list can do. -/
theorem emit_cases (p : Params) (ω : Oracle) (es : List Event) (s : Block) :
    (s.Succeeds ω (byteCount es) ∧ emit p ω es s = (s.allDelivered p es, true)) ∨
    ∃ k < byteCount es, s.FailsAt ω k ∧ emit p ω es s = (s.cutOff p k es, false) := by
  rcases succeeds_or_failsAt (byteCount es) s with h | ⟨k, hk, h⟩
  · exact .inl ⟨h, emit_succeeds h⟩
  · exact .inr ⟨k, hk, h, emit_fails hk h⟩

/-- An operation past its checks, every transmit succeeding. -/
theorem perform_succeeds {p : Params} {es : List Event} {commit abort : Block → Block} {s : Block}
    (h : s.Succeeds ω (byteCount es)) : perform p ω es commit abort s = complete (commit (s.allDelivered p es)) := by
  rw [perform, emit_succeeds h]

/-- An operation past its checks, byte number `k` failing first. -/
theorem perform_fails {p : Params} {es : List Event} {commit abort : Block → Block} {s : Block} {k : Nat}
    (hk : k < byteCount es) (h : s.FailsAt ω k) :
    perform p ω es commit abort s = raise .transmitFailure (abort (s.cutOff p k es)) := by
  rw [perform, emit_fails hk h]

/-- Everything an operation past its checks can do. -/
theorem perform_cases (p : Params) (ω : Oracle) (es : List Event) (commit abort : Block → Block) (s : Block) :
    perform p ω es commit abort s = complete (commit (s.allDelivered p es)) ∨
    ∃ k < byteCount es, s.FailsAt ω k ∧
      perform p ω es commit abort s = raise .transmitFailure (abort (s.cutOff p k es)) := by
  rcases succeeds_or_failsAt (byteCount es) s with h | ⟨k, hk, h⟩
  · exact .inl (perform_succeeds h)
  · exact .inr ⟨k, hk, h, perform_fails hk h⟩

/-- An operation with nothing to emit completes. -/
theorem perform_nil (p : Params) (ω : Oracle) (commit abort : Block → Block) (s : Block) :
    perform p ω [] commit abort s = complete (commit s) := rfl

/-- Everything the liveness check can do. -/
theorem whenReady_cases (body : Block → Block) (s : Block) :
    (s.life = .ready ∧ whenReady body s = body s) ∨ (s.life ≠ .ready ∧ whenReady body s = raise .notReady s) := by
  by_cases h : s.life = .ready
  · exact .inl ⟨h, if_pos h⟩
  · exact .inr ⟨h, if_neg h⟩

/-- Everything BEGIN can do up to its emission. -/
theorem openBegin_cases (ω : Oracle) (body : Block → Block) (s : Block) :
    (s.life = .failed ∧ openBegin ω body s = raise .notReady s) ∨
    (s.life = .ready ∧ openBegin ω body s = body s) ∨
    (s.life = .unbegun ∧ s.answer ω = true ∧ openBegin ω body s = body s.consume) ∨
    (s.life = .unbegun ∧ s.answer ω = false ∧ openBegin ω body s = raise .transportUnavailable (setLife .failed s.consume)) := by
  cases hl : s.life <;> cases ha : s.answer ω <;> simp [openBegin, hl, ha]

/-- The delivered events before a failing byte are the front of the list. -/
theorem beforeByte_append_rest (k : Nat) (es : List Event) : ∃ fs, es = beforeByte k es ++ fs := by
  induction es generalizing k with
  | nil => exact ⟨[], by simp⟩
  | cons e es ih =>
    cases e with
    | delay ms => obtain ⟨fs, h⟩ := ih k; exact ⟨fs, by simp [← h]⟩
    | cmd b =>
      cases k with
      | zero => exact ⟨.cmd b :: es, rfl⟩
      | succ k => obtain ⟨fs, h⟩ := ih k; exact ⟨fs, by simp [beforeByte, ← h]⟩
    | data b =>
      cases k with
      | zero => exact ⟨.data b :: es, rfl⟩
      | succ k => obtain ⟨fs, h⟩ := ih k; exact ⟨fs, by simp [beforeByte, ← h]⟩

end Sys2Proof.Machine
end

