-- ==== Sys2Proof/Laws/Emission.lean ====
section
/-! SUPPORT. The shape of the emission lists: the window and the colour words bit by bit, the clipping engine's cases, and the
byte counts. -/

namespace Sys2Proof.Machine

theorem lo16_toInt (x : Word) : lo16 x.toInt = x := BitVec.ofInt_toInt

theorem lo16_zext16 (x : Word) : lo16 (zext16 x) = x := by
  apply BitVec.eq_of_toNat_eq
  simp only [lo16, zext16, BitVec.toNat_ofInt]
  have := x.isLt
  omega

theorem lo16_natCast (n : Nat) : lo16 (n : Int) = BitVec.ofNat 16 n := by
  simp [lo16]

/-- `AddrWindow` in the statements' own spelling. -/
theorem addrWindow_eq (p : Params) (a b c d : Int) :
    addrWindow p a b c d = windowEvents p (lo16 a) (lo16 b) (lo16 c) (lo16 d) := rfl

/-- The colour words in the statements' own spelling. -/
theorem pushColors_eq (color : Word) (n : Nat) : pushColors color n = colorEvents color n := by
  induction n with
  | zero => rfl
  | succ n ih =>
    rw [pushColors, ih, colorEvents, colorEvents, List.replicate_succ, List.flatten_cons]
    rfl

/-- A repeated colour is a list of colour words. -/
theorem pushColors_flatMap (color : Word) (n : Nat) : pushColors color n = (List.replicate n color).flatMap pushColor := by
  induction n with
  | zero => rfl
  | succ n ih => rw [pushColors, ih, List.replicate_succ, List.flatMap_cons]

@[simp] theorem byteCount_addrWindow (p : Params) (a b c d : Int) : byteCount (addrWindow p a b c d) = 11 := rfl
@[simp] theorem byteCount_windowEvents (p : Params) (a b c d : Word) : byteCount (windowEvents p a b c d) = 11 := rfl
@[simp] theorem byteCount_pushColor (c : Word) : byteCount (pushColor c) = 2 := rfl
@[simp] theorem byteCount_pushColors (c : Word) (n : Nat) : byteCount (pushColors c n) = 2 * n := by
  induction n with
  | zero => rfl
  | succ n ih => rw [pushColors, byteCount_append, ih, byteCount_pushColor]; omega
@[simp] theorem byteCount_rotationEvents (p : Params) (r : Rot) : byteCount (rotationEvents p r) = 2 := rfl

/-- The clamp takes the least of the size asked and the room left (42_drawing.md R183). -/
theorem clampSize_eq (extent x w : Int) : clampSize extent x w = min w (extent - x) := by
  unfold clampSize
  split <;> omega

/-- When FILL_RECT is a no-op (42_drawing.md R182). -/
theorem clipRect_none {width height x y w h : Int}
    (hc : x < 0 ∨ y < 0 ∨ width ≤ x ∨ height ≤ y ∨ w ≤ 0 ∨ h ≤ 0) : clipRect width height x y w h = none := by
  unfold clipRect
  split
  · rfl
  · split
    · rfl
    · rw [if_pos]
      simp only [clampSize_eq]
      omega

/-- When FILL_RECT transmits, and with which size (42_drawing.md R183). -/
theorem clipRect_some {width height x y w h : Int} (hx : 0 ≤ x) (hx' : x < width) (hy : 0 ≤ y) (hy' : y < height)
    (hw : 0 < w) (hh : 0 < h) :
    clipRect width height x y w h = some (min w (width - x), min h (height - y)) := by
  unfold clipRect
  rw [if_neg (by omega), if_neg (by omega), if_neg (by simp only [clampSize_eq]; omega), clampSize_eq, clampSize_eq]

/-- FILL_RECT's emission list when it is a no-op. -/
theorem fillRectEvents_none (p : Params) {width height x y w h : Int} (color : Word)
    (hc : x < 0 ∨ y < 0 ∨ width ≤ x ∨ height ≤ y ∨ w ≤ 0 ∨ h ≤ 0) : fillRectEvents p width height x y w h color = [] := by
  rw [fillRectEvents, clipRect_none hc]

/-- FILL_RECT's emission list when it transmits. -/
theorem fillRectEvents_some (p : Params) {width height x y w h : Int} (color : Word) (hx : 0 ≤ x) (hx' : x < width)
    (hy : 0 ≤ y) (hy' : y < height) (hw : 0 < w) (hh : 0 < h) :
    fillRectEvents p width height x y w h color =
      addrWindow p x y (x + min w (width - x) - 1) (y + min h (height - y) - 1) ++
        pushColors color (min w (width - x) * min h (height - y)).toNat := by
  rw [fillRectEvents, clipRect_some hx hx' hy hy' hw hh]

/-- DRAW_PIXEL's emission list when the pixel is rejected. -/
theorem drawPixelEvents_none (p : Params) {width height x y : Int} (color : Word)
    (hc : x < 0 ∨ y < 0 ∨ width ≤ x ∨ height ≤ y) : drawPixelEvents p width height x y color = [] := if_pos hc

/-- DRAW_PIXEL's emission list when the pixel is accepted. -/
theorem drawPixelEvents_some (p : Params) {width height x y : Int} (color : Word)
    (hc : ¬ (x < 0 ∨ y < 0 ∨ width ≤ x ∨ height ≤ y)) :
    drawPixelEvents p width height x y color = addrWindow p x y (x + 1) (y + 1) ++ pushColor color := if_neg hc

/-- Every emission list of an operation but BEGIN and SET_ROTATION is empty, or one window and the colour words after it
(41_addressing.md R143). -/
theorem emissionOf_shape (p : Params) (i : Instr) (s : Block) (h1 : i ≠ .begin) (h2 : ∀ m, i ≠ .setRotation m) :
    emissionOf p i s = [] ∨ ∃ a b c d color n, emissionOf p i s = addrWindow p a b c d ++ pushColors color n := by
  have rect : ∀ width height x y w h color, fillRectEvents p width height x y w h color = [] ∨
      ∃ a b c d color' n, fillRectEvents p width height x y w h color = addrWindow p a b c d ++ pushColors color' n := by
    intro width height x y w h color
    unfold fillRectEvents
    split
    · exact .inl rfl
    · exact .inr ⟨_, _, _, _, _, _, rfl⟩
  cases i with
  | begin => exact absurd rfl h1
  | setRotation m => exact absurd rfl (h2 m)
  | setAddrWindow x0 y0 x1 y1 => exact .inr ⟨_, _, _, _, 0, 0, (List.append_nil _).symm⟩
  | drawPixel x y color =>
    show drawPixelEvents _ _ _ _ _ _ = [] ∨ ∃ a b c d color' n, drawPixelEvents _ _ _ _ _ _ = _
    unfold drawPixelEvents
    split
    · exact .inl rfl
    · exact .inr ⟨_, _, _, _, color, 1, rfl⟩
  | fillRect x y w h color => exact rect _ _ _ _ _ _ _
  | fillScreen color => exact rect _ _ _ _ _ _ _
  | drawFastHLine x y length color => exact rect _ _ _ _ _ _ _
  | drawFastVLine x y length color => exact rect _ _ _ _ _ _ _
  | color565 | reserved9 | reserved10 | reserved11 | reserved12 | reserved13 | reserved14 | reserved15
  | wSwreset | wSetextc | wSlpout | wDispon | wCaset | wPaset | wRamwr | wMadctl | wOther | wData => exact .inl rfl

/-- An operation that transmits and is no BEGIN: the liveness check, then its emission list (60_exceptions.md R235, R239). -/
theorem execFor_transmits {p : Params} {ω : Oracle} {i : Instr} (s : Block) (h : i.transmits = true) :
    execFor p ω i s = whenReady (fun t => perform p ω (emissionOf p i s) (commitOf i) (abortOf i) t) s := by
  cases i <;> first | rfl | simp [Instr.transmits] at h

/-- `exec` is `execFor` at the parameters in force and the environment's answers. -/
theorem exec_eq (i : Instr) (s : State) : exec i s = .next (s.onBlock (execFor params s.oracle i)) := by cases i <;> rfl

theorem exec_transmits {i : Instr} (s : State) (h : i.transmits = true) :
    exec i s = .next (s.onBlock fun b =>
      whenReady (fun t => perform params s.oracle (emissionOf params i b) (commitOf i) (abortOf i) t) b) := by
  rw [exec_eq, show execFor params s.oracle i = _ from funext fun b => execFor_transmits b h]

/-- An operation that transmits and is no BEGIN, outside READY (60_exceptions.md R235). -/
theorem exec_notReady {i : Instr} {s : State} (h : i.transmits = true) (hl : s.life ≠ .ready) :
    exec i s = .next (s.onBlock (raise .notReady)) := by
  rw [exec_transmits s h]
  simp only [State.onBlock, whenReady, hl, if_false]

/-- An operation that transmits and is no BEGIN, in READY, every transmit succeeding. -/
theorem exec_succeeds {i : Instr} {s : State} {es : List Event} (h : i.transmits = true) (hl : s.life = .ready)
    (he : emissionOf params i s.toBlock = es) (hs : s.Succeeds (byteCount es)) :
    exec i s = .next (s.onBlock fun b => complete (commitOf i (b.allDelivered params es))) := by
  subst he
  rw [exec_transmits s h]
  simp only [State.onBlock, whenReady, hl, if_true, perform_succeeds (s := s.toBlock) (ω := s.oracle) hs]

/-- An operation that transmits and is no BEGIN, in READY, the transmit of byte number `k` being the first to fail. -/
theorem exec_fails {i : Instr} {s : State} {es : List Event} {k : Nat} (h : i.transmits = true) (hl : s.life = .ready)
    (he : emissionOf params i s.toBlock = es) (hk : k < byteCount es) (hs : s.FailsAt k) :
    exec i s = .next (s.onBlock fun b => raise .transmitFailure (abortOf i (b.cutOff params k es))) := by
  subst he
  rw [exec_transmits s h]
  simp only [State.onBlock, whenReady, hl, if_true, perform_fails (s := s.toBlock) (ω := s.oracle) hk hs]

/-- An operation that transmits and is no BEGIN, in READY, with nothing to emit: a geometry no-op (42_drawing.md R182). -/
theorem exec_nothing {i : Instr} {s : State} (h : i.transmits = true) (hl : s.life = .ready)
    (he : emissionOf params i s.toBlock = []) : exec i s = .next (s.onBlock fun b => complete (commitOf i b)) := by
  rw [exec_succeeds h hl he fun _ hk => absurd hk (Nat.not_lt_zero _)]
  simp only [State.onBlock, allDelivered_nil]

/-- Everything an operation that transmits and is no BEGIN can do. -/
theorem exec_cases {i : Instr} (s : State) (h : i.transmits = true) :
    (s.life ≠ .ready ∧ exec i s = .next (s.onBlock (raise .notReady))) ∨
    (s.life = .ready ∧ s.Succeeds (byteCount (emissionOf params i s.toBlock)) ∧ exec i s =
      .next (s.onBlock fun b => complete (commitOf i (b.allDelivered params (emissionOf params i s.toBlock))))) ∨
    (s.life = .ready ∧ ∃ k < byteCount (emissionOf params i s.toBlock), s.FailsAt k ∧ exec i s =
      .next (s.onBlock fun b => raise .transmitFailure (abortOf i (b.cutOff params k (emissionOf params i s.toBlock))))) := by
  by_cases hl : s.life = .ready
  · rcases succeeds_or_failsAt (ω := s.oracle) (byteCount (emissionOf params i s.toBlock)) s.toBlock with hs | ⟨k, hk, hs⟩
    · exact .inr (.inl ⟨hl, hs, exec_succeeds h hl rfl hs⟩)
    · exact .inr (.inr ⟨hl, k, hk, hs, exec_fails h hl rfl hk hs⟩)
  · exact .inl ⟨hl, exec_notReady h hl⟩

/-- BEGIN past its checks, from the state `u` that the acquisition leaves (40_init.md R120, R121). -/
theorem exec_begin_opens {s u : State}
    (hu : (s.life = .unbegun ∧ s.answerAt 0 = true ∧ u = s.onBlock Block.consume) ∨ (s.life = .ready ∧ u = s)) :
    exec .begin s =
      .next (u.onBlock (perform params u.oracle (beginEvents params) (setLife .ready) (setLife .failed))) := by
  rw [exec_eq]
  rcases hu with ⟨hl, ha, rfl⟩ | ⟨hl, rfl⟩
  · have ha : s.answer s.oracle = true := ha
    simp only [State.onBlock, execFor, runBegin, openBegin, hl, ha, if_true]
    rfl
  · simp only [State.onBlock, execFor, runBegin, openBegin, hl]

/-- Everything BEGIN can do (40_init.md R120 to R122, R126, R127). -/
theorem exec_begin_cases (s : State) :
    (s.life = .failed ∧ exec .begin s = .next (s.onBlock (raise .notReady))) ∨
    (s.life = .unbegun ∧ s.answerAt 0 = false ∧
      exec .begin s = .next (s.onBlock fun b => raise .transportUnavailable (setLife .failed b.consume))) ∨
    ∃ u : State,
      ((s.life = .unbegun ∧ s.answerAt 0 = true ∧ u = s.onBlock Block.consume) ∨ (s.life = .ready ∧ u = s)) ∧
      ((u.Succeeds (byteCount (beginEvents params)) ∧ exec .begin s =
          .next (u.onBlock fun b => complete (setLife .ready (b.allDelivered params (beginEvents params))))) ∨
        ∃ k < byteCount (beginEvents params), u.FailsAt k ∧ exec .begin s =
          .next (u.onBlock fun b => raise .transmitFailure (setLife .failed (b.cutOff params k (beginEvents params))))) := by
  have opens {u : State}
      (hu : (s.life = .unbegun ∧ s.answerAt 0 = true ∧ u = s.onBlock Block.consume) ∨ (s.life = .ready ∧ u = s)) :
      (u.Succeeds (byteCount (beginEvents params)) ∧ exec .begin s =
          .next (u.onBlock fun b => complete (setLife .ready (b.allDelivered params (beginEvents params))))) ∨
        ∃ k < byteCount (beginEvents params), u.FailsAt k ∧ exec .begin s =
          .next (u.onBlock fun b => raise .transmitFailure (setLife .failed (b.cutOff params k (beginEvents params)))) := by
    rw [exec_begin_opens hu]
    rcases succeeds_or_failsAt (ω := u.oracle) (byteCount (beginEvents params)) u.toBlock with hs | ⟨k, hk, hs⟩
    · exact .inl ⟨hs, by simp only [State.onBlock, perform_succeeds hs]⟩
    · exact .inr ⟨k, hk, hs, by simp only [State.onBlock, perform_fails hk hs]⟩
  rcases openBegin_cases s.oracle (perform params s.oracle (beginEvents params) (setLife .ready) (setLife .failed)) s.toBlock
    with ⟨hl, h⟩ | ⟨hl, _⟩ | ⟨hl, ha, _⟩ | ⟨hl, ha, h⟩
  · exact .inl ⟨hl, by rw [exec_eq]; simp only [State.onBlock, execFor, runBegin, h]⟩
  · exact .inr (.inr ⟨s, .inr ⟨hl, rfl⟩, opens (.inr ⟨hl, rfl⟩)⟩)
  · exact .inr (.inr ⟨_, .inl ⟨hl, ha, rfl⟩, opens (.inl ⟨hl, ha, rfl⟩)⟩)
  · exact .inr (.inl ⟨hl, ha, by rw [exec_eq]; simp only [State.onBlock, execFor, runBegin, h]⟩)

end Sys2Proof.Machine
end

