-- ==== Sys2Proof/Laws/Encoding.lean ====
section
/-! SUPPORT. The fields of an assembled request and of a symbol. -/

namespace Sys2Proof

/-- Every bit of an assembled request, by its field (30_encoding.md R90). -/
theorem assemble_bit (op : BitVec 4) (a0 a1 a2 a3 color : Word) (i : Nat) :
    (assemble op a0 a1 a2 a3 color).getLsbD i =
      if i < 16 then color.getLsbD i
      else if i < 32 then a3.getLsbD (i - 16)
      else if i < 48 then a2.getLsbD (i - 32)
      else if i < 64 then a1.getLsbD (i - 48)
      else if i < 80 then a0.getLsbD (i - 64)
      else op.getLsbD (i - 80) := by
  have h : (assemble op a0 a1 a2 a3 color).getLsbD i =
      BitVec.getLsbD (w := 4 + 16 + 16 + 16 + 16 + 16) (op ++ a0 ++ a1 ++ a2 ++ a3 ++ color) i := rfl
  rw [h]
  simp only [BitVec.getLsbD_append, Nat.sub_sub]
  split_ifs <;> first | rfl | omega

/-- The bits of an assembled request from 80 up are the operation code's (30_encoding.md R90). -/
theorem assemble_bit_op (op : BitVec 4) (a0 a1 a2 a3 color : Word) {i : Nat} (h : 80 ≤ i) :
    (assemble op a0 a1 a2 a3 color).getLsbD i = op.getLsbD (i - 80) := by
  rw [assemble_bit]
  split_ifs <;> first | omega | rfl

section
variable (op : BitVec 4) (a0 a1 a2 a3 color : Word)

@[simp] theorem assemble_op : Req.op (assemble op a0 a1 a2 a3 color) = op := by
  apply BitVec.eq_of_getLsbD_eq
  intro i hi
  simp only [Req.op, BitVec.getLsbD_extractLsb', assemble_bit]
  split_ifs <;> first | omega | simp [hi]

@[simp] theorem assemble_a0 : Req.a0 (assemble op a0 a1 a2 a3 color) = a0 := by
  apply BitVec.eq_of_getLsbD_eq
  intro i hi
  simp only [Req.a0, BitVec.getLsbD_extractLsb', assemble_bit]
  split_ifs <;> first | omega | simp [hi]

@[simp] theorem assemble_a1 : Req.a1 (assemble op a0 a1 a2 a3 color) = a1 := by
  apply BitVec.eq_of_getLsbD_eq
  intro i hi
  simp only [Req.a1, BitVec.getLsbD_extractLsb', assemble_bit]
  split_ifs <;> first | omega | simp [hi]

@[simp] theorem assemble_a2 : Req.a2 (assemble op a0 a1 a2 a3 color) = a2 := by
  apply BitVec.eq_of_getLsbD_eq
  intro i hi
  simp only [Req.a2, BitVec.getLsbD_extractLsb', assemble_bit]
  split_ifs <;> first | omega | simp [hi]

@[simp] theorem assemble_a3 : Req.a3 (assemble op a0 a1 a2 a3 color) = a3 := by
  apply BitVec.eq_of_getLsbD_eq
  intro i hi
  simp only [Req.a3, BitVec.getLsbD_extractLsb', assemble_bit]
  split_ifs <;> first | omega | simp [hi]

@[simp] theorem assemble_color : Req.color (assemble op a0 a1 a2 a3 color) = color := by
  apply BitVec.eq_of_getLsbD_eq
  intro i hi
  simp only [Req.color, BitVec.getLsbD_extractLsb', assemble_bit]
  split_ifs <;> first | omega | simp [hi]

end

@[simp] theorem channel_channelField (b : Byte) : channel (channelField b) = b := by
  apply BitVec.eq_of_toNat_eq
  simp [channel, channelField]
  omega

@[simp] theorem commandSymbol_dc (b : Byte) : Sym.dc (commandSymbol b) = false := by
  simp only [Sym.dc, commandSymbol, BitVec.getLsbD_ofNat]
  simp [Nat.testBit_lt_two_pow b.isLt]

@[simp] theorem dataSymbol_dc (b : Byte) : Sym.dc (dataSymbol b) = true := by
  revert b
  decide

@[simp] theorem commandSymbol_byte (b : Byte) : Sym.byte (commandSymbol b) = b := by
  apply BitVec.eq_of_toNat_eq
  simp only [Sym.byte, commandSymbol, BitVec.extractLsb'_toNat, BitVec.toNat_ofNat]
  omega

@[simp] theorem dataSymbol_byte (b : Byte) : Sym.byte (dataSymbol b) = b := by
  apply BitVec.eq_of_toNat_eq
  simp only [Sym.byte, dataSymbol, BitVec.extractLsb'_toNat, BitVec.toNat_ofNat]
  omega

end Sys2Proof
end

