-- ==== Sys2Proof/Laws/Memory.lean ====
section
/-! SUPPORT. The laws of the frame memory: read after write, other cells alone, and every operation keeps the canonical
form. -/

namespace Sys2Proof.Machine

theorem memRising_cons {lo : Option Nat} {a : Nat} {w : Word} {m : Memory} :
    memRising lo ((a, w) :: m) = true ↔
      (∀ b, lo = some b → b < a) ∧ a < nativeWidth * nativeHeight ∧ memRising (some a) m = true := by
  cases lo <;> simp [memRising, and_assoc]

theorem memRising_weaken {lo lo' : Option Nat} {m : Memory} (h : ∀ b, lo' = some b → ∃ c, lo = some c ∧ b ≤ c)
    (hm : memRising lo m = true) : memRising lo' m = true := by
  cases m with
  | nil => cases lo' <;> rfl
  | cons x m =>
    obtain ⟨a, w⟩ := x
    rw [memRising_cons] at hm ⊢
    refine ⟨fun b hb => ?_, hm.2⟩
    obtain ⟨c, hc, hbc⟩ := h b hb
    exact lt_of_le_of_lt hbc (hm.1 c hc)

/-- A memory whose keys all lie above `a` holds nothing at `a`. -/
theorem memRead_below {m : Memory} {lo a : Nat} (hm : memRising (some lo) m = true) (ha : a ≤ lo) : memRead m a = none := by
  induction m generalizing lo with
  | nil => rfl
  | cons x m ih =>
    obtain ⟨b, w⟩ := x
    rw [memRising_cons] at hm
    have hlt := hm.1 lo rfl
    rw [memRead, if_neg (by omega)]
    exact ih hm.2.2 (by omega)

/-- Another cell reads as before, whatever the memory. -/
theorem memRead_memWrite_other {m : Memory} {a b : Nat} (v : Option Word) (h : a ≠ b) :
    memRead (memWrite m b v) a = memRead m a := by
  induction m with
  | nil => cases v <;> simp [memWrite, memRead, h]
  | cons x m ih =>
    obtain ⟨c, w⟩ := x
    simp only [memWrite]
    split
    · cases v <;> simp [memRead, h]
    · split
      · next hbc => subst hbc; cases v <;> simp [memRead, h]
      · simp [memRead, ih]

/-- In a canonical memory a cell reads what was written to it. -/
theorem memRead_memWrite_same {m : Memory} {lo : Option Nat} (a : Nat) (v : Option Word) (hm : memRising lo m = true) :
    memRead (memWrite m a v) a = v := by
  induction m generalizing lo with
  | nil => cases v <;> simp [memWrite, memRead]
  | cons x m ih =>
    obtain ⟨c, w⟩ := x
    rw [memRising_cons] at hm
    simp only [memWrite]
    split
    · next hac =>
      cases v with
      | none =>
        rw [memRead, if_neg (by omega)]
        exact memRead_below hm.2.2 (by omega)
      | some y => simp [memRead]
    · split
      · next hac =>
        subst hac
        cases v with
        | none => exact memRead_below hm.2.2 le_rfl
        | some y => simp [memRead]
      · next hac =>
        rw [memRead, if_neg hac]
        exact ih hm.2.2

theorem memRising_memWrite {m : Memory} {lo : Option Nat} {a : Nat} (v : Option Word) (hm : memRising lo m = true)
    (hlo : ∀ b, lo = some b → b < a) (ha : a < nativeWidth * nativeHeight) : memRising lo (memWrite m a v) = true := by
  induction m generalizing lo with
  | nil =>
    cases v with
    | none => exact hm
    | some y => rw [memWrite, memRising_cons]; exact ⟨hlo, ha, rfl⟩
  | cons x m ih =>
    obtain ⟨c, w⟩ := x
    have hm' := memRising_cons.mp hm
    simp only [memWrite]
    split
    · next hac =>
      cases v with
      | none => exact hm
      | some y =>
        rw [memRising_cons]
        refine ⟨hlo, ha, ?_⟩
        rw [memRising_cons]
        exact ⟨fun b hb => by cases hb; exact hac, hm'.2⟩
    · split
      · next hac =>
        subst hac
        cases v with
        | none => exact memRising_weaken (fun b hb => ⟨a, rfl, (hlo b hb).le⟩) hm'.2.2
        | some y => rw [memRising_cons]; exact ⟨hlo, ha, hm'.2.2⟩
      · next h1 h2 =>
        rw [memRising_cons]
        exact ⟨hm'.1, hm'.2.1, ih hm'.2.2 fun b hb => by cases hb; omega⟩

theorem memRising_memErase {m : Memory} {lo : Option Nat} (a : Nat) (hm : memRising lo m = true) :
    memRising lo (memWrite m a none) = true := by
  induction m generalizing lo with
  | nil => exact hm
  | cons x m ih =>
    obtain ⟨c, w⟩ := x
    have hm' := memRising_cons.mp hm
    simp only [memWrite]
    split
    · exact hm
    · split
      · next hac =>
        subst hac
        exact memRising_weaken (fun b hb => ⟨a, rfl, (hm'.1 b hb).le⟩) hm'.2.2
      · rw [memRising_cons]
        exact ⟨hm'.1, hm'.2.1, ih hm'.2.2⟩

/-- A write to a cell of the panel keeps the canonical form. -/
theorem memWrite_wf {m : Memory} {a : Nat} (v : Option Word) (hm : Memory.wf m = true)
    (ha : a < nativeWidth * nativeHeight) : Memory.wf (memWrite m a v) = true :=
  memRising_memWrite v hm (fun b hb => by cases hb) ha

/-- Making any cell `no value` keeps the canonical form. -/
theorem memErase_wf {m : Memory} (a : Nat) (hm : Memory.wf m = true) : Memory.wf (memWrite m a none) = true :=
  memRising_memErase a hm

/-- The empty memory is canonical. -/
theorem memEmpty_wf : Memory.wf [] = true := rfl

@[simp] theorem memRead_empty (a : Nat) : memRead [] a = none := rfl

/-- The number of a cell of the panel is below the number of cells. -/
theorem cellNumber_lt {c : Nat × Nat} (h1 : c.1 < nativeWidth) (h2 : c.2 < nativeHeight) :
    cellNumber c < nativeWidth * nativeHeight := by
  simp only [cellNumber, nativeWidth, nativeHeight] at *
  omega

/-- Two cells of the panel with one number are one cell. -/
theorem cellNumber_inj {c d : Nat × Nat} (hc : c.1 < nativeWidth) (hd : d.1 < nativeWidth) (h : cellNumber c = cellNumber d) :
    c = d := by
  simp only [cellNumber, nativeWidth] at *
  exact Prod.ext (by omega) (by omega)

end Sys2Proof.Machine
end

