-- ==== Sys2Proof/Laws/Panel.lean ====
section
/-! SUPPORT. What the receiver can do, one lemma per function: the dispatch on a command byte, the common part of a command,
and that every event keeps `PFAULT` once set and the panel half's invariant. -/

namespace Sys2Proof.Machine

/-- The fields that dropping a half pixel leaves alone. -/
theorem dropHalfPixel_fields (p : Params) (q : Panel) :
    q.dropHalfPixel p = { q with gram := (q.dropHalfPixel p).gram, pfault := (q.dropHalfPixel p).pfault } := by
  unfold Panel.dropHalfPixel
  split
  · split
    · split
      · split <;> rfl
      · rfl
    · rfl
  · rfl

section
variable (p : Params) (q : Panel)

@[simp] theorem dropHalfPixel_rxmode : (q.dropHalfPixel p).rxmode = q.rxmode := by rw [dropHalfPixel_fields]
@[simp] theorem dropHalfPixel_sc : (q.dropHalfPixel p).sc = q.sc := by rw [dropHalfPixel_fields]
@[simp] theorem dropHalfPixel_ec : (q.dropHalfPixel p).ec = q.ec := by rw [dropHalfPixel_fields]
@[simp] theorem dropHalfPixel_sp : (q.dropHalfPixel p).sp = q.sp := by rw [dropHalfPixel_fields]
@[simp] theorem dropHalfPixel_ep : (q.dropHalfPixel p).ep = q.ep := by rw [dropHalfPixel_fields]
@[simp] theorem dropHalfPixel_cc : (q.dropHalfPixel p).cc = q.cc := by rw [dropHalfPixel_fields]
@[simp] theorem dropHalfPixel_cr : (q.dropHalfPixel p).cr = q.cr := by rw [dropHalfPixel_fields]
@[simp] theorem dropHalfPixel_pcnt : (q.dropHalfPixel p).pcnt = q.pcnt := by rw [dropHalfPixel_fields]
@[simp] theorem dropHalfPixel_madctl : (q.dropHalfPixel p).madctl = q.madctl := by rw [dropHalfPixel_fields]
@[simp] theorem dropHalfPixel_ori : (q.dropHalfPixel p).ori p = q.ori p := by simp [Panel.ori]

@[simp] theorem startCommand_sc : (q.startCommand p).sc = q.sc := by simp [Panel.startCommand]
@[simp] theorem startCommand_ec : (q.startCommand p).ec = q.ec := by simp [Panel.startCommand]
@[simp] theorem startCommand_sp : (q.startCommand p).sp = q.sp := by simp [Panel.startCommand]
@[simp] theorem startCommand_ep : (q.startCommand p).ep = q.ep := by simp [Panel.startCommand]
@[simp] theorem startCommand_cc : (q.startCommand p).cc = q.cc := by simp [Panel.startCommand]
@[simp] theorem startCommand_cr : (q.startCommand p).cr = q.cr := by simp [Panel.startCommand]
@[simp] theorem startCommand_pcnt : (q.startCommand p).pcnt = q.pcnt := by simp [Panel.startCommand]
@[simp] theorem startCommand_madctl : (q.startCommand p).madctl = q.madctl := by simp [Panel.startCommand]
@[simp] theorem startCommand_rxmode : (q.startCommand p).rxmode = q.rxmode := by simp [Panel.startCommand]
@[simp] theorem startCommand_pbuf : (q.startCommand p).pbuf = [] := rfl
@[simp] theorem startCommand_pidx : (q.startCommand p).pidx = 0 := rfl
@[simp] theorem startCommand_pixhi : (q.startCommand p).pixhi = none := rfl
@[simp] theorem startCommand_gram : (q.startCommand p).gram = (q.dropHalfPixel p).gram := rfl
@[simp] theorem startCommand_pfault : (q.startCommand p).pfault = (q.dropHalfPixel p).pfault := rfl
@[simp] theorem startCommand_ori : (q.startCommand p).ori p = q.ori p := by simp [Panel.ori]

end

/-- With no half pixel held there is nothing to drop. -/
theorem dropHalfPixel_none {q : Panel} (p : Params) (h : q.pixhi = none) : q.dropHalfPixel p = q := by
  simp [Panel.dropHalfPixel, h]

/-- Once `PFAULT` is set there is nothing to drop. -/
theorem dropHalfPixel_faulted {q : Panel} (p : Params) (h : q.pfault = true) : q.dropHalfPixel p = q := by
  simp [Panel.dropHalfPixel, h]

/-- Dropping a half pixel never clears `PFAULT`. -/
theorem dropHalfPixel_sticky {q : Panel} (p : Params) (h : q.pfault = true) : (q.dropHalfPixel p).pfault = true := by
  rw [dropHalfPixel_faulted p h, h]

/-- In a panel half that keeps the invariant, dropping a half pixel changes `GRAM` alone, by making one cell `no value`. -/
theorem dropHalfPixel_wf {q : Panel} (p : Params) (hq : q.Wf) :
    (q.dropHalfPixel p).pfault = q.pfault ∧ Memory.wf (q.dropHalfPixel p).gram = true := by
  unfold Panel.dropHalfPixel
  split
  · next h =>
    obtain ⟨sc, ec, sp, ep, c, r, n, -, -, -, -, hc, hr, hn, -⟩ := hq.stream_ok h.1 h.2.2
    simp only [hc, hr, hn]
    split
    · split
      · exact ⟨rfl, memErase_wf _ hq.gram_wf⟩
      · exact ⟨rfl, hq.gram_wf⟩
    · exact ⟨rfl, hq.gram_wf⟩
  · exact ⟨rfl, hq.gram_wf⟩

/-- The common part of a command, in a panel half that keeps the invariant. -/
theorem startCommand_pfault_wf {q : Panel} (p : Params) (hq : q.Wf) : (q.startCommand p).pfault = q.pfault :=
  (dropHalfPixel_wf p hq).1

/-- The dispatch on a command byte, where the five bytes the receiver knows are distinct. -/
theorem command_cases {p : Params} (hp : p.Ok) (q : Panel) :
    q.command p p.cCaset = q.caset p ∧ q.command p p.cPaset = q.paset p ∧ q.command p p.cRamwr = q.ramwr p ∧
    q.command p p.cMadctl = q.madctlCommand p ∧ q.command p p.cSwreset = q.swreset p ∧
    ∀ b, b ∉ [p.cCaset, p.cPaset, p.cRamwr, p.cMadctl, p.cSwreset] → q.command p b = q.otherCommand p := by
  have h := hp.commands_distinct
  simp only [Params.commandBytes, List.nodup_cons, List.mem_cons, List.not_mem_nil, or_false, not_or] at h
  obtain ⟨⟨-, -, -, a1, a2, a3, a4⟩, -, -, -, ⟨b1, b2, b3⟩, ⟨c1, c2⟩, d1, -⟩ := h
  refine ⟨by simp [Panel.command], ?_, ?_, ?_, ?_, ?_⟩
  · simp [Panel.command, Ne.symm b1]
  · simp [Panel.command, Ne.symm b2, Ne.symm c1]
  · simp [Panel.command, Ne.symm b3, Ne.symm c2, Ne.symm d1]
  · simp [Panel.command, a1, a2, a3, a4]
  · intro b hb
    simp only [List.mem_cons, List.not_mem_nil, or_false, not_or] at hb
    simp [Panel.command, hb]

/-- The place of a table byte in the table. -/
theorem orientationOf_table {p : Params} (hp : p.Ok) (r : Rot) : orientationOf p (p.madctlTable r) = some r := by
  have h : ∀ i j : Rot, i ≠ j → p.madctlTable i ≠ p.madctlTable j := fun i j hij he => hij (hp.madctl_distinct i j he)
  unfold orientationOf
  fin_cases r
  · simp
  · simp [h 1 0 (by decide)]
  · simp [h 2 0 (by decide), h 2 1 (by decide)]
  · simp [h 3 0 (by decide), h 3 1 (by decide), h 3 2 (by decide)]

section sticky
variable {q : Panel} (p : Params) (b : Byte)

theorem openStream_sticky (h : q.pfault = true) : (q.openStream p).pfault = true := by
  unfold Panel.openStream
  split
  · split
    · rfl
    · split
      · rfl
      · exact h
  · rfl

theorem pixel_sticky (pix : Word) (h : q.pfault = true) : (q.pixel p pix).pfault = true := by
  simp [Panel.pixel, h]

/-- A command byte never clears `PFAULT`. -/
theorem command_sticky (h : q.pfault = true) : (q.command p b).pfault = true := by
  have hd := dropHalfPixel_sticky p h
  unfold Panel.command
  repeat' split
  all_goals
    first
    | exact hd
    | exact openStream_sticky p hd

/-- A data byte never clears `PFAULT`. -/
theorem dataByte_sticky (h : q.pfault = true) : (q.dataByte p b).pfault = true := by
  show (q.takeByte p b).pfault = true
  unfold Panel.takeByte
  split
  · rfl
  · unfold Panel.casetByte
    repeat' split
    all_goals first | exact h | rfl
  · unfold Panel.pasetByte
    repeat' split
    all_goals first | exact h | rfl
  · unfold Panel.madctlByte
    split
    · exact h
    · rfl
  · unfold Panel.streamByte
    split
    · exact h
    · exact pixel_sticky p _ h
  · exact h

/-- No event clears `PFAULT` (10_state.md R35). -/
theorem receive_sticky (e : Event) (h : q.pfault = true) : (q.receive p e).pfault = true := by
  cases e with
  | cmd b => exact command_sticky p b h
  | data b => exact dataByte_sticky p b h
  | delay ms => exact h

end sticky

@[simp] theorem afterEvents_nil (p : Params) (q : Panel) : q.afterEvents p [] = q := rfl
@[simp] theorem afterEvents_cons (p : Params) (e : Event) (es : List Event) (q : Panel) :
    q.afterEvents p (e :: es) = (q.receive p e).afterEvents p es := rfl
theorem afterEvents_append (p : Params) (es fs : List Event) (q : Panel) :
    q.afterEvents p (es ++ fs) = (q.afterEvents p es).afterEvents p fs := List.foldl_append

/-- What every event keeps, a list of events keeps. -/
theorem afterEvents_induction {P : Panel → Prop} {p : Params} (h : ∀ q e, P q → P (q.receive p e)) (es : List Event) {q : Panel}
    (hq : P q) : P (q.afterEvents p es) := by
  induction es generalizing q with
  | nil => exact hq
  | cons e es ih => exact ih (h q e hq)

end Sys2Proof.Machine
end

