-- ==== Sys2Proof/Laws/Invariant.lean ====
section
/-! SUPPORT. Every event keeps the panel half's invariant, one lemma per receiver function. -/

namespace Sys2Proof.Machine

theorem joinBytes_eq (a b : Byte) : joinBytes a b = a ++ b := rfl

/-- The area of a window is at most 2^32 (10_state.md R31). -/
theorem windowArea_le (sc ec sp ep : Word) : windowArea sc ec sp ep ≤ 2 ^ 32 := by
  have h : ∀ a b : Word, a.toNat - b.toNat + 1 ≤ 65536 := fun a b => by
    have := a.isLt
    omega
  calc windowArea sc ec sp ep ≤ 65536 * 65536 := Nat.mul_le_mul (h ec sc) (h ep sp)
    _ = 2 ^ 32 := by decide

/-- A fault keeps the invariant. -/
theorem fault_wf {q : Panel} (h : q.Wf) : q.fault.Wf :=
  ⟨h.gram_wf, fun hm => ⟨(h.params_counted hm).1, by simp⟩, h.params_cleared, h.latch_in_stream, h.latch_parity,
    fun hm => ⟨(h.madctl_counted hm).1, by simp⟩, h.columns_paired, h.rows_paired,
    h.caset_pair, h.paset_pair, h.column_bound, h.row_bound, h.count_bound, fun _ hf => by simp at hf⟩

/-- A command that ends in a mode other than `STREAM` and leaves the cursor keeps the invariant. -/
theorem leaveStream_wf {q t : Panel} (p : Params) (h : q.Wf) (hm : t.rxmode ≠ .stream) (hb : t.pbuf = []) (hi : t.pidx = 0)
    (hx : t.pixhi = none) (hg : t.gram = (q.dropHalfPixel p).gram ∨ t.gram = [])
    (hc : t.cc = q.cc ∨ t.cc = none) (hr : t.cr = q.cr ∨ t.cr = none) (hn : t.pcnt = q.pcnt ∨ t.pcnt = none)
    (hcol : t.sc = none ↔ t.ec = none) (hrow : t.sp = none ↔ t.ep = none)
    (hcs : t.rxmode = .pCaset → t.sc = none) (hps : t.rxmode = .pPaset → t.sp = none)
    (hma : t.rxmode = .pMadctl → t.madctl = none) : t.Wf where
  gram_wf := by
    rcases hg with hg | hg
    · rw [hg]; exact (dropHalfPixel_wf p h).2
    · rw [hg]; rfl
  params_counted := fun _ => by simp [hb, hi]
  params_cleared := fun _ _ => hb
  latch_in_stream := fun hne => absurd hx hne
  latch_parity := fun hmode => absurd hmode hm
  madctl_counted := fun hmode => by simp [hma hmode, hi]
  columns_paired := hcol
  rows_paired := hrow
  caset_pair := fun hmode => by simp [hcs hmode, hi]
  paset_pair := fun hmode => by simp [hps hmode, hi]
  column_bound := fun c hcc => by
    rcases hc with hc | hc
    · exact h.column_bound c (hc ▸ hcc)
    · simp [hc] at hcc
  row_bound := fun r hrr => by
    rcases hr with hr | hr
    · exact h.row_bound r (hr ▸ hrr)
    · simp [hr] at hrr
  count_bound := fun n hnn => by
    rcases hn with hn | hn
    · exact h.count_bound n (hn ▸ hnn)
    · simp [hn] at hnn
  stream_ok := fun hmode => absurd hmode hm

theorem caset_wf {q : Panel} (p : Params) (h : q.Wf) : (q.caset p).Wf := by
  refine leaveStream_wf p h ?_ rfl rfl rfl (.inl rfl) (.inl ?_) (.inl ?_) (.inl ?_) ?_ ?_ ?_ ?_ ?_ <;>
    simp [Panel.caset, h.rows_paired]

theorem paset_wf {q : Panel} (p : Params) (h : q.Wf) : (q.paset p).Wf := by
  refine leaveStream_wf p h ?_ rfl rfl rfl (.inl rfl) (.inl ?_) (.inl ?_) (.inl ?_) ?_ ?_ ?_ ?_ ?_ <;>
    simp [Panel.paset, h.columns_paired]

theorem madctlCommand_wf {q : Panel} (p : Params) (h : q.Wf) : (q.madctlCommand p).Wf := by
  refine leaveStream_wf p h ?_ rfl rfl rfl (.inl rfl) (.inl ?_) (.inl ?_) (.inl ?_) ?_ ?_ ?_ ?_ ?_ <;>
    simp [Panel.madctlCommand, h.columns_paired, h.rows_paired]

theorem otherCommand_wf {q : Panel} (p : Params) (h : q.Wf) : (q.otherCommand p).Wf := by
  refine leaveStream_wf p h ?_ rfl rfl rfl (.inl rfl) (.inl ?_) (.inl ?_) (.inl ?_) ?_ ?_ ?_ ?_ ?_ <;>
    simp [Panel.otherCommand, h.columns_paired, h.rows_paired]

theorem swreset_wf {q : Panel} (p : Params) (h : q.Wf) : (q.swreset p).Wf := by
  refine leaveStream_wf p h ?_ rfl rfl rfl (.inr rfl) (.inr ?_) (.inr ?_) (.inr ?_) ?_ ?_ ?_ ?_ ?_ <;>
    simp [Panel.swreset]

/-- A panel half in `STREAM` mode with empty parameters keeps the invariant if its cursor does. -/
theorem inStream_wf {q t : Panel} (p : Params) (h : q.Wf) (hm : t.rxmode = .stream) (hb : t.pbuf = [])
    (hi : t.pidx = 0) (hx : t.pixhi = none) (hg : t.gram = (q.dropHalfPixel p).gram) (hsc : t.sc = q.sc) (hec : t.ec = q.ec) (hsp : t.sp = q.sp) (hep : t.ep = q.ep)
    (hcb : ∀ c, t.cc = some c → c ≤ 65536) (hrb : ∀ r, t.cr = some r → r ≤ 65536) (hnb : ∀ n, t.pcnt = some n → n ≤ 2 ^ 32)
    (hs : t.pfault = false → t.StreamOk) : t.Wf where
  gram_wf := by rw [hg]; exact (dropHalfPixel_wf p h).2
  params_counted := by simp [hm]
  params_cleared := fun _ _ => hb
  latch_in_stream := fun _ => hm
  latch_parity := fun _ => by simp [hi, hx]
  madctl_counted := by simp [hm]
  columns_paired := by rw [hsc, hec]; exact h.columns_paired
  rows_paired := by rw [hsp, hep]; exact h.rows_paired
  caset_pair := by simp [hm]
  paset_pair := by simp [hm]
  column_bound := hcb
  row_bound := hrb
  count_bound := hnb
  stream_ok := fun _ => hs

theorem ramwr_wf {q : Panel} (p : Params) (h : q.Wf) : (q.ramwr p).Wf := by
  unfold Panel.ramwr Panel.openStream
  have faulted : ({ q.startCommand p with rxmode := .stream, pfault := true } : Panel).Wf := by
    refine inStream_wf p h rfl rfl rfl rfl rfl ?_ ?_ ?_ ?_ ?_ ?_ ?_ (by simp) <;>
      simp
    · exact h.column_bound
    · exact h.row_bound
    · exact h.count_bound
  split
  · next sc ec sp ep h1 h2 h3 h4 =>
    split
    · exact faulted
    · split
      · exact faulted
      · next hi _ =>
        simp only [startCommand_sc, startCommand_ec, startCommand_sp, startCommand_ep] at h1 h2 h3 h4
        have hl1 := sc.isLt
        have hl2 := sp.isLt
        refine inStream_wf p h rfl rfl rfl rfl rfl ?_ ?_ ?_ ?_ ?_ ?_ ?_ ?_
        · simp
        · simp
        · simp
        · simp
        · intro c hc; simp at hc; omega
        · intro r hr; simp at hr; omega
        · intro n hn; simp only [Option.some.injEq] at hn; rw [← hn]; exact windowArea_le sc ec sp ep
        · intro _
          refine ⟨sc, ec, sp, ep, sc.toNat, sp.toNat, windowArea sc ec sp ep, ?_⟩
          simp [h1, h2, h3, h4]
          omega
  · exact faulted

/-- A command byte keeps the invariant. -/
theorem command_wf {q : Panel} (p : Params) (b : Byte) (h : q.Wf) : (q.command p b).Wf := by
  unfold Panel.command
  repeat' split
  · exact caset_wf p h
  · exact paset_wf p h
  · exact ramwr_wf p h
  · exact madctlCommand_wf p h
  · exact swreset_wf p h
  · exact otherCommand_wf p h

theorem casetByte_wf {q : Panel} (b : Byte) (hm : q.rxmode = .pCaset) (h : q.Wf) :
    ({ q.casetByte b with pidx := q.pidx + 1 } : Panel).Wf := by
  have hc := h.params_counted (.inl hm)
  have surplus : ¬ q.pidx < 4 → ({ q.fault with pidx := q.pidx + 1 } : Panel).Wf := by
    intro h4
    have hl : q.pbuf.length = min (q.pidx + 1) 4 := by omega
    have hs : q.sc ≠ none := fun e => h4 ((h.caset_pair hm).mp e)
    have h5 : ¬ q.pidx + 1 < 4 := by omega
    exact { fault_wf h with
      params_counted := fun _ => ⟨hl, by simp⟩
      latch_parity := by simp [hm]
      madctl_counted := by simp [hm]
      caset_pair := fun _ => by simp only [fault_sc, hs, h5]
      paset_pair := by simp [hm]
      stream_ok := by simp [hm] }
  unfold Panel.casetByte
  split
  · next hlt =>
    have hs := (h.caset_pair hm).mpr (by omega)
    exact { h with
      params_counted := fun _ => by simp only [List.length_append, List.length_singleton]; omega
      params_cleared := fun h1 => absurd hm h1
      latch_parity := by simp [hm]
      madctl_counted := by simp [hm]
      caset_pair := fun _ => by simp only [hs, true_iff]; omega
      paset_pair := by simp [hm]
      stream_ok := by simp [hm] }
  · next hlt =>
    split
    · next h3 =>
      split
      · exact { h with
          params_counted := fun _ => by simp [h3]
          params_cleared := fun h1 => absurd hm h1
          latch_parity := by simp [hm]
          madctl_counted := by simp [hm]
          columns_paired := by simp
          caset_pair := by simp [h3]
          paset_pair := by simp [hm]
          stream_ok := by simp [hm] }
      · next hb =>
        have hl : q.pbuf.length = 3 := by omega
        obtain ⟨b0, b1, b2, e⟩ := List.length_eq_three.mp hl
        exact absurd e (hb b0 b1 b2)
    · next h3 => exact surplus (by omega)

theorem pasetByte_wf {q : Panel} (b : Byte) (hm : q.rxmode = .pPaset) (h : q.Wf) :
    ({ q.pasetByte b with pidx := q.pidx + 1 } : Panel).Wf := by
  have hc := h.params_counted (.inr hm)
  have surplus : ¬ q.pidx < 4 → ({ q.fault with pidx := q.pidx + 1 } : Panel).Wf := by
    intro h4
    have hl : q.pbuf.length = min (q.pidx + 1) 4 := by omega
    have hs : q.sp ≠ none := fun e => h4 ((h.paset_pair hm).mp e)
    have h5 : ¬ q.pidx + 1 < 4 := by omega
    exact { fault_wf h with
      params_counted := fun _ => ⟨hl, by simp⟩
      latch_parity := by simp [hm]
      madctl_counted := by simp [hm]
      paset_pair := fun _ => by simp only [fault_sp, hs, h5]
      caset_pair := by simp [hm]
      stream_ok := by simp [hm] }
  unfold Panel.pasetByte
  split
  · next hlt =>
    have hs := (h.paset_pair hm).mpr (by omega)
    exact { h with
      params_counted := fun _ => by simp only [List.length_append, List.length_singleton]; omega
      params_cleared := fun _ h2 => absurd hm h2
      latch_parity := by simp [hm]
      madctl_counted := by simp [hm]
      paset_pair := fun _ => by simp only [hs, true_iff]; omega
      caset_pair := by simp [hm]
      stream_ok := by simp [hm] }
  · next hlt =>
    split
    · next h3 =>
      split
      · exact { h with
          params_counted := fun _ => by simp [h3]
          params_cleared := fun _ h2 => absurd hm h2
          latch_parity := by simp [hm]
          madctl_counted := by simp [hm]
          rows_paired := by simp
          paset_pair := by simp [h3]
          caset_pair := by simp [hm]
          stream_ok := by simp [hm] }
      · next hb =>
        have hl : q.pbuf.length = 3 := by omega
        obtain ⟨b0, b1, b2, e⟩ := List.length_eq_three.mp hl
        exact absurd e (hb b0 b1 b2)
    · next h3 => exact surplus (by omega)

theorem madctlByte_wf {q : Panel} (b : Byte) (hm : q.rxmode = .pMadctl) (h : q.Wf) :
    ({ q.madctlByte b with pidx := q.pidx + 1 } : Panel).Wf := by
  have hc := h.madctl_counted hm
  unfold Panel.madctlByte
  split
  · next h0 =>
    exact { h with
      params_counted := by simp [hm]
      latch_parity := by simp [hm]
      madctl_counted := fun _ => by simp [h0]
      caset_pair := by simp [hm]
      paset_pair := by simp [hm]
      stream_ok := by simp [hm] }
  · next h0 =>
    exact { fault_wf h with
      params_counted := by simp [hm]
      latch_parity := by simp [hm]
      madctl_counted := fun _ => by simp [hc.1, h0]
      caset_pair := by simp [hm]
      paset_pair := by simp [hm]
      stream_ok := by simp [hm] }

/-- The cursor's advance stays in the window (41_addressing.md R153). -/
theorem advance_streamOk {sc ec sp ep : Word} {c r n : Nat} (h1 : sc.toNat ≤ ec.toNat) (h2 : sp.toNat ≤ ep.toNat)
    (h3 : sc.toNat ≤ c) (h4 : c ≤ ec.toNat) (h5 : sp.toNat ≤ r)
    (h6 : (r - sp.toNat) * (ec.toNat - sc.toNat + 1) + (c - sc.toNat) + (n + 1) = windowArea sc ec sp ep) :
    r ≤ ep.toNat ∧
    (c = ec.toNat → (r + 1 - sp.toNat) * (ec.toNat - sc.toNat + 1) + (sc.toNat - sc.toNat) + n = windowArea sc ec sp ep) ∧
    (c ≠ ec.toNat → (r - sp.toNat) * (ec.toNat - sc.toNat + 1) + (c + 1 - sc.toNat) + n = windowArea sc ec sp ep) := by
  refine ⟨?_, fun hc => ?_, fun hc => ?_⟩
  · by_contra hlt
    have : (ep.toNat - sp.toNat + 1) * (ec.toNat - sc.toNat + 1) ≤ (r - sp.toNat) * (ec.toNat - sc.toNat + 1) :=
      Nat.mul_le_mul_right _ (by omega)
    rw [windowArea, Nat.mul_comm (ec.toNat - sc.toNat + 1)] at h6
    omega
  · have e : r + 1 - sp.toNat = (r - sp.toNat) + 1 := by omega
    rw [e, Nat.add_mul]
    omega
  · omega

theorem pixel_wf {q : Panel} {p : Params} (hp : p.Ok) (pix : Word) (hm : q.rxmode = .stream) (h : q.Wf) :
    (q.pixel p pix).Wf := by
  unfold Panel.pixel
  split
  · exact h
  · next hf =>
    have hf' : q.pfault = false := by simpa using hf
    split
    · next n c r o hn hc hr ho =>
      split
      · next hin =>
        obtain ⟨sc, ec, sp, ep, c', r', n', e1, e2, e3, e4, e5, e6, e7, h1, h2, h3, h4, h5, h6⟩ := h.stream_ok hm hf'
        obtain rfl : c' = c := by simpa [hc] using e5.symm
        obtain rfl : r' = r := by simpa [hr] using e6.symm
        obtain rfl : n' = n + 1 := by simpa [hn] using e7.symm
        obtain ⟨hrow, hwrap, hnext⟩ := advance_streamOk h1 h2 h3 h4 h5 h6
        have hcell := hp.xform_in o c' r' hin
        have hg := memWrite_wf (some pix) h.gram_wf (cellNumber_lt hcell.1 hcell.2)
        have hcount := h.count_bound _ hn
        have hl1 := ec.isLt
        have hl2 := ep.isLt
        simp only [Panel.advance, e1, e2]
        split
        · next hce =>
          exact { h with
            gram_wf := hg
            columns_paired := by simp
            caset_pair := by simp [hm]
            column_bound := fun k hk => by simp only [Option.some.injEq] at hk; omega
            row_bound := fun k hk => by simp only [Option.some.injEq] at hk; omega
            count_bound := fun k hk => by simp only [Option.some.injEq] at hk; omega
            stream_ok := fun _ _ => ⟨sc, ec, sp, ep, sc.toNat, r' + 1, n, rfl, rfl, e3, e4, rfl, rfl, rfl, h1, h2, le_rfl, h1,
              by omega, hwrap hce⟩ }
        · next hce =>
          exact { h with
            gram_wf := hg
            columns_paired := by simp
            caset_pair := by simp [hm]
            column_bound := fun k hk => by simp only [Option.some.injEq] at hk; omega
            count_bound := fun k hk => by simp only [Option.some.injEq] at hk; omega
            stream_ok := fun _ _ => ⟨sc, ec, sp, ep, c' + 1, r', n, rfl, rfl, e3, e4, rfl, e6, rfl, h1, h2, by omega, by omega,
              h5, hnext hce⟩ }
      · exact fault_wf h
    · exact fault_wf h

/-- A pixel neither reads nor writes `PIDX`. -/
theorem pixel_pidx (p : Params) (pix : Word) (q : Panel) (k : Nat) :
    ({ q.pixel p pix with pidx := k } : Panel) = Panel.pixel p pix { q with pidx := k } := by
  obtain ⟨⟩ := q
  simp only [Panel.pixel, Panel.advance, Panel.ori, Panel.fault]
  repeat' split
  all_goals rfl

theorem streamByte_wf {q : Panel} {p : Params} (hp : p.Ok) (b : Byte) (hm : q.rxmode = .stream) (h : q.Wf) :
    ({ q.streamByte p b with pidx := q.pidx + 1 } : Panel).Wf := by
  have hc := h.latch_parity hm
  have hn := h.params_cleared (by simp [hm]) (by simp [hm])
  unfold Panel.streamByte
  split
  · next hx =>
    exact { h with
      params_counted := by simp [hm]
      latch_in_stream := fun _ => hm
      latch_parity := fun _ => by simp only [hx, ne_eq, not_true, false_iff, reduceCtorEq, not_false_eq_true, true_iff] at hc ⊢; omega
      madctl_counted := by simp [hm]
      caset_pair := by simp [hm]
      paset_pair := by simp [hm]
      stream_ok := h.stream_ok }
  · next hi hx =>
    rw [pixel_pidx]
    refine pixel_wf hp _ hm { h with
      params_counted := by simp [hm]
      latch_in_stream := fun _ => hm
      latch_parity := fun _ => by simp only [hx, ne_eq, not_true, false_iff, reduceCtorEq, not_false_eq_true, true_iff] at hc ⊢; omega
      madctl_counted := by simp [hm]
      caset_pair := by simp [hm]
      paset_pair := by simp [hm]
      stream_ok := h.stream_ok }

/-- A data byte keeps the invariant. -/
theorem dataByte_wf {q : Panel} {p : Params} (hp : p.Ok) (b : Byte) (h : q.Wf) : (q.dataByte p b).Wf := by
  unfold Panel.dataByte Panel.takeByte
  split
  · next hm => exact { fault_wf h with
      params_counted := by simp [hm]
      latch_parity := by simp [hm]
      madctl_counted := by simp [hm]
      caset_pair := by simp [hm]
      paset_pair := by simp [hm]
      stream_ok := by simp [hm] }
  · next hm => exact casetByte_wf b hm h
  · next hm => exact pasetByte_wf b hm h
  · next hm => exact madctlByte_wf b hm h
  · next hm => exact streamByte_wf hp b hm h
  · next hm => exact { h with
      params_counted := by simp [hm]
      latch_parity := by simp [hm]
      madctl_counted := by simp [hm]
      caset_pair := by simp [hm]
      paset_pair := by simp [hm]
      stream_ok := by simp [hm] }

/-- Every event keeps the panel half's invariant. -/
theorem receive_wf {q : Panel} {p : Params} (hp : p.Ok) (e : Event) (h : q.Wf) : (q.receive p e).Wf := by
  cases e with
  | cmd b => exact command_wf p b h
  | data b => exact dataByte_wf hp b h
  | delay ms => exact h

/-- A list of events keeps the panel half's invariant. -/
theorem afterEvents_wf {q : Panel} {p : Params} (hp : p.Ok) (es : List Event) (h : q.Wf) : (q.afterEvents p es).Wf :=
  afterEvents_induction (fun _ e hq => receive_wf hp e hq) es h

end Sys2Proof.Machine
end

