-- ==== Sys2Proof/Laws/Moves.lean ====
section
/-! SUPPORT. The moves a request is made of, and that what every move keeps, every request keeps: the one induction behind the
machine's invariants, made once, for every choice of the parameters. -/

namespace Sys2Proof.Machine

/-- A property of states that every move of an operation run whole keeps. -/
structure Keeps (p : Params) (J : Block → Prop) : Prop where
  consume : ∀ s, J s → J s.consume
  deliver : ∀ e s, J s → J (s.deliver p e)
  drive : ∀ d s, J s → J { s with dc := d }
  seq : ∀ q s, J s → J { s with seq := q }
  answer : ∀ (a : Response) s, a.status ≠ .invalidGeometry → J s → J { s with responses := s.responses ++ [a] }
  life : ∀ l s, J s → J (setLife l s)
  rotation : ∀ r s, J s → J (commitRotation r s)
  input : ∀ r s, J s → J { s with program := r }

variable {p : Params} {ω : Oracle} {J : Block → Prop}

/-- One transmit keeps what every move keeps. -/
theorem Keeps.send (k : Keeps p J) {e : Event} {s : Block} (h : J s) : J (s.send p ω e).1 := by
  rcases send_cases p ω e s with ⟨ms, _, g⟩ | ⟨_, _, g⟩ | ⟨_, _, g⟩ <;> rw [g]
  · exact k.deliver _ _ h
  · exact k.deliver _ _ (k.consume _ h)
  · exact k.drive _ _ (k.consume _ h)

theorem Keeps.emit (k : Keeps p J) {es : List Event} {s : Block} (h : J s) : J (emit p ω es s).1 := by
  induction es generalizing s with
  | nil => exact h
  | cons e es ih =>
    have ht := k.send (ω := ω) (e := e) h
    rw [Machine.emit]
    generalize s.send p ω e = r at ht
    obtain ⟨t, b⟩ := r
    cases b
    · exact ht
    · exact ih ht

theorem Keeps.respond (k : Keeps p J) {st : Status} {v : Word} {s : Block} (hs : st ≠ .invalidGeometry) (h : J s) :
    J (respond st v s) :=
  k.seq .idle _ (k.answer ⟨st, v⟩ s hs h)

theorem Keeps.perform (k : Keeps p J) {es : List Event} {commit abort : Block → Block} {s : Block}
    (hc : ∀ s, J s → J (commit s)) (ha : ∀ s, J s → J (abort s)) (h : J s) : J (perform p ω es commit abort s) := by
  have ht := k.emit (ω := ω) (es := es) h
  unfold Machine.perform
  generalize Machine.emit p ω es s = r at ht
  obtain ⟨t, b⟩ := r
  cases b
  · exact k.respond (by decide) (ha _ ht)
  · exact k.respond (by decide) (hc _ ht)

theorem Keeps.whenReady (k : Keeps p J) {body : Block → Block} {s : Block} (hb : ∀ s, J s → J (body s)) (h : J s) :
    J (whenReady body s) := by
  rcases whenReady_cases body s with ⟨_, e⟩ | ⟨_, e⟩ <;> rw [e]
  · exact hb _ h
  · exact k.respond (by decide) h

theorem Keeps.openBegin (k : Keeps p J) {body : Block → Block} {s : Block} (hb : ∀ s, J s → J (body s)) (h : J s) :
    J (openBegin ω body s) := by
  rcases openBegin_cases ω body s with ⟨_, e⟩ | ⟨_, e⟩ | ⟨_, _, e⟩ | ⟨_, _, e⟩ <;> rw [e]
  · exact k.respond (by decide) h
  · exact hb _ h
  · exact hb _ (k.consume _ h)
  · exact k.respond (by decide) (k.life _ _ (k.consume _ h))

theorem Keeps.commitOf (k : Keeps p J) {i : Instr} {s : Block} (h : J s) : J (commitOf i s) := by
  cases i <;> first | exact h | exact k.life _ _ h | exact k.rotation _ _ h

theorem Keeps.abortOf (k : Keeps p J) {i : Instr} {s : Block} (h : J s) : J (abortOf i s) := by
  cases i <;> first | exact h | exact k.life _ _ h

/-- What a request decodes to is one of the nine operations or a reserved code, never a wire symbol. -/
theorem decodeRequest_cases (r : Req) :
    decodeRequest r = .begin ∨ (decodeRequest r).transmits = true ∨ (∃ x y z, decodeRequest r = .color565 x y z) ∨
    decodeRequest r ∈ [Instr.reserved9, .reserved10, .reserved11, .reserved12, .reserved13, .reserved14, .reserved15] := by
  unfold decodeRequest
  split <;> simp [Instr.transmits]

/-- A request, run in one step, keeps what every move keeps. -/
theorem Keeps.execForRequest (k : Keeps p J) {r : Req} {s : Block} (h : J s) : J (execFor p ω (decodeRequest r) s) := by
  rcases decodeRequest_cases r with e | e | ⟨x, y, z, e⟩ | e
  · rw [e]
    exact k.openBegin (fun s h => k.perform (k.life _) (k.life _) h) h
  · rw [execFor_transmits s e]
    exact k.whenReady (fun s h => k.perform (fun s h => k.commitOf h) (fun s h => k.abortOf h) h) h
  · rw [e]
    exact k.respond (by decide) h
  · simp only [List.mem_cons, List.not_mem_nil, or_false] at e
    rcases e with e | e | e | e | e | e | e <;>
    · rw [e]
      exact k.respond (by decide) h

theorem Keeps.latch (k : Keeps p J) {r : Req} {s : Block} (h : J s) : J (latch p r s) := by
  unfold Machine.latch
  split
  · exact k.respond (by decide) (k.commitOf h)
  · exact k.seq _ _ h

/-- One event of an operation in progress keeps what every move keeps. -/
theorem Keeps.tick (k : Keeps p J) {r : Req} {i : Nat} {s : Block} (h : J s) : J (tick p ω r i s) := by
  unfold Machine.tick
  split
  · exact k.respond (by decide) (k.commitOf h)
  · next e _ =>
    have ht := k.send (ω := ω) (e := e) h
    generalize s.send p ω e = x at ht
    obtain ⟨t, b⟩ := x
    cases b
    · exact k.respond (by decide) (k.abortOf ht)
    · simp only
      split
      · exact k.seq _ _ ht
      · exact k.respond (by decide) (k.commitOf ht)

/-- The emission list depends on the request and on PanelState alone (00_scope.md R8). -/
theorem emissionOf_congr {s t : Block} (i : Instr) (hw : s.width = t.width) (hh : s.height = t.height) :
    emissionOf p i s = emissionOf p i t := by
  cases i <;> simp [emissionOf, Block.widthInt, Block.heightInt, hw, hh]

/-- Everything the liveness check and the latch of a request for the one-event reading can do. -/
theorem startByEvents_cases (p : Params) (ω : Oracle) (r : Req) (s : Block) :
    (decodeRequest r = .begin ∧ startByEvents p ω r s = openBegin ω (latch p r) s) ∨
    ((decodeRequest r).transmits = true ∧ startByEvents p ω r s = whenReady (latch p r) s) ∨
    startByEvents p ω r s = execFor p ω (decodeRequest r) s := by
  unfold startByEvents
  cases decodeRequest r <;> simp [Instr.transmits]

/-- A wire symbol, decoded and run, is the receiver's step on its event, where the command bytes are distinct
(41_addressing.md R145, R146). -/
theorem execFor_symbol (hp : p.Ok) (y : Sym) (s : Block) :
    execFor p ω (decodeSymbol p y) s = s.onPanel fun q => q.receive p (symbolEvent y) := by
  unfold decodeSymbol symbolEvent
  split
  · rfl
  · have key (b : Byte) (i : Instr) (f : Panel → Panel) (hi : execFor p ω i s = s.onPanel f)
        (hf : ∀ q, q.command p b = f q) : execFor p ω i s = s.onPanel fun q => q.receive p (.cmd b) := by
      rw [hi, show (fun q : Panel => q.receive p (.cmd b)) = f from funext hf]
    have other (b : Byte) (i : Instr) (hi : execFor p ω i s = s.onPanel (Panel.otherCommand p))
        (hb : b ∉ [p.cCaset, p.cPaset, p.cRamwr, p.cMadctl, p.cSwreset]) :
        execFor p ω i s = s.onPanel fun q => q.receive p (.cmd b) :=
      key b i _ hi fun q => (command_cases hp q).2.2.2.2.2 b hb
    have hc := hp.commands_distinct
    simp only [Params.commandBytes, List.nodup_cons, List.mem_cons, List.not_mem_nil, or_false, not_or] at hc
    generalize Sym.byte y = b
    unfold decodeCommand
    split
    · next h => exact key _ _ _ rfl fun q => h ▸ (command_cases hp q).2.2.2.2.1
    split
    · next h => exact other _ _ rfl (by simp only [h, List.mem_cons, List.not_mem_nil, or_false]; tauto)
    split
    · next h => exact other _ _ rfl (by simp only [h, List.mem_cons, List.not_mem_nil, or_false]; tauto)
    split
    · next h => exact other _ _ rfl (by simp only [h, List.mem_cons, List.not_mem_nil, or_false]; tauto)
    split
    · next h => exact key _ _ _ rfl fun q => h ▸ (command_cases hp q).1
    split
    · next h => exact key _ _ _ rfl fun q => h ▸ (command_cases hp q).2.1
    split
    · next h => exact key _ _ _ rfl fun q => h ▸ (command_cases hp q).2.2.1
    split
    · next h => exact key _ _ _ rfl fun q => h ▸ (command_cases hp q).2.2.2.1
    · exact other _ _ rfl (by simp only [List.mem_cons, List.not_mem_nil, or_false]; tauto)

/-- A symbol of an event stands for that event (30_encoding.md R94). -/
theorem symbolEvent_of {e : Event} {y : Sym} (h : symbolOf e = some y) : symbolEvent y = e := by
  cases e with
  | delay ms => simp [symbolOf] at h
  | cmd b =>
    injection h with h
    subst h
    revert b
    decide
  | data b =>
    injection h with h
    subst h
    revert b
    decide

/-- A byte's delivery is the run of its symbol in the panel half, the event recorded (20_memory.md R69). -/
theorem deliver_runs_symbol (hp : p.Ok) {e : Event} {y : Sym} (h : symbolOf e = some y) (s : Block) :
    s.deliver p e = execFor p ω (decodeSymbol p y) (s.record e) := by
  rw [execFor_symbol hp, symbolEvent_of h]
  rfl

/-- What a step of the relation is, case by case (00_scope.md R10; log 6, 7). -/
theorem stepFor_bench {s : Block} {y : Sym} (hb : s.bench = some y) :
    stepFor p ω s = execFor p ω (decodeSymbol p y) { s with bench := none } := by simp only [Machine.stepFor, hb]

/-- As `stepFor_bench`, for an operation in progress. -/
theorem stepFor_busy {s : Block} {r : Req} {i : Nat} (hb : s.bench = none) (hq : s.seq = .busy r i) :
    stepFor p ω s = tick p ω r i s := by simp only [Machine.stepFor, hb, hq]

/-- As `stepFor_bench`, for an input taken. -/
theorem stepFor_input {s : Block} {inp : Input} {rest : List Input} (hb : s.bench = none) (hq : s.seq = .idle)
    (hi : s.program = inp :: rest) : stepFor p ω s = runInput p ω inp { s with program := rest } := by
  simp only [Machine.stepFor, Block.fetch, hi]
  simp only [hb, hq]

/-- As `stepFor_bench`, for an idle block with nothing presented. -/
theorem stepFor_waits {s : Block} (hb : s.bench = none) (hq : s.seq = .idle) (hi : s.program = []) :
    stepFor p ω s = s := by simp only [Machine.stepFor, hb, hq, Block.fetch, hi]

/-- A step of the closed machine, as a relation on states. -/
theorem step_iff {s t : State} : step s = .next t ↔ s.onBlock (stepFor params s.oracle) = t := by
  unfold step
  exact ⟨fun h => by injection h, fun h => h ▸ rfl⟩

/-- One step keeps what every move keeps, unless it is a power-up or a test bench acts on the panel half. -/
theorem Keeps.stepFor (k : Keeps p J) {s : Block} (h : J s) :
    J (stepFor p ω s) ∨
    (s.bench = none ∧ s.seq = .idle ∧ ∃ rest, s.program = .powerUp :: rest ∧
      stepFor p ω s = powerUp { s with program := rest }) ∨
    (∃ y, s.bench = some y ∧ stepFor p ω s = execFor p ω (decodeSymbol p y) { s with bench := none }) := by
  cases hb : s.bench with
  | some y => exact .inr (.inr ⟨y, rfl, stepFor_bench hb⟩)
  | none =>
    cases hq : s.seq with
    | busy r i => exact .inl (stepFor_busy hb hq ▸ k.tick h)
    | idle =>
      cases hi : s.program with
      | nil => exact .inl ((stepFor_waits hb hq hi).symm ▸ h)
      | cons inp rest =>
        have h' := k.input rest _ h
        rw [stepFor_input hb hq hi]
        cases inp with
        | present r => exact .inl (k.execForRequest h')
        | powerUp => exact .inr (.inl ⟨rfl, rfl, rest, rfl, rfl⟩)
        | byEvents r =>
          rcases startByEvents_cases p ω r { s with program := rest } with ⟨_, e⟩ | ⟨_, e⟩ | e <;> rw [runInput, e]
          · exact .inl (k.openBegin (fun s h => k.latch h) h')
          · exact .inl (k.whenReady (fun s h => k.latch h) h')
          · exact .inl (k.execForRequest h')

/-- No meaning ends in a fault or a refusal. -/
theorem exec_next (i : Instr) (s : State) : ∃ t, exec i s = .next t := ⟨_, exec_eq i s⟩

end Sys2Proof.Machine
end

