-- ==== Sys2Proof/Laws/PerInstr.lean ====
section
/-! SUPPORT. The per-instruction family RowBits: the encoder sets the bits that the instruction's row of
spec/opcode_table.json fixes (its match under its mask). -/

namespace Sys2Proof.Laws.RowBits

/-- The code word agrees with a request row's match under its mask. -/
def requestRow (matchBits maskBits : Req) : Code → Prop
  | .request r => r &&& maskBits = matchBits
  | .symbol _ => False

/-- The code word agrees with a symbol row's match under its mask. -/
def symbolRow (matchBits maskBits : Sym) : Code → Prop
  | .request _ => False
  | .symbol y => y &&& maskBits = matchBits

/-- The mask of every request row: the operation code. -/
def opMask : Req := 0xF00000000000000000000

/-- The bits of the row in spec/opcode_table.json, letter for letter. -/
def Statement (i : Instr) : Prop :=
  match i with
  | .begin => requestRow 0x0 opMask (encode i)
  | .setRotation _ => requestRow 0x100000000000000000000 opMask (encode i)
  | .setAddrWindow _ _ _ _ => requestRow 0x200000000000000000000 opMask (encode i)
  | .drawPixel _ _ _ => requestRow 0x300000000000000000000 opMask (encode i)
  | .fillRect _ _ _ _ _ => requestRow 0x400000000000000000000 opMask (encode i)
  | .fillScreen _ => requestRow 0x500000000000000000000 opMask (encode i)
  | .drawFastHLine _ _ _ _ => requestRow 0x600000000000000000000 opMask (encode i)
  | .drawFastVLine _ _ _ _ => requestRow 0x700000000000000000000 opMask (encode i)
  | .color565 _ _ _ => requestRow 0x800000000000000000000 opMask (encode i)
  | .reserved9 => requestRow 0x900000000000000000000 opMask (encode i)
  | .reserved10 => requestRow 0xA00000000000000000000 opMask (encode i)
  | .reserved11 => requestRow 0xB00000000000000000000 opMask (encode i)
  | .reserved12 => requestRow 0xC00000000000000000000 opMask (encode i)
  | .reserved13 => requestRow 0xD00000000000000000000 opMask (encode i)
  | .reserved14 => requestRow 0xE00000000000000000000 opMask (encode i)
  | .reserved15 => requestRow 0xF00000000000000000000 opMask (encode i)
  | .wSwreset => symbolRow 0x001 0x1FF (encode i)
  | .wSetextc => symbolRow 0x0B9 0x1FF (encode i)
  | .wSlpout => symbolRow 0x011 0x1FF (encode i)
  | .wDispon => symbolRow 0x029 0x1FF (encode i)
  | .wCaset => symbolRow 0x02A 0x1FF (encode i)
  | .wPaset => symbolRow 0x02B 0x1FF (encode i)
  | .wRamwr => symbolRow 0x02C 0x1FF (encode i)
  | .wMadctl => symbolRow 0x036 0x1FF (encode i)
  | .wOther _ => symbolRow 0x000 0x100 (encode i)
  | .wData _ => symbolRow 0x100 0x100 (encode i)

theorem opMask_bit : ∀ i < 84, opMask.getLsbD i = decide (80 ≤ i) := by decide

/-- Masking with the operation-code mask leaves the operation code. -/
theorem assemble_and_opMask (op : BitVec 4) (a0 a1 a2 a3 color : Word) :
    assemble op a0 a1 a2 a3 color &&& opMask = assemble op 0 0 0 0 0 := by
  apply BitVec.eq_of_getLsbD_eq
  intro i hi
  rw [BitVec.getLsbD_and, opMask_bit i hi]
  by_cases h : 80 ≤ i
  · simp [h, assemble_bit_op]
  · rw [assemble_bit op 0 0 0 0 0]
    simp [h]

theorem requestRow_assemble {op : BitVec 4} {matchBits : Req} (a0 a1 a2 a3 color : Word)
    (h : assemble op 0 0 0 0 0 = matchBits) : requestRow matchBits opMask (.request (assemble op a0 a1 a2 a3 color)) :=
  (assemble_and_opMask op a0 a1 a2 a3 color).trans h

theorem commandSymbol_and_dc (b : Byte) : commandSymbol b &&& 0x100#9 = 0x000#9 := by
  revert b
  decide

theorem dataSymbol_and_dc (b : Byte) : dataSymbol b &&& 0x100#9 = 0x100#9 := by
  revert b
  decide

theorem begin : Statement .begin := requestRow_assemble _ _ _ _ _ (by decide)
theorem setRotation (m : Word) : Statement (.setRotation m) := requestRow_assemble _ _ _ _ _ (by decide)
theorem setAddrWindow (x0 y0 x1 y1 : Word) : Statement (.setAddrWindow x0 y0 x1 y1) := requestRow_assemble _ _ _ _ _ (by decide)
theorem drawPixel (x y color : Word) : Statement (.drawPixel x y color) := requestRow_assemble _ _ _ _ _ (by decide)
theorem fillRect (x y w h color : Word) : Statement (.fillRect x y w h color) := requestRow_assemble _ _ _ _ _ (by decide)
theorem fillScreen (color : Word) : Statement (.fillScreen color) := requestRow_assemble _ _ _ _ _ (by decide)
theorem drawFastHLine (x y length color : Word) : Statement (.drawFastHLine x y length color) := requestRow_assemble _ _ _ _ _ (by decide)
theorem drawFastVLine (x y length color : Word) : Statement (.drawFastVLine x y length color) := requestRow_assemble _ _ _ _ _ (by decide)
theorem color565 (r g b : Byte) : Statement (.color565 r g b) := requestRow_assemble _ _ _ _ _ (by decide)
theorem reserved9 : Statement .reserved9 := requestRow_assemble _ _ _ _ _ (by decide)
theorem reserved10 : Statement .reserved10 := requestRow_assemble _ _ _ _ _ (by decide)
theorem reserved11 : Statement .reserved11 := requestRow_assemble _ _ _ _ _ (by decide)
theorem reserved12 : Statement .reserved12 := requestRow_assemble _ _ _ _ _ (by decide)
theorem reserved13 : Statement .reserved13 := requestRow_assemble _ _ _ _ _ (by decide)
theorem reserved14 : Statement .reserved14 := requestRow_assemble _ _ _ _ _ (by decide)
theorem reserved15 : Statement .reserved15 := requestRow_assemble _ _ _ _ _ (by decide)
theorem wSwreset : Statement .wSwreset := by show commandSymbol _ &&& _ = _; decide
theorem wSetextc : Statement .wSetextc := by show commandSymbol _ &&& _ = _; decide
theorem wSlpout : Statement .wSlpout := by show commandSymbol _ &&& _ = _; decide
theorem wDispon : Statement .wDispon := by show commandSymbol _ &&& _ = _; decide
theorem wCaset : Statement .wCaset := by show commandSymbol _ &&& _ = _; decide
theorem wPaset : Statement .wPaset := by show commandSymbol _ &&& _ = _; decide
theorem wRamwr : Statement .wRamwr := by show commandSymbol _ &&& _ = _; decide
theorem wMadctl : Statement .wMadctl := by show commandSymbol _ &&& _ = _; decide
theorem wOther (b : Byte) : Statement (.wOther b) := commandSymbol_and_dc b
theorem wData (b : Byte) : Statement (.wData b) := dataSymbol_and_dc b

end Sys2Proof.Laws.RowBits
end

