-- ==== Sys2Proof/Laws/Window.lean ====
section
/-! SUPPORT. What the panel half makes of the controller half's two micro-sequences: a window, and a colour word. -/

namespace Sys2Proof.Machine

/-- The two bytes of a word, joined in the order they are sent, are the word (20_memory.md R61, R62). -/
theorem joinBytes_hiByte_loByte (v : Word) : joinBytes (hiByte v) (loByte v) = v := by
  apply BitVec.eq_of_getLsbD_eq
  intro i hi
  rw [joinBytes, BitVec.getLsbD_append]
  simp only [hiByte, loByte, BitVec.getLsbD_extractLsb']
  split
  · simp [*]
  · simp [show i - 8 < 8 by omega, show 8 + (i - 8) = i by omega]

/-- The panel half when both pairs of a window have arrived and RAMWR has not. -/
def Panel.declared (p : Params) (a b c d : Word) (q : Panel) : Panel :=
  { q.dropHalfPixel p with
      pidx := 0, pbuf := [], pixhi := none, sc := some a, ec := some c, sp := some b, ep := some d, rxmode := .pPaset }

/-- A whole window delivered: both pairs declared, then `STREAM` entered (41_addressing.md R141, R147 to R151). -/
theorem afterEvents_addrWindow {p : Params} (hp : p.Ok) (q : Panel) (a b c d : Int) :
    q.afterEvents p (addrWindow p a b c d) = (q.declared p (lo16 a) (lo16 b) (lo16 c) (lo16 d)).openStream p := by
  have hc := command_cases hp
  simp only [addrWindow, coordinateBytes, List.cons_append, List.nil_append, afterEvents_cons, afterEvents_nil, Panel.receive]
  simp only [(hc _).1, (hc _).2.1, (hc _).2.2.1]
  generalize lo16 a = a, lo16 b = b, lo16 c = c, lo16 d = d
  simp [Panel.dataByte, Panel.takeByte, Panel.caset, Panel.casetByte, Panel.paset, Panel.pasetByte, Panel.startCommand, Panel.ramwr,
    joinBytes_hiByte_loByte, Panel.declared]
  simp [dropHalfPixel_none]

/-- A colour word delivered at a pixel boundary of `STREAM` is one pixel (41_addressing.md R142, R152). -/
theorem afterEvents_pushColor {p : Params} {q : Panel} (hm : q.rxmode = .stream) (hx : q.pixhi = none) (v : Word) :
    q.afterEvents p (pushColor v) = Panel.pixel p v { q with pidx := q.pidx + 2 } := by
  have h1 : q.receive p (.data (hiByte v)) = { q with pixhi := some (hiByte v), pidx := q.pidx + 1 } := by
    simp [Panel.receive, Panel.dataByte, Panel.takeByte, hm, Panel.streamByte, hx]
  have hq : ({ q with pixhi := none, pidx := q.pidx + 2 } : Panel) = { q with pidx := q.pidx + 2 } := by cases q; simp_all
  have h2 : ({ q with pixhi := some (hiByte v), pidx := q.pidx + 1 } : Panel).receive p (.data (loByte v)) =
      Panel.pixel p (joinBytes (hiByte v) (loByte v)) { q with pixhi := none, pidx := q.pidx + 2 } := by
    simp only [Panel.receive, Panel.dataByte, Panel.takeByte, hm, Panel.streamByte, pixel_pidx]
  simp only [pushColor, afterEvents_cons, afterEvents_nil, h1, h2, joinBytes_hiByte_loByte, hq]

/-- Entering `STREAM` writes no cell. -/
theorem openStream_gram (p : Params) (q : Panel) : (q.openStream p).gram = q.gram := by
  unfold Panel.openStream
  repeat' split
  all_goals rfl

/-- RAMWR enters `STREAM`, with a good window or with a fault. -/
theorem openStream_rxmode (p : Params) (q : Panel) : (q.openStream p).rxmode = .stream := by
  unfold Panel.openStream
  repeat' split
  all_goals rfl

end Sys2Proof.Machine
end

