-- ==== Sys2Proof/Tests/Slice0.lean ====
section
/-! SUPPORT. Tests: every row's code word written out from spec/30_encoding.md, ill-formed terms and bits refused, one-step vectors
of spec/95_test_vectors.md, and for every statement with hypotheses a witness that meets them. -/

namespace Sys2Proof.Tests

set_option Elab.async false

open Sys2Proof.Machine

/-! ### Decoding (30_encoding.md R90, R92, R94, R95; the command bytes are G1's, log 2) -/

theorem test_decode_begin : decode (.request 0x0_0000_0000_0000_0000_0000) = .begin := by decide
theorem test_decode_setRotation : decode (.request 0x1_FFFF_0000_0000_0000_0000) = .setRotation 65535 := by decide
theorem test_decode_setAddrWindow :
    decode (.request 0x2_0005_0001_0003_0002_0000) = .setAddrWindow 5 1 3 2 := by decide
theorem test_decode_drawPixel : decode (.request 0x3_FFFF_0014_0000_0000_07E0) = .drawPixel (-1) 20 0x07E0 := by decide
theorem test_decode_fillRect : decode (.request 0x4_013E_0000_000A_0005_F800) = .fillRect 318 0 10 5 0xF800 := by decide
/-- V313: the fields that the operation ignores hold junk. -/
theorem test_decode_fillScreen : decode (.request 0x5_1234_5678_9ABC_DEF0_CCCC) = .fillScreen 0xCCCC := by decide
theorem test_decode_drawFastHLine :
    decode (.request 0x6_012C_0007_0032_0000_FFFF) = .drawFastHLine 300 7 50 0xFFFF := by decide
theorem test_decode_drawFastVLine :
    decode (.request 0x7_0005_01DE_0009_0000_0000) = .drawFastVLine 5 478 9 0 := by decide
/-- V310: bits 15:8 of the channel fields hold junk. -/
theorem test_decode_color565 :
    decode (.request 0x8_FF12_AA34_5556_0000_0000) = .color565 0x12 0x34 0x56 := by decide
theorem test_decode_reserved9 : decode (.request 0x9_0000_0000_0000_0000_0000) = .reserved9 := by decide
theorem test_decode_reserved10 : decode (.request 0xA_0000_0000_0000_0000_0000) = .reserved10 := by decide
theorem test_decode_reserved11 : decode (.request 0xB_0000_0000_0000_0000_0000) = .reserved11 := by decide
theorem test_decode_reserved12 : decode (.request 0xC_0000_0000_0000_0000_0000) = .reserved12 := by decide
theorem test_decode_reserved13 : decode (.request 0xD_0000_0000_0000_0000_0000) = .reserved13 := by decide
theorem test_decode_reserved14 : decode (.request 0xE_0000_0000_0000_0000_0000) = .reserved14 := by decide
theorem test_decode_reserved15 : decode (.request 0xF_FFFF_FFFF_FFFF_FFFF_FFFF) = .reserved15 := by decide
theorem test_decode_wSwreset : decode (.symbol 0b0_0000_0001) = .wSwreset := by decide
theorem test_decode_wSetextc : decode (.symbol 0b0_1011_1001) = .wSetextc := by decide
theorem test_decode_wSlpout : decode (.symbol 0b0_0001_0001) = .wSlpout := by decide
theorem test_decode_wDispon : decode (.symbol 0b0_0010_1001) = .wDispon := by decide
theorem test_decode_wCaset : decode (.symbol 0b0_0010_1010) = .wCaset := by decide
theorem test_decode_wPaset : decode (.symbol 0b0_0010_1011) = .wPaset := by decide
theorem test_decode_wRamwr : decode (.symbol 0b0_0010_1100) = .wRamwr := by decide
theorem test_decode_wMadctl : decode (.symbol 0b0_0011_0110) = .wMadctl := by decide
theorem test_decode_wOther : decode (.symbol 0b0_1011_0001) = .wOther 0xB1 := by decide
/-- A data byte equal to a command byte is data. -/
theorem test_decode_wData : decode (.symbol 0b1_0010_1010) = .wData 0x2A := by decide

/-! ### Ill-formed terms and bits -/

theorem test_wellFormed_refuses_named_commands :
    ∀ b ∈ [0x01, 0xB9, 0x11, 0x29, 0x2A, 0x2B, 0x2C, 0x36], WellFormed (.wOther b) = false := by decide
theorem test_wellFormed_other : WellFormed (.wOther 0xB1) = true := by decide
theorem test_frame_refuses_width : frameBits 8 0x2A = .error .badWidth ∧ frameBits 24 0 = .error .badWidth := ⟨rfl, rfl⟩
theorem test_frame_refuses_stray_symbol_bit : frameBits 16 0x200 = .error .strayBits := rfl
theorem test_frame_refuses_stray_request_bit : frameBits 88 (2 ^ 84) = .error .strayBits := rfl
theorem test_decodeBytes_symbol : decodeBytes [0xF8, 0x01] = .ok (.wData 0xF8) := rfl
theorem test_decodeTableWord_request : decodeTableWord 88 0x4013E0000000A0005F800 = some (.fillRect 318 0 10 5 0xF800) := by
  decide
theorem test_encode_fillRect : encode (.fillRect 318 0 10 5 0xF800) = .request 0x4_013E_0000_000A_0005_F800 := by decide

/-! ### One step of each instruction (95_test_vectors.md) -/

/-- What a next state shows. -/
def seen {α : Type} (o : Host.Outcome State Fault Refusal) (f : State → α) : Option α :=
  match o with
  | .next s => some (f s)
  | .fault _ => none
  | .refused _ => none

/-- READY at rotation 0 and orientation 0, with `n` successful transmits to come (the head of 95_test_vectors.md). -/
def booted (n : Nat) : State :=
  { State.reset with
      life := .ready, panel := { Panel.reset with rxmode := .pOther, madctl := some 0xC0 }, answers := List.replicate n true }

/-- READY at rotation 1 and orientation 1. -/
def landscape (n : Nat) : State :=
  { booted n with
      rot := 1, width := 480, height := 320, panel := { Panel.reset with rxmode := .pMadctl, pidx := 1, madctl := some 0xA0 } }

/-- Orientation 2, the window (1,1)-(2,2) entered and three of its four pixels placed, half of the fourth held (V319). -/
def midStream : State :=
  { State.reset with
      panel := { Panel.reset with
        rxmode := .stream, madctl := some 0x00, sc := some 1, ec := some 2, sp := some 1, ep := some 2
        cc := some 2, cr := some 2, pcnt := some 1, pixhi := some 0xDD, pidx := 7 } }

/-- The parameters of test configuration T0 (V316): the defaults, with the stand-in table. -/
def T0 : Params := defaultsWith testInitTable

/-- The answers that are all successes but for the question number `n`. -/
def failsOnce (n : Nat) : Oracle := fun k => k != n

/-- V305, V316: the head and the tail of BEGIN's trace, and the panel half after it; one acquisition and 46 transmits. -/
theorem test_begin :
    (fun b : Block => ((b.life, b.trace.take 6, b.trace.drop (b.trace.length - 4)), b.responses, b.asked, b.panel.ori T0))
      (execFor T0 (failsOnce 47) .begin Block.reset) =
    ((.ready, [.cmd 0x01, .cmd 0xB9, .data 0xFF, .data 0x83, .data 0x57, .delay 300],
      [.cmd 0x11, .delay 150, .cmd 0x29, .delay 50]), [⟨.ok, 0⟩], 47, some 0) := by decide +kernel
/-- V316: the acquisition succeeds and transmit 3 fails. -/
theorem test_begin_cut :
    (fun b : Block => (b.life, b.trace, b.responses)) (execFor T0 (failsOnce 4) .begin Block.reset) =
    (.failed, [.cmd 0x01, .cmd 0xB9, .data 0xFF], [⟨.transmitFailure, 0⟩]) := by decide +kernel
/-- V316: BEGIN with the stand-in table T0 is 46 byte events. -/
theorem test_begin_T0 : byteCount (beginEvents T0) = 46 := by decide
/-- The recollected table G4 meets the constraints of 40_init.md R124. -/
theorem test_recollectedTable : TableLawful (defaultsWith recollectedInitTable) := by decide
/-- V315, m = 5. -/
theorem test_setRotation :
    seen (exec (.setRotation 5) (booted 2)) (fun s => (s.trace, s.rot, s.width, s.height, s.panel.ori params)) =
    some ([.cmd 0x36, .data 0xA0], 1, 480, 320, some 1) := by decide
/-- V315: the data byte's transmit fails. -/
theorem test_setRotation_cut :
    seen (exec (.setRotation 1) { booted 0 with answers := [true, false] })
      (fun s => (s.trace, s.rot, s.panel.ori params, s.responses)) =
    some ([.cmd 0x36], 0, none, [⟨.transmitFailure, 0⟩]) := by decide
/-- V314: an inverted window is sent and faults. -/
theorem test_setAddrWindow_inverted :
    seen (exec (.setAddrWindow 5 0 3 0) (booted 11)) (fun s => (s.trace, s.panel.pfault)) =
    some ([.cmd 0x2A, .data 0, .data 5, .data 0, .data 3, .cmd 0x2B, .data 0, .data 0, .data 0, .data 0, .cmd 0x2C], true) := by
  decide
/-- V314: the whole screen declared. -/
theorem test_setAddrWindow :
    seen (exec (.setAddrWindow 0 0 319 479) (booted 11)) (fun s => (s.panel.cc, s.panel.cr, s.panel.pcnt, s.panel.rxmode)) =
    some (some 0, some 0, some 153600, .stream) := by decide
/-- V311: an accepted pixel in landscape, with its cell (100,159). -/
theorem test_drawPixel :
    seen (exec (.drawPixel 320 100 1) (landscape 13)) (fun s => (s.trace.drop 1 |>.take 4, s.panel.gram, s.panel.cc)) =
    some ([.data 0x01, .data 0x40, .data 0x01, .data 0x41], [(159 * 320 + 100, 1)], some 321) := by decide
/-- V317: a rejected pixel transmits nothing, so it cannot fail. -/
theorem test_drawPixel_rejected :
    seen (exec (.drawPixel (-1) 0 1) { booted 0 with answers := [false] }) (fun s => (s.trace, s.responses, s.asked)) =
    some ([], [⟨.ok, 0⟩], 0) := by decide
/-- V312: a 3 x 2 rectangle, its cells (217…219, 378…379). -/
theorem test_fillRect :
    seen (exec (.fillRect 100 100 3 2 0xF81F) (booted 23)) (fun s => (s.panel.gram, s.panel.cc, s.panel.cr, s.panel.pcnt)) =
    some ([217, 218, 219].map (fun c => (378 * 320 + c, 0xF81F)) ++ [217, 218, 219].map (fun c => (379 * 320 + c, 0xF81F)),
      some 100, some 102, some 0) := by decide +kernel
/-- V303: the width is clamped, x1 = 319; event 14 fails as in V318. -/
theorem test_fillRect_cut :
    seen (exec (.fillRect 318 0 10 5 0xF800) { booted 0 with answers := List.replicate 14 true ++ [false] })
      (fun s => (s.trace.drop 3 |>.take 2, s.trace.length, s.panel.pixhi, s.panel.cc, s.panel.pcnt)) =
    some ([.data 0x01, .data 0x3F], 14, some 0xF8, some 319, some 9) := by decide +kernel
/-- V317: not READY. -/
theorem test_fillScreen_notReady : exec (.fillScreen 0) State.reset = .next { State.reset with responses := [⟨.notReady, 0⟩] } := rfl
/-- V304: the first eleven events at `ROT` = 1; event 11 fails. -/
theorem test_fillScreen_window :
    (emissionOf params (.fillScreen 0x001F) (landscape 0).toBlock).take 11 =
    [.cmd 0x2A, .data 0, .data 0, .data 0x01, .data 0xDF, .cmd 0x2B, .data 0, .data 0, .data 0x01, .data 0x3F, .cmd 0x2C] := rfl
/-- V313: negative x is not clipped to what remains. -/
theorem test_drawFastHLine_rejected :
    seen (exec (.drawFastHLine (-5) 0 10 1) (booted 0)) (fun s => (s.trace, s.responses)) = some ([], [⟨.ok, 0⟩]) := by decide
/-- V313: the length is clamped to 20, 51 byte events. -/
theorem test_drawFastHLine :
    seen (exec (.drawFastHLine 300 7 50 0xFFFF) (booted 60)) (fun s => (s.trace.length, s.panel.ec, s.panel.ep, s.asked)) =
    some (51, some 319, some 7, 51) := by decide +kernel
/-- V313: a vertical line runs along y. -/
theorem test_drawFastVLine :
    seen (exec (.drawFastVLine 5 478 9 0) (booted 15)) (fun s => (s.trace.length, s.panel.ec, s.panel.ep, s.panel.gram)) =
    some (15, some 5, some 479, [(314, 0), (320 + 314, 0)]) := by decide +kernel
/-- V310: mixed channels, and no liveness check. -/
theorem test_color565 : exec (.color565 0x12 0x34 0x56) State.reset = .next { State.reset with responses := [⟨.ok, 0x11AA⟩] } := rfl
/-- V310: truncation, no rounding. -/
theorem test_color565_truncates : packColor565 7 3 7 = 0 ∧ packColor565 8 4 8 = 0x0821 := by decide
/-- V317: a reserved code in every `LIFE`; the response word. -/
theorem test_reserved9 : exec .reserved9 State.reset = .next { State.reset with responses := [⟨.illegalOp, 0⟩] } := rfl
theorem test_reserved15_word : (Response.mk .illegalOp 0).word = 0x50000 := by decide
/-- V319: `*01`. -/
theorem test_wSwreset :
    seen (exec .wSwreset midStream) (fun s => (s.panel.sc, s.panel.cc, s.panel.pcnt, s.panel.madctl, s.panel.rxmode)) =
    some (none, none, none, none, .pOther) := by decide
/-- V319: another command ends the stream; a half pixel's cell, here (2,2), is lost (41_addressing.md R155). -/
theorem test_wSlpout :
    seen (exec .wSlpout { midStream with panel := { midStream.panel with gram := [(642, 7), (643, 8)] } })
      (fun s => (s.panel.rxmode, s.panel.pixhi, s.panel.gram)) = some (.pOther, none, [(643, 8)]) := by decide
theorem test_wSetextc : seen (exec .wSetextc midStream) (fun s => (s.panel.rxmode, s.panel.sc)) = some (.pOther, some 1) := by decide
theorem test_wDispon : seen (exec .wDispon midStream) (fun s => (s.panel.pidx, s.panel.pixhi)) = some (0, none) := by decide
/-- The panel half's step writes neither the trace nor the line. -/
theorem test_wOther : seen (exec (.wOther 0xB1) midStream) (fun s => (s.trace, s.dc, s.panel.rxmode)) = some ([], none, .pOther) := by
  decide
/-- V318, event 3: CASET leaves the rows. -/
theorem test_wCaset :
    seen (exec .wCaset midStream) (fun s => (s.panel.sc, s.panel.sp, s.panel.rxmode)) = some (none, some 1, .pCaset) := by decide
/-- V319: PASET leaves the columns. -/
theorem test_wPaset :
    seen (exec .wPaset midStream) (fun s => (s.panel.sc, s.panel.sp, s.panel.rxmode)) = some (some 1, none, .pPaset) := by decide
/-- V319: RAMWR re-enters the window at its start. -/
theorem test_wRamwr :
    seen (exec .wRamwr midStream) (fun s => (s.panel.cc, s.panel.cr, s.panel.pcnt, s.panel.pfault)) =
    some (some 1, some 1, some 4, false) := by decide
/-- V319: `*2C` with no window faults. -/
theorem test_wRamwr_unspecified : seen (exec .wRamwr State.reset) (fun s => s.panel.pfault) = some true := by decide
theorem test_wMadctl : seen (exec .wMadctl midStream) (fun s => (s.panel.madctl, s.panel.pidx)) = some (none, 0) := by decide
/-- V319: the fourth pixel lands at (2,2); after it `CC` = 1, `CR` = 3, `PCNT` = 0. -/
theorem test_wData :
    seen (exec (.wData 0xDD) midStream) (fun s => (s.panel.gram, s.panel.cc, s.panel.cr, s.panel.pcnt, s.panel.pfault)) =
    some ([(2 * 320 + 2, 0xDDDD)], some 1, some 3, some 0, false) := by decide
/-- `PIDX` is the count of data bytes since the last command byte, in `STREAM` too (10_state.md R27). -/
theorem test_wData_counts : seen (exec (.wData 0xDD) midStream) (fun s => s.panel.pidx) = some 8 := by decide
/-- V319: from reset a data byte faults. -/
theorem test_wData_idle : seen (exec (.wData 0) State.reset) (fun s => s.panel.pfault) = some true := by decide

/-- V320: the default transform. -/
theorem test_xform :
    params.xform 0 0 0 = (319, 479) ∧ params.xform 0 10 20 = (309, 459) ∧ params.xform 1 479 319 = (319, 0) ∧
    params.xform 1 470 310 = (310, 9) ∧ params.xform 2 319 479 = (319, 479) ∧ params.xform 3 479 319 = (0, 479) ∧
    params.xform 3 100 50 = (269, 100) := by decide

/-- `withFetchWord` makes the next step run the word (log 6, 7). -/
theorem test_withFetchWord :
    step (State.reset.withFetchWord 88 0x9_0000_0000_0000_0000_0000) = exec .reserved9 State.reset := by rfl
theorem test_withFetchWord_symbol : step (State.reset.withFetchWord 16 0x02A) = exec .wCaset State.reset := by rfl
/-- The panel half has taken the byte when the step that emits it ends (10_state.md R26, 20_memory.md R75). -/
theorem test_oneEvent :
    seen (Host.Core.run Sys2Proof.core 2 { booted 1 with program := [.byEvents 0x2_0005_0001_0003_0002_0000] })
      (fun s => (s.bench, s.trace, s.panel.rxmode, s.seq)) =
    some (none, [.cmd 0x2A], .pCaset, .busy 0x2_0005_0001_0003_0002_0000 1) := by decide +kernel

/-! ### Witnesses: for each statement, states and operands that meet its hypotheses together -/

/-- Parameters that meet `Params.Ok`, with a plainer transform than those in force: identity and transposition. -/
def plain : Params := { T0 with xform := fun o c r => if o.val % 2 = 0 then (c, r) else (r, c) }

theorem plain_ok : plain.Ok where
  commands_distinct := by decide
  madctl_distinct := by decide
  xform_in := by
    intro o c r h
    by_cases ho : o.val % 2 = 0 <;> simp_all [plain, InRange, ext]
  xform_inj := by
    intro o c r c' r' h h' he
    by_cases ho : o.val % 2 = 0 <;> simp_all [plain]
  xform_onto := by
    intro o px py hx hy
    by_cases ho : o.val % 2 = 0
    · exact ⟨px, py, by simp_all [plain, InRange, ext]⟩
    · exact ⟨py, px, by simp_all [plain, InRange, ext]⟩
  gamma_entry := by decide
  madctl_entry := by decide
  init_quiet := by decide

/-- As `plain`, with the stricter reading of a window's declaration. -/
def strict : Params := { plain with strictWindow := true }

theorem strict_ok : strict.Ok :=
  ⟨plain_ok.commands_distinct, plain_ok.madctl_distinct, plain_ok.xform_in, plain_ok.xform_inj, plain_ok.xform_onto,
    plain_ok.gamma_entry, plain_ok.madctl_entry, plain_ok.init_quiet⟩

theorem succeeds_replicate (n : Nat) (s : State) (h : s.answers = List.replicate (s.asked + n) true) : s.Succeeds n := by
  intro k hk
  simp [State.answerAt, State.oracle, h, hk]

theorem failsAt_replicate (n : Nat) (s : State) (h : s.answers = List.replicate (s.asked + n) true ++ [false]) : s.FailsAt n := by
  constructor
  · intro k hk
    simp [State.answerAt, State.oracle, h, List.getElem?_append, hk]
  · simp [State.answerAt, State.oracle, h]

/-- READY, and the transmit of byte number `n` is the first to fail. -/
def failing (n : Nat) : State := { booted 0 with answers := List.replicate n true ++ [false] }

theorem failing_failsAt (n : Nat) : (failing n).FailsAt n := failsAt_replicate n _ (by simp [failing, booted, State.reset, Block.reset])

theorem booted_succeeds (n : Nat) : (booted n).Succeeds n := succeeds_replicate n _ (by simp [booted, State.reset, Block.reset])

theorem booted_panelState (n : Nat) : (booted n).PanelStateOk := ⟨fun _ => ⟨rfl, rfl⟩, fun h => absurd h (by decide : ¬ 0 % 2 = 1)⟩

theorem booted_wf (n : Nat) : (booted n).panel.Wf := by
  constructor <;> simp [booted, Panel.reset, memEmpty_wf]

theorem midStream_wf : midStream.panel.Wf := by
  constructor <;> simp [midStream, Panel.reset, memEmpty_wf, Panel.StreamOk, windowArea]

theorem booted_inv (n : Nat) : (booted n).Inv params := 
  ⟨booted_panelState n, booted_wf n, trivial, by simp [booted, State.reset, Block.reset]⟩

/-- FAILED, with nothing presented. -/
def broken : State := { booted 0 with life := .failed }

theorem broken_inv : broken.Inv params :=
  ⟨booted_panelState 0, booted_wf 0, trivial, by simp [broken, booted, State.reset, Block.reset]⟩

theorem witness_symbolsDecode : plain.Ok ∧ (0xB1 : Byte) ∉ plain.commandBytes := ⟨plain_ok, by decide⟩
theorem witness_decodeOfEncode : plain.Ok ∧ WellFormedFor plain (.wOther 0x00) = true := ⟨plain_ok, by decide⟩
theorem witness_stepRuns :
    ∃ s : State, s.bench = none ∧ s.seq = .idle ∧ s.program = .present 0x9_0000_0000_0000_0000_0000 :: [] :=
  ⟨{ State.reset with program := [_] }, rfl, rfl, rfl⟩
theorem witness_stepRunsSymbol : ∃ s : State, s.bench = some 0x02A := ⟨{ State.reset with bench := _ }, rfl⟩
theorem witness_stepWaits : State.reset.bench = none ∧ State.reset.seq = .idle ∧ State.reset.program = [] := ⟨rfl, rfl, rfl⟩
theorem witness_stepPowersUp : ∃ s : State, s.bench = none ∧ s.seq = .idle ∧ s.program = .powerUp :: [] :=
  ⟨{ State.reset with program := [_] }, rfl, rfl, rfl⟩

/-- SET_ROTATION(1) in progress at event `i`, with one answer of the transport to come. -/
def rotating (i : Nat) (a : Bool) : State :=
  { booted 0 with seq := .busy 0x1_0001_0000_0000_0000_0000 i, answers := [a] }

theorem rotating_events (i : Nat) (a : Bool) :
    emissionOf params (decodeRequest 0x1_0001_0000_0000_0000_0000) (rotating i a).toBlock = [.cmd 0x36, .data 0xA0] := rfl

/-- The first event, which is not the last, and the last one. -/
theorem witness_stepGoesOn :
    (rotating 0 true).bench = none ∧ (rotating 0 true).seq = .busy 0x1_0001_0000_0000_0000_0000 0 ∧
    [Event.cmd 0x36, .data 0xA0][0]? = some (.cmd 0x36) ∧ (rotating 0 true).answerAt 0 = true ∧ 0 + 1 < 2 ∧
    [Event.cmd 0x36, .data 0xA0][1]? = some (.data 0xA0) ∧ (rotating 1 true).answerAt 0 = true ∧ 1 + 1 = 2 :=
  ⟨rfl, rfl, rfl, rfl, by decide, rfl, rfl, rfl⟩
/-- BEGIN's sixth event is a delay. -/
theorem witness_stepDelay : (emissionOf params (decodeRequest 0) { booted 0 with seq := .busy 0 5 })[5]? = some (.delay 300) := rfl
theorem witness_stepCut :
    (rotating 0 false).bench = none ∧ (rotating 0 false).answerAt 0 = false ∧ (rotating 1 false).answerAt 0 = false :=
  ⟨rfl, rfl, rfl⟩
theorem witness_byEvents : ∃ s : State, s.bench = none ∧ s.seq = .idle ∧ s.program = .byEvents 0 :: [.powerUp] :=
  ⟨{ State.reset with program := _ }, rfl, rfl, rfl⟩
theorem witness_panelState : (booted 3).PanelStateOk ∧ step (booted 3) = .next (booted 3) := ⟨booted_panelState 3, rfl⟩
theorem witness_invariant : (booted 3).Inv params ∧ step (booted 3) = .next (booted 3) := ⟨booted_inv 3, rfl⟩
theorem witness_invariantFor : strict.Ok ∧ Block.reset.Inv strict :=
  ⟨strict_ok, ⟨fun _ => ⟨rfl, rfl⟩, fun h => absurd h (by decide)⟩,
    by constructor <;> simp [Block.reset, Panel.reset, memEmpty_wf], trivial, by simp [Block.reset]⟩
/-- A byte has been delivered. -/
theorem witness_replayed :
    ∃ s t : State, s.Replayed params ∧ s.Replayed plain ∧ plain.Ok ∧ s.trace ≠ [] ∧ step s = .next t :=
  ⟨{ State.reset with trace := [.data 0], panel := Panel.reset.receive params (.data 0) }, _, ⟨rfl, rfl⟩, ⟨rfl, rfl⟩, plain_ok,
    by simp, rfl⟩
theorem witness_pfault : ∃ s t : State, step s = .next t ∧ s.panel.pfault = true :=
  ⟨{ State.reset with panel := { Panel.reset with pfault := true }, program := [.powerUp] }, _, rfl, rfl⟩
theorem witness_failed : broken.bench = none ∧ broken.Inv params ∧ step broken = .next broken ∧ broken.life = .failed :=
  ⟨rfl, broken_inv, rfl, rfl⟩
theorem witness_controllerFrame :
    ∃ t, exec .reserved9 State.reset = .next t ∧ (∀ m, Instr.reserved9 ≠ .setRotation m) ∧ Instr.reserved9 ≠ .begin ∧
      Instr.reserved9.transmits = false := ⟨_, rfl, by simp, by simp, rfl⟩
theorem witness_symbolFrame : Instr.wData 0xF8 = decode (.symbol 0x1F8) := by decide
theorem witness_answeredValue : ∀ x y z, decodeRequest 0 ≠ .color565 x y z := by
  intro x y z
  rw [show decodeRequest 0 = .begin by decide]
  simp
theorem witness_traceGrows : ∃ t, step State.reset = .next t := ⟨_, rfl⟩
theorem witness_notReady : (Instr.fillScreen 0).transmits = true ∧ State.reset.life ≠ .ready := ⟨rfl, by decide⟩
theorem witness_cut :
    (Instr.fillRect 0 0 2 2 0xF800).transmits = true ∧ (failing 18).life = .ready ∧
    18 < byteCount (emissionOf params (.fillRect 0 0 2 2 0xF800) (failing 18).toBlock) ∧ (failing 18).FailsAt 18 :=
  ⟨rfl, rfl, by decide, failing_failsAt 18⟩
/-- BEGIN is at least its seven fixed bytes, whatever the table. -/
theorem begin_seven (k : Nat) (h : k < 7) : k < byteCount (beginEvents params) := by
  simp only [beginEvents, byteCount_append]
  rw [show byteCount ([.cmd params.cSwreset, .cmd params.cSetextc] : List Event) = 2 from rfl,
    show byteCount (unlockBytes.map Event.data) = 3 from rfl,
    show byteCount [.cmd params.cSlpout, .delay settleSlpout, .cmd params.cDispon, .delay settleDispon] = 2 from rfl]
  omega

theorem witness_cutBegin :
    ∃ s u : State, s.life = .unbegun ∧ s.answerAt 0 = true ∧ u = { s with asked := s.asked + 1 } ∧
      6 < byteCount (beginEvents params) ∧ u.FailsAt 6 :=
  ⟨{ failing 7 with life := .unbegun }, _, rfl, rfl, rfl, begin_seven 6 (by decide), failsAt_replicate 6 _ rfl⟩
theorem witness_cutRebegin : (failing 0).life = .ready ∧ 0 < byteCount (beginEvents params) ∧ (failing 0).FailsAt 0 :=
  ⟨rfl, begin_seven 0 (by decide), failing_failsAt 0⟩
theorem witness_error :
    ∃ t a, exec (decode (.request 0x9_0000_0000_0000_0000_0000)) State.reset = .next t ∧
      t.responses = State.reset.responses ++ [a] ∧ a.status ≠ .ok := ⟨_, ⟨.illegalOp, 0⟩, rfl, rfl, by decide⟩
theorem witness_beginRefused : broken.life = .failed := rfl
theorem witness_beginNoTransport :
    ∃ s : State, s.life = .unbegun ∧ s.answerAt 0 = false := ⟨{ State.reset with answers := [false] }, rfl, rfl⟩
theorem witness_begin :
    ∃ s u : State, (s.life = .unbegun ∧ s.answerAt 0 = true ∧ u = { s with asked := s.asked + 1 }) ∧
      u.Succeeds (byteCount (beginEvents params)) :=
  ⟨{ State.reset with answers := List.replicate (1 + byteCount (beginEvents params)) true }, _,
    ⟨rfl, by rw [Nat.add_comm]; rfl, rfl⟩, succeeds_replicate _ _ rfl⟩
theorem witness_rebegin :
    (booted (byteCount (beginEvents params))).life = .ready ∧
    (booted (byteCount (beginEvents params))).Succeeds (byteCount (beginEvents params)) := ⟨rfl, booted_succeeds _⟩
theorem witness_beginCut : ∃ k < byteCount (beginEvents params), (failing k).life = .ready ∧ (failing k).FailsAt k :=
  ⟨6, begin_seven 6 (by decide), rfl, failing_failsAt 6⟩
theorem witness_boot : plain.Ok ∧ midStream.panel.Wf ∧ midStream.panel.pfault = false := ⟨plain_ok, midStream_wf, rfl⟩
theorem witness_rotationNotReady : State.reset.life ≠ .ready ∧ (3 : Rot).val = (65535 : Word).toNat % 4 := by decide
theorem witness_rotation : (booted 2).life = .ready ∧ (booted 2).Succeeds 2 := ⟨rfl, booted_succeeds 2⟩
theorem witness_rotationCut :
    (failing 0).life = .ready ∧ (failing 0).FailsAt 0 ∧ (failing 1).life = .ready ∧ (failing 1).FailsAt 1 :=
  ⟨rfl, failing_failsAt 0, rfl, failing_failsAt 1⟩
theorem witness_rotationMoves :
    ∃ t, (booted 2).life = .ready ∧ (booted 2).panel.Wf ∧ (booted 2).panel.pixhi = none ∧ (booted 2).Succeeds 2 ∧
      exec (.setRotation 1) (booted 2) = .next t ∧ t.Safe := ⟨_, rfl, booted_wf 2, rfl, booted_succeeds 2, rfl, by decide⟩
theorem witness_writesNoCell :
    ∃ t, (decodeRequest 0x1_0001_0000_0000_0000_0000).draws = false ∧ decodeRequest 0x1_0001_0000_0000_0000_0000 ≠ .begin ∧
      exec (decodeRequest 0x1_0001_0000_0000_0000_0000) { midStream with life := .ready, answers := [true, true] } = .next t ∧
      t.Safe := ⟨_, by decide, by decide, rfl, by decide⟩
theorem witness_agreementAfterBegin :
    ∃ s t : State, s.panel.Wf ∧ s.panel.pfault = false ∧ s.rot = 0 ∧ exec .begin s = .next t ∧
      t.responses = s.responses ++ [⟨.ok, 0⟩] := by
  refine ⟨booted (byteCount (beginEvents params)), _, booted_wf _, rfl, rfl, rfl, ?_⟩
  show (perform params _ (beginEvents params) (setLife .ready) (setLife .failed) _).responses = _
  rw [perform_succeeds (booted_succeeds _)]
  rfl
theorem witness_agreementAfterRotation :
    ∃ t, exec (.setRotation 1) (booted 2) = .next t ∧ t.responses = (booted 2).responses ++ [⟨.ok, 0⟩] := ⟨_, rfl, rfl⟩
theorem witness_agreementKept :
    ∃ t, decodeRequest 0x3_0000_0000_0000_0000_0001 ≠ .begin ∧
      (∀ m, decodeRequest 0x3_0000_0000_0000_0000_0001 ≠ .setRotation m) ∧
      exec (decodeRequest 0x3_0000_0000_0000_0000_0001) (failing 4) = .next t := by
  rw [show decodeRequest 0x3_0000_0000_0000_0000_0001 = .drawPixel 0 0 1 by decide]
  exact ⟨_, by simp, by simp, rfl⟩
/-- A negative coordinate wraps, the largest does not. -/
theorem witness_addrWindow :
    ((65535 : Word).toNat : Int) = (-1) % 65536 ∧ ((0 : Word).toNat : Int) = 0 % 65536 ∧
    ((65535 : Word).toNat : Int) = 65535 % 65536 ∧ ((0 : Word).toNat : Int) = 65536 % 65536 := by decide
theorem witness_setAddrWindow :
    State.reset.life ≠ .ready ∧ (booted 11).life = .ready ∧ (booted 11).Succeeds 11 ∧ (failing 10).life = .ready ∧
    (failing 10).FailsAt 10 := ⟨by decide, rfl, booted_succeeds 11, rfl, failing_failsAt 10⟩
theorem witness_window :
    plain.Ok ∧ midStream.panel.Wf ∧ midStream.panel.pfault = false ∧ (0 : Int) ≤ 0 ∧ (0 : Int) ≤ 65535 ∧ (65535 : Int) ≤ 65535 ∧
    plain.strictWindow = false := ⟨plain_ok, midStream_wf, rfl, by decide, by decide, by decide, rfl⟩
theorem witness_windowStrict :
    strict.Ok ∧ ∃ o, (booted 0).panel.ori strict = some o ∧ (319 : Int) < (ext o).1 ∧ (479 : Int) < (ext o).2 :=
  ⟨strict_ok, 0, by decide, by decide, by decide⟩
/-- The window (318,0)-(319,1) just entered: the fill's four words end at its last position. -/
theorem witness_fill :
    ∃ q : Panel, plain.Ok ∧ q.rxmode = .stream ∧ q.pfault = false ∧ q.pixhi = none ∧ q.ori plain = some 0 ∧
      q.sc = some 318 ∧ q.ec = some 319 ∧ q.sp = some 0 ∧ q.ep = some 1 ∧ q.cc = some 318 ∧ q.cr = some 0 ∧
      q.pcnt = some (windowArea 318 319 0 1) ∧ [1, 2, 3, (4 : Word)].length ≤ windowArea 318 319 0 1 ∧
      ∀ k < 4, InRange 0 (318 + k % (319 - 318 + 1)) (0 + k / (319 - 318 + 1)) :=
  ⟨{ (booted 0).panel with
      rxmode := .stream, sc := some 318, ec := some 319, sp := some 0, ep := some 1, cc := some 318, cr := some 0, pcnt := some 4 },
    plain_ok, rfl, rfl, rfl, by decide, rfl, rfl, rfl, rfl, rfl, rfl, rfl, by decide, by decide⟩
/-- One panel half holds a window and the other none; both agree on what drawing depends on. -/
theorem witness_forgets :
    ∃ q q' : Panel, plain.Ok ∧ q.Wf ∧ q'.Wf ∧ q ≠ q' ∧ q.madctl = q'.madctl ∧ q.pfault = q'.pfault ∧
      (q.dropHalfPixel plain).gram = (q'.dropHalfPixel plain).gram ∧
      (q.afterEvents plain (addrWindow plain 0 0 1 1 ++ [0xF800].flatMap pushColor)).pfault = false :=
  ⟨midStream.panel, { Panel.reset with madctl := some 0x00 }, plain_ok, midStream_wf,
    by constructor <;> simp [Panel.reset, memEmpty_wf], by decide, rfl, rfl, by decide, by decide⟩
theorem witness_ramwrUnspecified :
    plain.Ok ∧ (booted 0).panel.Wf ∧ (booted 0).panel.pfault = false ∧ (booted 0).panel.sc = none :=
  ⟨plain_ok, booted_wf 0, rfl, rfl⟩
theorem witness_ramwr :
    ∃ q : Panel, strict.Ok ∧ q.Wf ∧ q.pfault = false ∧ q.sc = some 318 ∧ q.ec = some 321 ∧ q.sp = some 0 ∧ q.ep = some 0 :=
  ⟨{ (booted 0).panel with sc := some 318, ec := some 321, sp := some 0, ep := some 0 }, strict_ok,
    by constructor <;> simp [booted, Panel.reset, memEmpty_wf], rfl, rfl, rfl, rfl, rfl⟩
theorem witness_ramwrInverted :
    ∃ q : Panel, q.Wf ∧ q.pfault = false ∧ q.sc = some 5 ∧ q.ec = some 3 ∧ q.sp = some 0 ∧ q.ep = some 0 ∧
      (3 : Word).toNat < (5 : Word).toNat :=
  ⟨{ (booted 0).panel with sc := some 5, ec := some 3, sp := some 0, ep := some 0 },
    by constructor <;> simp [booted, Panel.reset, memEmpty_wf], rfl, rfl, rfl, rfl, rfl, by decide⟩
theorem witness_dangling :
    plain.Ok ∧ midStream.panel.Wf ∧ midStream.panel.pfault = false ∧ (0x2A : Byte) ≠ plain.cSwreset ∧
    midStream.panel.rxmode = .stream ∧ midStream.panel.pixhi = some 0xDD ∧ midStream.panel.pcnt = some (0 + 1) ∧
    midStream.panel.cc = some 2 ∧ midStream.panel.cr = some 2 ∧ midStream.panel.ori plain = some 2 ∧ InRange 2 2 2 :=
  ⟨plain_ok, midStream_wf, rfl, by decide, rfl, rfl, rfl, rfl, rfl, by decide, by decide⟩
/-- Half a pixel is held after exhaustion, with an unknown orientation, and beyond the last column. -/
theorem witness_danglingNowhere :
    ∃ q1 q2 q3 : Panel, q1.Wf ∧ q2.Wf ∧ q3.Wf ∧ q1.pcnt = some 0 ∧ q2.ori plain = none ∧ q3.cc = some 320 ∧ q3.cr = some 0 ∧
      q3.ori plain = some 2 ∧ ¬ InRange 2 320 0 ∧ ∀ q ∈ [q1, q2, q3], q.pfault = false ∧ q.rxmode = .stream ∧ q.pixhi = some 0xEE :=
  ⟨{ midStream.panel with cc := some 1, cr := some 3, pcnt := some 0, pixhi := some 0xEE, pidx := 9 },
    { midStream.panel with madctl := some 0x01, pixhi := some 0xEE },
    { midStream.panel with
        sc := some 320, ec := some 320, sp := some 0, ep := some 0, cc := some 320, cr := some 0, pcnt := some 1, pidx := 1
        pixhi := some 0xEE },
    by constructor <;> simp [midStream, Panel.reset, memEmpty_wf, Panel.StreamOk, windowArea],
    by constructor <;> simp [midStream, Panel.reset, memEmpty_wf, Panel.StreamOk, windowArea],
    by constructor <;> simp [midStream, Panel.reset, memEmpty_wf, Panel.StreamOk, windowArea],
    rfl, by decide, rfl, rfl, by decide, by decide, by simp [midStream, Panel.reset]⟩
theorem witness_notDangling : (booted 0).panel.Wf ∧ (booted 0).panel.pixhi = none := ⟨booted_wf 0, rfl⟩
theorem witness_ramwrRuns :
    midStream.panel.sc = some 1 ∧ midStream.panel.ec = some 2 ∧ midStream.panel.sp = some 1 ∧ midStream.panel.ep = some 2 ∧
    (1 : Word).toNat ≤ (2 : Word).toNat := ⟨rfl, rfl, rfl, rfl, by decide⟩
theorem witness_ramwrRunsInverted :
    ∃ s : State, s.panel.sc = some 5 ∧ s.panel.ec = some 3 ∧ s.panel.sp = some 0 ∧ s.panel.ep = some 0 ∧
      (3 : Word).toNat < (5 : Word).toNat :=
  ⟨{ midStream with panel := { midStream.panel with sc := some 5, ec := some 3, sp := some 0, ep := some 0 } },
    rfl, rfl, rfl, rfl, by decide⟩
theorem witness_ramwrRunsUnspecified : State.reset.panel.ec = none := rfl
theorem witness_otherCommands : Instr.wOther 0xB1 = .wOther 0xB1 ∧ WellFormed (.wOther 0xB1) = true := ⟨rfl, by decide⟩

/-- A panel half in a mode, with so many data bytes received. -/
def inMode (m : RxMode) (bytes : List Byte) : State :=
  { State.reset with panel := { Panel.reset with rxmode := m, pbuf := bytes, pidx := bytes.length } }

theorem witness_parameters :
    (inMode .pCaset [1, 2]).panel.rxmode = .pCaset ∧ (inMode .pCaset [1, 2]).panel.pidx < 3 ∧
    (inMode .pPaset []).panel.rxmode = .pPaset ∧ (inMode .pPaset []).panel.pidx < 3 := by decide
theorem witness_fourthParameter :
    (inMode .pCaset [0x01, 0x3E, 0x01]).panel.pidx = 3 ∧ (inMode .pCaset [0x01, 0x3E, 0x01]).panel.pbuf = [0x01, 0x3E, 0x01] ∧
    (318 : Word).toNat = (0x01 : Byte).toNat * 256 + (0x3E : Byte).toNat ∧
    (319 : Word).toNat = (0x01 : Byte).toNat * 256 + (0x3F : Byte).toNat ∧
    (inMode .pCaset [0x01, 0x3E, 0x01]).panel.rxmode = .pCaset ∧ (inMode .pPaset [0x01, 0x3E, 0x01]).panel.rxmode = .pPaset := by
  decide
theorem witness_dataOutside :
    (inMode .idle []).panel.rxmode = .idle ∧ (inMode .pOther [1]).panel.rxmode = .pOther ∧
    (inMode .pMadctl []).panel.pidx = 0 ∧ (inMode .pMadctl [7]).panel.pidx ≠ 0 ∧ 4 ≤ (inMode .pCaset [1, 2, 3, 4]).panel.pidx ∧
    4 ≤ (inMode .pPaset [1, 2, 3, 4]).panel.pidx := by decide
theorem witness_streamLatch : ∃ s : State, s.panel.rxmode = .stream ∧ s.panel.pixhi = none := ⟨inMode .stream [], rfl, rfl⟩
theorem witness_streamPixel :
    midStream.panel.rxmode = .stream ∧ midStream.panel.pixhi = some 0xDD ∧ midStream.panel.pfault = false ∧
    midStream.panel.pcnt = some (0 + 1) ∧ midStream.panel.cc = some 2 ∧ midStream.panel.cr = some 2 ∧
    midStream.panel.sc = some 1 ∧ midStream.panel.ec = some 2 ∧ midStream.panel.ori params = some 2 ∧ InRange 2 2 2 :=
  ⟨rfl, rfl, rfl, rfl, rfl, rfl, rfl, rfl, by decide, by decide⟩
theorem witness_streamExhausted :
    ∃ s : State, s.panel.rxmode = .stream ∧ s.panel.pixhi = some 0xEE ∧ s.panel.pfault = false ∧ s.panel.pcnt = some 0 :=
  ⟨{ midStream with panel := { midStream.panel with pcnt := some 0, pixhi := some 0xEE } }, rfl, rfl, rfl, rfl⟩
theorem witness_streamOut :
    ∃ s : State, s.panel.rxmode = .stream ∧ s.panel.pixhi = some 0xEE ∧ s.panel.pfault = false ∧ s.panel.cc = some 320 ∧
      s.panel.cr = some 0 ∧ s.panel.ori params = some 2 ∧ ¬ InRange 2 320 0 :=
  ⟨{ midStream with panel := { midStream.panel with cc := some 320, cr := some 0, pixhi := some 0xEE } },
    rfl, rfl, rfl, rfl, rfl, by decide, by decide⟩
theorem witness_streamUnknown :
    ∃ s : State, s.panel.rxmode = .stream ∧ s.panel.pixhi = some 0xEE ∧ s.panel.pfault = false ∧ s.panel.ori params = none :=
  ⟨{ midStream with panel := { midStream.panel with madctl := some 0x01, pixhi := some 0xEE } }, rfl, rfl, rfl, by decide⟩
theorem witness_streamFaulted :
    ∃ s : State, s.panel.rxmode = .stream ∧ s.panel.pixhi = some 0xEE ∧ s.panel.pfault = true :=
  ⟨{ midStream with panel := { midStream.panel with pfault := true, pixhi := some 0xEE } }, rfl, rfl, rfl⟩
theorem witness_pixelRejected :
    (booted 0).life = .ready ∧ ((booted 0).width.toNat : Int) ≤ (320 : Word).toInt ∧ (-1 : Word).toInt < 0 := ⟨rfl, by decide, by decide⟩
/-- The bottom right corner, the boundary of the range. -/
theorem witness_pixel :
    (booted 13).life = .ready ∧ 0 ≤ (319 : Word).toInt ∧ (319 : Word).toInt < (booted 13).width.toNat ∧ 0 ≤ (479 : Word).toInt ∧
    (479 : Word).toInt < (booted 13).height.toNat ∧ (booted 13).Succeeds 13 :=
  ⟨rfl, by decide, by decide, by decide, by decide, booted_succeeds 13⟩
theorem witness_pixelPaints :
    (booted 13).PanelStateOk ∧ (booted 13).panel.Wf ∧ (booted 13).panel.pixhi = none ∧ (booted 13).panel.pfault = false ∧
    (booted 13).panel.ori params = some (booted 13).rot ∧ (318 : Word).toInt + 1 < (booted 13).width.toNat ∧
    (478 : Word).toInt + 1 < (booted 13).height.toNat ∧ params.strictWindow = false :=
  ⟨booted_panelState 13, booted_wf 13, rfl, rfl, by decide, by decide, by decide, rfl⟩
theorem witness_rectRejected :
    (booted 0).life = .ready ∧ (0x8000 : Word).toInt ≤ 0 ∧ (booted 0).height.toNat ≤ (480 : Word).toInt := ⟨rfl, by decide, by decide⟩
/-- V303: the width is clamped from 10 to 2. -/
theorem witness_rect :
    (2 : Int) = min (10 : Word).toInt ((booted 31).width.toNat - (318 : Word).toInt) ∧
    (5 : Int) = min (5 : Word).toInt ((booted 31).height.toNat - (0 : Word).toInt) ∧ (booted 31).life = .ready ∧
    0 ≤ (318 : Word).toInt ∧ (318 : Word).toInt < (booted 31).width.toNat ∧ 0 ≤ (0 : Word).toInt ∧
    (0 : Word).toInt < (booted 31).height.toNat ∧ 0 < (10 : Word).toInt ∧ 0 < (5 : Word).toInt ∧
    (booted 31).Succeeds (11 + 2 * ((2 : Int) * 5).toNat) :=
  ⟨by decide, by decide, rfl, by decide, by decide, by decide, by decide, by decide, by decide, booted_succeeds 31⟩
theorem witness_rectCut : (failing 30).life = .ready ∧ 30 < 11 + 2 * ((2 : Int) * 5).toNat ∧ (failing 30).FailsAt 30 :=
  ⟨rfl, by decide, failing_failsAt 30⟩
theorem witness_screen :
    (booted 307211).PanelStateOk ∧ (booted 307211).life = .ready ∧ (booted 307211).Succeeds 307211 ∧ State.reset.life ≠ .ready :=
  ⟨booted_panelState _, rfl, booted_succeeds _, by decide⟩
theorem witness_screenCut : (failing 307210).PanelStateOk ∧ (failing 307210).life = .ready ∧ (failing 307210).FailsAt 307210 :=
  ⟨booted_panelState 0, rfl, failing_failsAt _⟩
theorem witness_lineRejected : (booted 0).life = .ready ∧ (-3 : Word).toInt ≤ 0 ∧ (0 : Word).toInt ≤ 0 := ⟨rfl, by decide, by decide⟩
theorem witness_line :
    (booted 51).life = .ready ∧ 0 ≤ (300 : Word).toInt ∧ (300 : Word).toInt < (booted 51).width.toNat ∧ 0 ≤ (460 : Word).toInt ∧
    (460 : Word).toInt < (booted 51).height.toNat ∧ 0 < (50 : Word).toInt ∧
    (20 : Int) = min (50 : Word).toInt ((booted 51).width.toNat - (300 : Word).toInt) ∧
    (20 : Int) = min (50 : Word).toInt ((booted 51).height.toNat - (460 : Word).toInt) ∧
    (booted 51).Succeeds (11 + 2 * (20 : Int).toNat) :=
  ⟨rfl, by decide, by decide, by decide, by decide, by decide, by decide, by decide, booted_succeeds 51⟩
theorem witness_clip : clipRect ((ext 1).1 : Int) ((ext 1).2 : Int) 470 310 20 20 = some (10, 10) := by decide
theorem witness_rectPaints :
    (booted 31).PanelStateOk ∧ (booted 31).panel.Wf ∧ (booted 31).panel.pfault = false ∧
    (booted 31).panel.ori params = some (booted 31).rot := ⟨booted_panelState _, booted_wf _, rfl, by decide⟩
theorem witness_screenPaints :
    (booted 307211).PanelStateOk ∧ (booted 307211).panel.Wf ∧ (booted 307211).life = .ready ∧
    (booted 307211).panel.pfault = false ∧ (booted 307211).panel.ori params = some (booted 307211).rot ∧
    (booted 307211).Succeeds 307211 := ⟨booted_panelState _, booted_wf _, rfl, rfl, rfl, booted_succeeds _⟩
theorem witness_drawingNeverFaults :
    ∃ t, (Instr.fillRect 318 0 10 5 1).draws = true ∧ params.strictWindow = false ∧ (failing 12).PanelStateOk ∧
      (failing 12).panel.Wf ∧ (failing 12).panel.pfault = false ∧ (failing 12).panel.ori params = some (failing 12).rot ∧
      exec (.fillRect 318 0 10 5 1) (failing 12) = .next t :=
  ⟨_, rfl, rfl, booted_panelState 0, booted_wf 0, rfl, by decide, rfl⟩
theorem witness_parametersTaken :
    (Instr.fillRect 318 0 10 5 1).transmits = true ∧ (booted 0).life = .ready ∧
    (booted 0).toBlock.Succeeds (failsOnce 46) (byteCount (emissionOf strict (.fillRect 318 0 10 5 1) (booted 0).toBlock)) ∧
    30 < byteCount (emissionOf strict (.fillRect 318 0 10 5 1) (booted 0).toBlock) ∧
    (booted 0).toBlock.FailsAt (failsOnce 30) 30 ∧ (booted 0).toBlock.Succeeds (failsOnce 46) (byteCount (beginEvents strict)) :=
  ⟨rfl, rfl, by unfold Block.Succeeds; decide, by decide, ⟨by unfold Block.Succeeds; decide, rfl⟩, by unfold Block.Succeeds; decide⟩
theorem witness_colourMonotone : (7 : Byte) ≤ 8 ∧ (255 : Byte) ≤ 255 ∧ (0 : Byte) ≤ 0 := by decide
theorem witness_colourBlind :
    (8 : Byte).toNat / 8 = (15 : Byte).toNat / 8 ∧ (252 : Byte).toNat / 4 = (255 : Byte).toNat / 4 := by decide

end Sys2Proof.Tests
end

section
/-! PROOFS. The scope's statements (00_scope.md): the parameters in force, the step and what it runs, the wire trace, the step
relation under every choice of its arguments, and the two readings of an operation. -/

namespace Sys2Proof.Machine

/-! ### The parameters in force (00_scope.md R5) -/

/-- The default table exchanges rows and columns in the odd orientations (43_rotation.md R211, R216). -/
theorem madMV_defaultMadctlTable : ∀ o : Rot, madMV (defaultMadctlTable o) = decide (o.val % 2 = 1) := by decide

/-- The mirror of one axis of `n` cells, where its bit is set (10_state.md R37). -/
def mirrorIf (m : Bool) (n k : Nat) : Nat := if m then n - 1 - k else k

theorem mirrorIf_lt (m : Bool) {n k : Nat} (h : k < n) : mirrorIf m n k < n := by
  unfold mirrorIf
  split <;> omega

theorem mirrorIf_mirrorIf (m : Bool) {n k : Nat} (h : k < n) : mirrorIf m n (mirrorIf m n k) = k := by
  unfold mirrorIf
  split
  · omega
  · rfl

/-- A mirror is its own inverse, so it takes no two places to one. -/
theorem mirrorIf_inj {m : Bool} {n k k' : Nat} (h : k < n) (h' : k' < n) (he : mirrorIf m n k = mirrorIf m n k') : k = k' := by
  rw [← mirrorIf_mirrorIf m h, he, mirrorIf_mirrorIf m h']

/-- The formula of 43_rotation.md R216: the exchange, then the two mirrors. -/
theorem mirrorSwap_eq (b : Byte) (c r : Nat) :
    mirrorSwap b c r =
      (mirrorIf (madMX b) nativeWidth (if madMV b then r else c), mirrorIf (madMY b) nativeHeight (if madMV b then c else r)) := rfl

/-- A column and a row that stand on the panel once the byte's exchange is made. -/
def FitsExchanged (b : Byte) (c r : Nat) : Prop :=
  (if madMV b then r else c) < nativeWidth ∧ (if madMV b then c else r) < nativeHeight

/-- The logical extents are the native ones, exchanged where the default table's byte says so (10_state.md R42). -/
theorem inRange_iff_fitsExchanged (o : Rot) (c r : Nat) : InRange o c r ↔ FitsExchanged (defaultMadctlTable o) c r := by
  rw [FitsExchanged, madMV_defaultMadctlTable]
  rcases Nat.mod_two_eq_zero_or_one o.val with h | h <;> simp [InRange, ext, h, and_comm]

/-- The formula stays on the panel, whatever the byte. -/
theorem mirrorSwap_in {b : Byte} {c r : Nat} (h : FitsExchanged b c r) :
    (mirrorSwap b c r).1 < nativeWidth ∧ (mirrorSwap b c r).2 < nativeHeight :=
  ⟨mirrorIf_lt _ h.1, mirrorIf_lt _ h.2⟩

/-- The formula takes no two cells to one, whatever the byte. -/
theorem mirrorSwap_inj {b : Byte} {c r c' r' : Nat} (h : FitsExchanged b c r) (h' : FitsExchanged b c' r')
    (he : mirrorSwap b c r = mirrorSwap b c' r') : c = c' ∧ r = r' := by
  rw [mirrorSwap_eq, mirrorSwap_eq, Prod.mk.injEq] at he
  have hx := mirrorIf_inj h.1 h'.1 he.1
  have hy := mirrorIf_inj h.2 h'.2 he.2
  cases hv : madMV b <;> simp only [hv] at hx hy
  · exact ⟨hx, hy⟩
  · exact ⟨hy, hx⟩

/-- Every cell of the panel is the image of its mirrored cell, exchanged back. -/
theorem mirrorSwap_onto (b : Byte) {px py : Nat} (hx : px < nativeWidth) (hy : py < nativeHeight) :
    ∃ c r, FitsExchanged b c r ∧ mirrorSwap b c r = (px, py) := by
  have hx' := mirrorIf_lt (madMX b) hx
  have hy' := mirrorIf_lt (madMY b) hy
  cases hv : madMV b
  · refine ⟨mirrorIf (madMX b) nativeWidth px, mirrorIf (madMY b) nativeHeight py, ?_, ?_⟩
    · simp [FitsExchanged, hv, hx', hy']
    · simp [mirrorSwap_eq, hv, mirrorIf_mirrorIf, hx, hy]
  · refine ⟨mirrorIf (madMY b) nativeHeight py, mirrorIf (madMX b) nativeWidth px, ?_, ?_⟩
    · simp [FitsExchanged, hv, hx', hy']
    · simp [mirrorSwap_eq, hv, mirrorIf_mirrorIf, hx, hy]

/-- The table of G4 meets the five constraints. -/
theorem recollectedInitTable_lawful : TableLawful (defaultsWith recollectedInitTable) := by decide

/-- The table in force meets the five constraints, whatever the free table is (40_init.md R124; log 1). -/
theorem params_tableLawful : TableLawful params := by
  unfold params initTableInForce
  split
  · assumption
  · exact recollectedInitTable_lawful

/-- The parameters in force meet the constraints on the parameters. -/
theorem params_ok : params.Ok := by
  obtain ⟨gamma, madctl, quiet, -, -⟩ := params_tableLawful
  exact {
    commands_distinct := by decide
    madctl_distinct := by decide
    xform_in := fun o c r h => mirrorSwap_in ((inRange_iff_fitsExchanged o c r).mp h)
    xform_inj := fun o c r c' r' h h' => mirrorSwap_inj ((inRange_iff_fitsExchanged o c r).mp h) ((inRange_iff_fitsExchanged o c' r').mp h')
    xform_onto := fun o px py hx hy => by
      obtain ⟨c, r, h, he⟩ := mirrorSwap_onto (defaultMadctlTable o) hx hy
      exact ⟨c, r, (inRange_iff_fitsExchanged o c r).mpr h, he⟩
    gamma_entry := gamma
    madctl_entry := madctl
    init_quiet := quiet }

/-- The tuning table in force is in the source's order and leaves out no subject. -/
theorem params_initOrdered : params.InitOrdered := by
  obtain ⟨-, -, -, order, occur⟩ := params_tableLawful
  exact ⟨order, occur⟩

/-- Settles O10: the transform is the mirror and swap formula, a bijection for every byte; the table in force is lawful in either
branch of its definition. -/
theorem parametersInForceMeetTheirConstraints : Obligations.ParametersInForceMeetTheirConstraints :=
  ⟨params_ok, params_initOrdered⟩

/-! ### What a step runs (00_scope.md R10) -/

/-- A step of the closed machine is the step relation at the parameters in force and at the environment's answers. -/
theorem step_eq (s : State) : step s = .next (s.onBlock (stepFor params s.oracle)) := rfl

/-- Settles O6: the two cases of the step relation that run an instruction, each `exec` of what it decodes. -/
theorem stepRunsTheDecodedInstruction : Obligations.StepRunsTheDecodedInstruction := by
  intro s
  refine ⟨fun r rest hb hq hi => ?_, fun y hb => ?_⟩
  · rw [step_eq, exec_eq, State.onBlock, stepFor_input hb hq hi]
    rfl
  · rw [step_eq, exec_eq, State.onBlock, stepFor_bench hb]
    rfl

/-! ### The wire trace (00_scope.md R8) -/

/-- Every move of an operation keeps an earlier trace as the front of the trace. -/
theorem keeps_tracePrefix (p : Params) (es : List Event) : Keeps p (fun b => es <+: b.trace) where
  consume _ h := h
  deliver e _ h := h.trans ⟨[e], rfl⟩
  drive _ _ h := h
  seq _ _ h := h
  answer _ _ _ h := h
  life _ _ h := h
  rotation _ _ h := h
  input _ _ h := h

/-- One step of the relation appends to the trace, or it is a power-up of an idle block. -/
theorem stepFor_trace {p : Params} (hp : p.Ok) (ω : Oracle) (s : Block) :
    s.trace <+: (stepFor p ω s).trace ∨
    (s.seq = .idle ∧ (∃ rest, s.program = .powerUp :: rest) ∧ (stepFor p ω s).trace = []) := by
  rcases (keeps_tracePrefix p s.trace).stepFor (ω := ω) ⟨[], List.append_nil _⟩ with h | ⟨-, hq, rest, hi, h⟩ | ⟨y, -, h⟩
  · exact .inl h
  · exact .inr ⟨hq, ⟨rest, hi⟩, by rw [h]; rfl⟩
  · rw [h, execFor_symbol hp]
    exact .inl ⟨[], List.append_nil _⟩

/-- Settles O19: every move of an operation appends to the trace; a symbol on the test bench leaves it; a power-up empties it. -/
theorem wireTraceOnlyGrows : Obligations.WireTraceOnlyGrows := by
  intro s t h
  obtain rfl := step_iff.mp h
  rcases stepFor_trace params_ok s.oracle s.toBlock with ⟨es, he⟩ | h
  · exact .inl ⟨es, he.symm⟩
  · exact .inr h

/-! ### The step relation under every choice of its arguments (10_state.md R41) -/

@[simp] theorem commitOf_trace (i : Instr) (s : Block) : (commitOf i s).trace = s.trace := by cases i <;> rfl
@[simp] theorem commitOf_panel (i : Instr) (s : Block) : (commitOf i s).panel = s.panel := by cases i <;> rfl
@[simp] theorem commitOf_responses (i : Instr) (s : Block) : (commitOf i s).responses = s.responses := by cases i <;> rfl
@[simp] theorem abortOf_trace (i : Instr) (s : Block) : (abortOf i s).trace = s.trace := by cases i <;> rfl
@[simp] theorem abortOf_panel (i : Instr) (s : Block) : (abortOf i s).panel = s.panel := by cases i <;> rfl
@[simp] theorem abortOf_responses (i : Instr) (s : Block) : (abortOf i s).responses = s.responses := by cases i <;> rfl

/-- Only BEGIN commits a `LIFE` (10_state.md R23). -/
theorem commitOf_life {i : Instr} (h : i ≠ .begin) (s : Block) : (commitOf i s).life = s.life := by
  cases i with
  | begin => exact absurd rfl h
  | _ => rfl

/-- Only BEGIN changes `LIFE` at a failing transmit (40_init.md R126). -/
theorem abortOf_life {i : Instr} (h : i ≠ .begin) (s : Block) : (abortOf i s).life = s.life := by
  cases i with
  | begin => exact absurd rfl h
  | _ => rfl

/-- BEGIN is counted apart from the operations that transmit. -/
theorem transmits_ne_begin {i : Instr} (h : i.transmits = true) : i ≠ .begin := by
  rintro rfl
  simp [Instr.transmits] at h

section
variable {p : Params} {ω : Oracle} {i : Instr} {b : Block}

/-- In READY the liveness check passes. -/
theorem execFor_ready (h : i.transmits = true) (hl : b.life = .ready) :
    execFor p ω i b = perform p ω (emissionOf p i b) (commitOf i) (abortOf i) b := by
  rw [execFor_transmits b h, whenReady, if_pos hl]

/-- An operation that transmits and is no BEGIN, in READY, every transmit succeeding. -/
theorem execFor_succeeds (h : i.transmits = true) (hl : b.life = .ready) (hs : b.Succeeds ω (byteCount (emissionOf p i b))) :
    execFor p ω i b = complete (commitOf i (b.allDelivered p (emissionOf p i b))) := by
  rw [execFor_ready h hl, perform_succeeds hs]

/-- An operation that transmits and is no BEGIN, in READY, the transmit of byte number `k` being the first to fail. -/
theorem execFor_fails (h : i.transmits = true) (hl : b.life = .ready) {k : Nat} (hk : k < byteCount (emissionOf p i b))
    (hf : b.FailsAt ω k) :
    execFor p ω i b = raise .transmitFailure (abortOf i (b.cutOff p k (emissionOf p i b))) := by
  rw [execFor_ready h hl, perform_fails hk hf]

/-- BEGIN in READY acquires nothing again (decision D14); every transmit succeeding, its list is delivered. -/
theorem execFor_begin_succeeds (hl : b.life = .ready) (hs : b.Succeeds ω (byteCount (beginEvents p))) :
    execFor p ω .begin b = complete (setLife .ready (b.allDelivered p (beginEvents p))) := by
  simp only [execFor, runBegin, openBegin, hl, perform_succeeds hs]

end

/-- Settles O60: `exec` and `step` are the relation at the parameters in force; under every choice of the arguments an operation in
READY is its list delivered, or cut at the first failing byte. -/
theorem stepRelationTakesTheParameters : Obligations.StepRelationTakesTheParameters := by
  refine ⟨exec_eq, step_eq, fun p ω i b h hl => ⟨fun hs => ?_, fun k hk hf => ?_⟩, fun p ω b hl hs => ?_⟩
  · simp [execFor_succeeds h hl hs, commitOf_life (transmits_ne_begin h), hl]
  · simp [execFor_fails h hl hk hf, abortOf_life (transmits_ne_begin h), hl]
  · simp [execFor_begin_succeeds hl hs]

/-! ### The two readings of an operation (00_scope.md R10, 10_state.md R25; log 8) -/

/-- Some number of steps leads from one block to the other. -/
def Block.Reaches (p : Params) (ω : Oracle) (s t : Block) : Prop := ∃ n, (stepFor p ω)^[n] s = t

section
variable {p : Params} {ω : Oracle}

theorem reaches_refl (s : Block) : s.Reaches p ω s := ⟨0, rfl⟩

/-- What a block reaches after its next step, it reaches. -/
theorem reaches_of_stepFor {s t : Block} (h : (stepFor p ω s).Reaches p ω t) : s.Reaches p ω t := by
  obtain ⟨n, h⟩ := h
  exact ⟨n + 1, h⟩

/-- An operation's end does not depend on `SEQ`, which it leaves idle. -/
theorem perform_seq (q : Seq) (i : Instr) (es : List Event) (s : Block) :
    perform p ω es (commitOf i) (abortOf i) { s with seq := q } = perform p ω es (commitOf i) (abortOf i) s := by
  rcases succeeds_or_failsAt (ω := ω) (byteCount es) s with h | ⟨k, hk, h⟩
  · rw [perform_succeeds h, perform_succeeds (s := { s with seq := q }) h]
    cases i <;> rfl
  · rw [perform_fails hk h, perform_fails (s := { s with seq := q }) hk h]
    cases i <;> rfl

/-- One event of a list, then the rest of it, or the end at a failing transmit. -/
theorem perform_cons (e : Event) (es : List Event) (commit abort : Block → Block) (s : Block) :
    perform p ω (e :: es) commit abort s =
      if (s.send p ω e).2 then perform p ω es commit abort (s.send p ω e).1
      else raise .transmitFailure (abort (s.send p ω e).1) := by
  rw [perform, emit]
  obtain ⟨t, b⟩ := s.send p ω e
  cases b <;> rfl

/-- A transmit leaves PanelState and the test bench. -/
theorem send_frame (e : Event) (s : Block) :
    (s.send p ω e).1.width = s.width ∧ (s.send p ω e).1.height = s.height ∧ (s.send p ω e).1.bench = s.bench := by
  rcases send_cases p ω e s with ⟨ms, -, h⟩ | ⟨-, -, h⟩ | ⟨-, -, h⟩ <;> rw [h] <;> exact ⟨rfl, rfl, rfl⟩

/-- One event of an operation in progress, when event number `i` is there to be sent. -/
theorem tick_cons {r : Req} {i : Nat} {e : Event} {es : List Event} {s : Block}
    (h : (emissionOf p (decodeRequest r) s).drop i = e :: es) :
    tick p ω r i s =
      if (s.send p ω e).2 then
        if es = [] then complete (commitOf (decodeRequest r) (s.send p ω e).1)
        else { (s.send p ω e).1 with seq := .busy r (i + 1) }
      else raise .transmitFailure (abortOf (decodeRequest r) (s.send p ω e).1) := by
  have hget : (emissionOf p (decodeRequest r) s)[i]? = some e := by
    rw [← List.head?_drop, h, List.head?_cons]
  have hlast : i + 1 < (emissionOf p (decodeRequest r) s).length ↔ es ≠ [] := by
    have hl := congrArg List.length h
    rw [List.length_drop, List.length_cons] at hl
    rw [← List.length_pos_iff]
    omega
  simp only [tick, hget, hlast]
  obtain ⟨t, b⟩ := s.send p ω e
  cases b
  · rfl
  · by_cases he : es = [] <;> simp [he]

/-- An operation in progress ends as the rest of its list, run in one step. -/
theorem busy_reaches {r : Req} (es : List Event) {i : Nat} {s : Block} (hb : s.bench = none) (hq : s.seq = .busy r i)
    (hne : es ≠ []) (hes : (emissionOf p (decodeRequest r) s).drop i = es) :
    s.Reaches p ω (perform p ω es (commitOf (decodeRequest r)) (abortOf (decodeRequest r)) s) := by
  induction es generalizing i s with
  | nil => exact absurd rfl hne
  | cons e es ih =>
    apply reaches_of_stepFor
    rw [stepFor_busy hb hq, tick_cons hes, perform_cons]
    obtain ⟨hw, hh, hb'⟩ := send_frame (p := p) (ω := ω) e s
    generalize s.send p ω e = x at *
    obtain ⟨t, sent⟩ := x
    cases sent with
    | false => exact reaches_refl _
    | true =>
      by_cases he : es = []
      · subst he
        exact reaches_refl _
      · have hrest : (emissionOf p (decodeRequest r) t).drop (i + 1) = es := by
          rw [emissionOf_congr _ hw hh, ← List.tail_drop, hes, List.tail_cons]
        have key := ih (s := { t with seq := .busy r (i + 1) }) (hb'.trans hb) rfl he hrest
        simpa [he, perform_seq] using key

/-- A latched request ends as the whole list, run in one step; with nothing to emit it has ended already. -/
theorem latch_reaches (r : Req) {s : Block} (hb : s.bench = none) :
    (latch p r s).Reaches p ω
      (perform p ω (emissionOf p (decodeRequest r) s) (commitOf (decodeRequest r)) (abortOf (decodeRequest r)) s) := by
  unfold latch
  split
  · next h =>
    rw [h]
    exact reaches_refl _
  · next h =>
    rw [← perform_seq (.busy r 0)]
    exact busy_reaches _ hb rfl h rfl

theorem whenReady_reaches {body body' : Block → Block} {s : Block} (h : (body s).Reaches p ω (body' s)) :
    (whenReady body s).Reaches p ω (whenReady body' s) := by
  unfold whenReady
  split
  · exact h
  · exact reaches_refl _

theorem openBegin_reaches {body body' : Block → Block} {s : Block} (hb : s.bench = none)
    (h : ∀ t : Block, t.bench = none → (body t).Reaches p ω (body' t)) :
    (openBegin ω body s).Reaches p ω (openBegin ω body' s) := by
  unfold openBegin
  split
  · exact reaches_refl _
  · exact h s hb
  · split
    · exact h s.consume hb
    · exact reaches_refl _

/-- A request presented for the one-event reading reaches the state that the request run in one step reaches. -/
theorem startByEvents_reaches (r : Req) {s : Block} (hb : s.bench = none) :
    (startByEvents p ω r s).Reaches p ω (execFor p ω (decodeRequest r) s) := by
  rcases startByEvents_cases p ω r s with ⟨hi, e⟩ | ⟨hi, e⟩ | e <;> rw [e]
  · rw [hi]
    refine openBegin_reaches hb fun t ht => ?_
    have key := latch_reaches (p := p) (ω := ω) r ht
    rwa [hi] at key
  · rw [execFor_transmits s hi]
    exact whenReady_reaches (latch_reaches r hb)
  · exact reaches_refl _

end

/-- A run of the closed machine iterates the step relation: no step stops it, and none changes the answers. -/
theorem run_eq (n : Nat) (s : State) :
    Host.Core.run Sys2Proof.core n s = .next (s.onBlock (stepFor params s.oracle)^[n]) := by
  induction n generalizing s with
  | zero => rfl
  | succ n ih => exact ih (s.onBlock (stepFor params s.oracle))

/-- Settles O8: each event's step leads to the rest of the list, by induction on what is left of it. -/
theorem operationsByEventsAgreeWithAtomicOnes : Obligations.OperationsByEventsAgreeWithAtomicOnes := by
  intro s r rest hb hq hi
  obtain ⟨n, hn⟩ := startByEvents_reaches (p := params) (ω := s.oracle) r
    (s := { s.toBlock with program := rest }) hb
  refine ⟨n, ?_⟩
  have atomic : stepFor params s.oracle { s.toBlock with program := .present r :: rest } =
      execFor params s.oracle (decodeRequest r) { s.toBlock with program := rest } :=
    stepFor_input (s := { s.toBlock with program := .present r :: rest }) hb hq rfl
  have byEvents : stepFor params s.oracle s.toBlock = startByEvents params s.oracle r { s.toBlock with program := rest } :=
    stepFor_input hb hq hi
  have agree : (stepFor params s.oracle)^[n + 1] s.toBlock =
      (stepFor params s.oracle)^[1] { s.toBlock with program := .present r :: rest } := by
    rw [Function.iterate_succ_apply, byEvents, hn, Function.iterate_one, atomic]
  rw [run_eq, run_eq, State.onBlock, agree]
  rfl

end Sys2Proof.Machine
end

section
/-! PROOFS. The state's statements (10_state.md): the registers at reset, the invariants and the replay of the wire trace, what clears
`PFAULT`, and who writes the controller half. -/

namespace Sys2Proof.Machine

variable {p : Params} {ω : Oracle} {J : Block → Prop}

/-! ### What every step keeps -/

/-- What every move keeps, a symbol of the test bench too, and a power-up brings about, every step keeps. -/
theorem Keeps.everyStep (k : Keeps p J) (hp : p.Ok)
    (symbol : ∀ e s, J s → J (Block.onPanel (fun q => q.receive p e) { s with bench := none }))
    (reset : ∀ s, J (powerUp s)) {s : Block} (h : J s) :
    J (Machine.stepFor p ω s) := by
  rcases k.stepFor (ω := ω) h with h' | ⟨-, -, rest, -, e⟩ | ⟨y, -, e⟩
  · exact h'
  · exact e ▸ reset _
  · rw [e, execFor_symbol hp]
    exact symbol _ _ h

/-- A property of the panel half, the trace and the test bench that every delivered event keeps, every move of an operation keeps. -/
theorem Keeps.ofWire {P : Option Sym → List Event → Panel → Prop}
    (h : ∀ e y es q, P y es q → P y (es ++ [e]) (q.receive p e)) : Keeps p fun s => P s.bench s.trace s.panel where
  consume _ hs := hs
  deliver e s hs := h e s.bench s.trace s.panel hs
  drive _ _ hs := hs
  seq _ _ hs := hs
  answer _ _ _ hs := hs
  life _ _ hs := hs
  rotation _ _ hs := hs
  input _ _ hs := hs

/-! ### Reset (10_state.md R38) -/

/-- Settles O9: each register's value is read off the reset state. -/
theorem resetStateIsAsTheSpecSays : Obligations.ResetStateIsAsTheSpecSays :=
  ⟨rfl, rfl, rfl, rfl, rfl, rfl, rfl, rfl, rfl, rfl, rfl, rfl, rfl, rfl, rfl, rfl, rfl, rfl, rfl, memRead_empty, rfl, rfl⟩

theorem reset_panelStateOk : Block.reset.PanelStateOk :=
  ⟨fun _ => ⟨rfl, rfl⟩, fun h => absurd h (by decide)⟩

/-- At reset the panel half is in `IDLE` with no byte received, no register specified and no cell holding a value. -/
theorem panelReset_wf : Panel.reset.Wf := by
  constructor <;> simp [Panel.reset, memEmpty_wf]

/-- An idle block has no operation in progress to ask anything of. -/
theorem seqOk_of_idle {s : Block} (h : s.seq = .idle) : s.SeqOk p := by
  simp only [Block.SeqOk, h]

/-- Settles O12: PanelState and the panel half hold their reset values, no operation is in progress and no response is given. -/
theorem invariantHoldsAtReset : Obligations.InvariantHoldsAtReset := fun _ =>
  ⟨reset_panelStateOk, panelReset_wf, seqOk_of_idle rfl, fun _ h => absurd h List.not_mem_nil⟩

/-! ### PanelState (10_state.md R22) -/

/-- A rotation's extents are its size: what SET_ROTATION commits agrees with the rotation it commits. -/
theorem commitRotation_panelStateOk (r : Rot) (s : Block) : (commitRotation r s).PanelStateOk := by
  constructor <;> intro h <;> simp only [commitRotation_rot] at h <;> simp [ext, h]

/-- The one move that writes PanelState is SET_ROTATION's commit. -/
theorem keeps_panelStateOk (p : Params) : Keeps p Block.PanelStateOk where
  consume _ h := h
  deliver _ _ h := h
  drive _ _ h := h
  seq _ _ h := h
  answer _ _ _ h := h
  life _ _ h := h
  rotation r s _ := commitRotation_panelStateOk r s
  input _ _ h := h

theorem stepFor_panelStateOk (hp : p.Ok) {s : Block} (h : s.PanelStateOk) : (stepFor p ω s).PanelStateOk :=
  (keeps_panelStateOk p).everyStep hp (fun _ _ h => h) (fun _ => reset_panelStateOk) h

/-- Settles O11: PanelState is written by SET_ROTATION's commit and by a power-up only, by each with an agreeing size. -/
theorem panelStateInvariantHolds : Obligations.PanelStateInvariantHolds := by
  refine ⟨reset_panelStateOk, fun s t h hst => ?_⟩
  obtain rfl := step_iff.mp hst
  exact stepFor_panelStateOk params_ok h

/-! ### The machine's invariant (10_state.md R20 to R35) -/

theorem stepFor_panelWf (hp : p.Ok) {s : Block} (h : s.panel.Wf) : (stepFor p ω s).panel.Wf :=
  (Keeps.ofWire (P := fun _ _ q => q.Wf) fun e _ _ _ => receive_wf hp e).everyStep hp (fun e _ => receive_wf hp e)
    (fun _ => panelReset_wf) h

/-- No response has the status INVALID_GEOMETRY (60_exceptions.md R234). -/
def Block.NeverInvalid (s : Block) : Prop := ∀ a ∈ s.responses, a.status ≠ .invalidGeometry

theorem keeps_neverInvalid (p : Params) : Keeps p Block.NeverInvalid where
  consume _ h := h
  deliver _ _ h := h
  drive _ _ h := h
  seq _ _ h := h
  answer a s ha h := by
    intro b hb
    rcases List.mem_append.mp hb with hb | hb
    · exact h b hb
    · exact List.mem_singleton.mp hb ▸ ha
  life _ _ h := h
  rotation _ _ h := h
  input _ _ h := h

theorem stepFor_neverInvalid (hp : p.Ok) {s : Block} (h : s.NeverInvalid) : (stepFor p ω s).NeverInvalid :=
  (keeps_neverInvalid p).everyStep hp (fun _ _ h => h) (fun _ _ ha => absurd ha List.not_mem_nil) h

/-! #### `SEQ` (10_state.md R25) -/

/-- The controller half's registers and the outside world's inputs are the same in both blocks. -/
structure Block.SameController (s t : Block) : Prop where
  rot : t.rot = s.rot
  width : t.width = s.width
  height : t.height = s.height
  life : t.life = s.life
  program : t.program = s.program
  bench : t.bench = s.bench

theorem sameController_refl (s : Block) : s.SameController s := ⟨rfl, rfl, rfl, rfl, rfl, rfl⟩

/-- A transmit writes no register of the controller half. -/
theorem send_sameController (e : Event) (s : Block) : s.SameController (s.send p ω e).1 := by
  rcases send_cases p ω e s with ⟨ms, -, h⟩ | ⟨-, -, h⟩ | ⟨-, -, h⟩ <;> rw [h] <;> exact ⟨rfl, rfl, rfl, rfl, rfl, rfl⟩

/-- `SeqOk` reads `SEQ`, the size and `LIFE` alone. -/
theorem seqOk_congr {s t : Block} (hq : t.seq = s.seq) (hw : t.width = s.width) (hh : t.height = s.height) (hl : t.life = s.life) :
    t.SeqOk p ↔ s.SeqOk p := by
  have he (i : Instr) : emissionOf p i t = emissionOf p i s := emissionOf_congr i hw hh
  simp only [Block.SeqOk, hq, hl, he]

/-- A block whose size is that of `s` stands before an event of the list that `s` gives. -/
theorem seqOk_of_busy {r : Req} {i : Nat} {s t : Block} (hq : t.seq = .busy r i) (hw : t.width = s.width) (hh : t.height = s.height)
    (hi : i < (emissionOf p (decodeRequest r) s).length)
    (hl : t.life = .ready ∨ (decodeRequest r = .begin ∧ t.life = .unbegun)) : t.SeqOk p := by
  simp only [Block.SeqOk, hq]
  exact ⟨by rwa [emissionOf_congr _ hw hh], hl⟩

/-- An operation past its checks has ended when its list has been run. -/
theorem perform_idle (es : List Event) (commit abort : Block → Block) (s : Block) :
    (perform p ω es commit abort s).seq = .idle := by
  rcases perform_cases p ω es commit abort s with h | ⟨k, -, -, h⟩ <;> rw [h] <;> rfl

/-- A request run in one step has ended after it. -/
theorem execForRequest_idle (r : Req) (s : Block) : (execFor p ω (decodeRequest r) s).seq = .idle := by
  rcases decodeRequest_cases r with h | h | ⟨x, y, z, h⟩ | h
  · rw [h, execFor, runBegin]
    rcases openBegin_cases ω (perform p ω (beginEvents p) (setLife .ready) (setLife .failed)) s
      with ⟨-, e⟩ | ⟨-, e⟩ | ⟨-, -, e⟩ | ⟨-, -, e⟩ <;> rw [e]
    · rfl
    · exact perform_idle ..
    · exact perform_idle ..
    · rfl
  · rw [execFor_transmits s h]
    rcases whenReady_cases (perform p ω (emissionOf p (decodeRequest r) s) (commitOf (decodeRequest r)) (abortOf (decodeRequest r))) s
      with ⟨-, e⟩ | ⟨-, e⟩ <;> rw [e]
    · exact perform_idle ..
    · rfl
  · rw [h]
    rfl
  · simp only [List.mem_cons, List.not_mem_nil, or_false] at h
    rcases h with h | h | h | h | h | h | h <;> rw [h] <;> rfl

/-- A request is latched at event 0 when it has an event to emit, its checks passed. -/
theorem latch_seqOk {r : Req} {s : Block} (hl : s.life = .ready ∨ (decodeRequest r = .begin ∧ s.life = .unbegun)) :
    (latch p r s).SeqOk p := by
  unfold latch
  split
  · exact seqOk_of_idle rfl
  · next h => exact seqOk_of_busy rfl rfl rfl (List.length_pos_iff.mpr h) hl

theorem startByEvents_seqOk (r : Req) (s : Block) : (startByEvents p ω r s).SeqOk p := by
  rcases startByEvents_cases p ω r s with ⟨hi, e⟩ | ⟨-, e⟩ | e <;> rw [e]
  · rcases openBegin_cases ω (latch p r) s with ⟨-, e⟩ | ⟨hl, e⟩ | ⟨hl, -, e⟩ | ⟨-, -, e⟩ <;> rw [e]
    · exact seqOk_of_idle rfl
    · exact latch_seqOk (.inl hl)
    · exact latch_seqOk (.inr ⟨hi, hl⟩)
    · exact seqOk_of_idle rfl
  · rcases whenReady_cases (latch p r) s with ⟨hl, e⟩ | ⟨-, e⟩ <;> rw [e]
    · exact latch_seqOk (.inl hl)
    · exact seqOk_of_idle rfl
  · exact seqOk_of_idle (execForRequest_idle r s)

/-- An event of an operation in progress moves to the next one, when there is one, and ends the operation otherwise. -/
theorem tick_seqOk {r : Req} {i : Nat} {s : Block} (hq : s.seq = .busy r i) (h : s.SeqOk p) : (tick p ω r i s).SeqOk p := by
  simp only [Block.SeqOk, hq] at h
  obtain ⟨hi, hl⟩ := h
  have hs := send_sameController (p := p) (ω := ω) ((emissionOf p (decodeRequest r) s)[i]) s
  rw [tick_cons (List.drop_eq_getElem_cons hi)]
  split
  · split
    · exact seqOk_of_idle rfl
    · next hrest =>
      have hnext : i + 1 < (emissionOf p (decodeRequest r) s).length := by simpa using hrest
      exact seqOk_of_busy rfl hs.width hs.height hnext (hs.life ▸ hl)
  · exact seqOk_of_idle rfl

theorem stepFor_seqOk (hp : p.Ok) {s : Block} (h : s.SeqOk p) : (stepFor p ω s).SeqOk p := by
  cases hb : s.bench with
  | some y =>
    rw [stepFor_bench hb, execFor_symbol hp]
    exact (seqOk_congr rfl rfl rfl rfl).mpr h
  | none =>
    cases hq : s.seq with
    | busy r i =>
      rw [stepFor_busy hb hq]
      exact tick_seqOk hq h
    | idle =>
      cases hi : s.program with
      | nil =>
        rw [stepFor_waits hb hq hi]
        exact h
      | cons inp rest =>
        rw [stepFor_input hb hq hi]
        cases inp with
        | present r => exact seqOk_of_idle (execForRequest_idle r _)
        | byEvents r => exact startByEvents_seqOk r _
        | powerUp => exact seqOk_of_idle rfl

/-- Every step of the relation keeps the invariant, part by part. -/
theorem stepFor_inv (hp : p.Ok) {s : Block} (h : s.Inv p) : (stepFor p ω s).Inv p where
  panel_state := stepFor_panelStateOk hp h.panel_state
  panel_wf := stepFor_panelWf hp h.panel_wf
  seq_ok := stepFor_seqOk hp h.seq_ok
  never_invalid := stepFor_neverInvalid hp h.never_invalid

/-- Settles O13: a step of the closed machine is one of the relation, whose parts of the invariant are kept each by itself. -/
theorem invariantKeptByEveryStep : Obligations.InvariantKeptByEveryStep := by
  refine ⟨fun s t h hst => ?_, fun p ω b hp h => stepFor_inv hp h⟩
  obtain rfl := step_iff.mp hst
  exact stepFor_inv params_ok h

/-! ### Who writes the controller half (10_state.md R20, R21, R23, R39) -/

@[simp] theorem commitOf_program (i : Instr) (s : Block) : (commitOf i s).program = s.program := by cases i <;> rfl
@[simp] theorem commitOf_bench (i : Instr) (s : Block) : (commitOf i s).bench = s.bench := by cases i <;> rfl

/-- Only SET_ROTATION commits a rotation and a size (43_rotation.md R212). -/
theorem commitOf_panelState {i : Instr} (h : ∀ m, i ≠ .setRotation m) (s : Block) :
    (commitOf i s).rot = s.rot ∧ (commitOf i s).width = s.width ∧ (commitOf i s).height = s.height := by
  cases i with
  | setRotation m => exact absurd rfl (h m)
  | _ => exact ⟨rfl, rfl, rfl⟩

/-- A failing transmit changes `LIFE` at most (60_exceptions.md R240). -/
theorem abortOf_eq (i : Instr) (s : Block) : abortOf i s = { s with life := (abortOf i s).life } := by cases i <;> rfl

/-- An instruction that never transmits gives a response, or it is a symbol and the panel half takes a step. -/
theorem execFor_quiet {i : Instr} (h : i.transmits = false) (hb : i ≠ .begin) (s : Block) :
    (∃ st v, execFor p ω i s = respond st v s) ∨ ∃ f, execFor p ω i s = s.onPanel f := by
  cases i with
  | begin => exact absurd rfl hb
  | setRotation | setAddrWindow | drawPixel | fillRect | fillScreen | drawFastHLine | drawFastVLine => cases h
  | color565 | reserved9 | reserved10 | reserved11 | reserved12 | reserved13 | reserved14 | reserved15 => exact .inl ⟨_, _, rfl⟩
  | wSwreset | wSetextc | wSlpout | wDispon | wCaset | wPaset | wRamwr | wMadctl | wOther | wData => exact .inr ⟨_, rfl⟩

/-- The result of an instruction, but for the response it gives: a block with the same controller half, or that block after what the
instruction commits or what it changes at a failing transmit. -/
def Block.EndsAs (i : Instr) (s t : Block) : Prop :=
  ∃ u, s.SameController u ∧
    (t = u ∨ ∃ st v, t = respond st v u ∨ t = respond st v (commitOf i u) ∨ t = respond st v (abortOf i u))

theorem perform_endsAs (i : Instr) (es : List Event) {s u : Block} (h : s.SameController u) :
    s.EndsAs i (perform p ω es (commitOf i) (abortOf i) u) := by
  obtain ⟨rot, width, height, life, program, bench⟩ := h
  rcases perform_cases p ω es (commitOf i) (abortOf i) u with e | ⟨k, -, -, e⟩ <;> rw [e]
  · exact ⟨u.allDelivered p es, ⟨rot, width, height, life, program, bench⟩, .inr ⟨_, _, .inr (.inl rfl)⟩⟩
  · exact ⟨u.cutOff p k es, ⟨rot, width, height, life, program, bench⟩, .inr ⟨_, _, .inr (.inr rfl)⟩⟩

/-- Everything an instruction can do to the controller half. -/
theorem execFor_endsAs (p : Params) (ω : Oracle) (i : Instr) (s : Block) : s.EndsAs i (execFor p ω i s) := by
  have refused (st : Status) : s.EndsAs i (raise st s) := ⟨s, sameController_refl s, .inr ⟨_, _, .inl rfl⟩⟩
  by_cases hb : i = .begin
  · subst hb
    rcases openBegin_cases ω (perform p ω (beginEvents p) (setLife .ready) (setLife .failed)) s
      with ⟨-, e⟩ | ⟨-, e⟩ | ⟨-, -, e⟩ | ⟨-, -, e⟩ <;> rw [execFor, runBegin, e]
    · exact refused _
    · exact perform_endsAs .begin _ (sameController_refl s)
    · exact perform_endsAs .begin _ ⟨rfl, rfl, rfl, rfl, rfl, rfl⟩
    · exact ⟨s.consume, ⟨rfl, rfl, rfl, rfl, rfl, rfl⟩, .inr ⟨_, _, .inr (.inr rfl)⟩⟩
  · cases ht : i.transmits with
    | true =>
      rw [execFor_transmits s ht]
      rcases whenReady_cases (perform p ω (emissionOf p i s) (commitOf i) (abortOf i)) s with ⟨-, e⟩ | ⟨-, e⟩ <;> rw [e]
      · exact perform_endsAs i _ (sameController_refl s)
      · exact refused _
    | false =>
      rcases execFor_quiet (p := p) (ω := ω) ht hb s with ⟨st, v, e⟩ | ⟨f, e⟩ <;> rw [e]
      · exact ⟨s, sameController_refl s, .inr ⟨_, _, .inl rfl⟩⟩
      · exact ⟨s.onPanel f, ⟨rfl, rfl, rfl, rfl, rfl, rfl⟩, .inl rfl⟩

section
variable {i : Instr} {s t : Block}

theorem endsAs_panelState (h : s.EndsAs i t) (hi : ∀ m, i ≠ .setRotation m) :
    t.rot = s.rot ∧ t.width = s.width ∧ t.height = s.height := by
  obtain ⟨u, hu, rfl | ⟨st, v, rfl | rfl | rfl⟩⟩ := h
  · exact ⟨hu.rot, hu.width, hu.height⟩
  · exact ⟨hu.rot, hu.width, hu.height⟩
  · obtain ⟨hr, hw, hh⟩ := commitOf_panelState hi u
    exact ⟨hr.trans hu.rot, hw.trans hu.width, hh.trans hu.height⟩
  · rw [abortOf_eq]
    exact ⟨hu.rot, hu.width, hu.height⟩

theorem endsAs_life (h : s.EndsAs i t) (hi : i ≠ .begin) : t.life = s.life := by
  obtain ⟨u, hu, rfl | ⟨st, v, rfl | rfl | rfl⟩⟩ := h
  · exact hu.life
  · exact hu.life
  · exact (commitOf_life hi u).trans hu.life
  · exact (abortOf_life hi u).trans hu.life

theorem endsAs_inputs (h : s.EndsAs i t) : t.program = s.program ∧ t.bench = s.bench := by
  obtain ⟨u, hu, rfl | ⟨st, v, rfl | rfl | rfl⟩⟩ := h
  · exact ⟨hu.program, hu.bench⟩
  · exact ⟨hu.program, hu.bench⟩
  · simp [hu.program, hu.bench]
  · rw [abortOf_eq]
    exact ⟨hu.program, hu.bench⟩

end

/-- An instruction that never transmits asks nothing and puts nothing on the wire. -/
theorem execFor_quiet_wire {i : Instr} (h : i.transmits = false) (hb : i ≠ .begin) (s : Block) :
    (execFor p ω i s).asked = s.asked ∧ (execFor p ω i s).trace = s.trace ∧ (execFor p ω i s).dc = s.dc := by
  rcases execFor_quiet (p := p) (ω := ω) h hb s with ⟨st, v, e⟩ | ⟨f, e⟩ <;> rw [e] <;> exact ⟨rfl, rfl, rfl⟩

/-- Settles O17: each clause read off the ways an instruction can end. -/
theorem controllerRegistersChangeOnlyByTheirOperation : Obligations.ControllerRegistersChangeOnlyByTheirOperation := by
  intro i s t h
  rw [exec_eq] at h
  injection h with h
  subst h
  have ends := execFor_endsAs params s.oracle i s.toBlock
  obtain ⟨program, bench⟩ := endsAs_inputs ends
  refine ⟨endsAs_panelState ends, endsAs_life ends, fun ht hb => execFor_quiet_wire ht hb s.toBlock, ⟨program, bench, rfl⟩, ?_⟩
  rintro y rfl
  rw [show decode (.symbol y) = decodeSymbol params y from rfl, State.onBlock, execFor_symbol params_ok]
  rfl

/-! ### The replay of the wire trace (20_memory.md R69, R76) -/

theorem reset_replayed (p : Params) : Block.reset.Replayed p := ⟨rfl, rfl⟩

/-- The one move that writes the panel half also appends the event to the trace. -/
theorem keeps_replayed (p : Params) : Keeps p (Block.Replayed p) :=
  Keeps.ofWire (P := fun y es q => y = none ∧ q = es.foldl (Panel.receive p) Panel.reset) fun _ _ _ _ ⟨hy, hq⟩ =>
    ⟨hy, by rw [List.foldl_append, ← hq]; rfl⟩

/-- A step of a block with no test bench acting on it keeps the replay; a power-up empties the trace with the panel half. -/
theorem stepFor_replayed {s : Block} (h : s.Replayed p) : (stepFor p ω s).Replayed p := by
  rcases (keeps_replayed p).stepFor (ω := ω) h with h' | ⟨-, -, rest, -, e⟩ | ⟨y, hy, -⟩
  · exact h'
  · exact e ▸ reset_replayed p
  · exact absurd (hy.symm.trans h.1) (Option.some_ne_none y)

/-- No move puts a symbol on the test bench (log 7). -/
theorem keeps_noBench (p : Params) : Keeps p fun s => s.bench = none :=
  Keeps.ofWire (P := fun y _ _ => y = none) fun _ _ _ _ hy => hy

/-- After every step the test bench is empty: its symbol has been taken, and no step puts one there. -/
theorem stepFor_noBench (p : Params) (ω : Oracle) (s : Block) : (stepFor p ω s).bench = none := by
  cases hb : s.bench with
  | some y =>
    rw [stepFor_bench hb]
    exact (endsAs_inputs (execFor_endsAs p ω _ _)).2
  | none =>
    rcases (keeps_noBench p).stepFor (ω := ω) hb with h | ⟨-, -, rest, -, e⟩ | ⟨y, hy, -⟩
    · exact h
    · exact e ▸ rfl
    · exact absurd (hy.symm.trans hb) (Option.some_ne_none y)

/-- Settles O14: every delivery steps the panel half and appends its event to the trace, and nothing else writes either. -/
theorem panelHalfIsTheReplayOfTheWireTrace : Obligations.PanelHalfIsTheReplayOfTheWireTrace := by
  refine ⟨reset_replayed params, fun s t h hst => ?_, fun p ω _ => ⟨reset_replayed p, fun b h => stepFor_replayed h⟩,
    stepFor_noBench⟩
  obtain rfl := step_iff.mp hst
  exact stepFor_replayed h

/-! ### `PFAULT` (10_state.md R35) -/

/-- Settles O15: no event clears `PFAULT`, in an operation or from the test bench. -/
theorem pfaultIsClearedByPowerUpOnly : Obligations.PfaultIsClearedByPowerUpOnly := by
  intro s t hst h
  obtain rfl := step_iff.mp hst
  rcases (Keeps.ofWire (P := fun _ _ q => q.pfault = true) fun e _ _ _ => receive_sticky params e).stepFor (ω := s.oracle) h
    with h' | ⟨-, hq, rest, hi, -⟩ | ⟨y, -, e⟩
  · exact .inl h'
  · exact .inr ⟨hq, rest, hi⟩
  · refine .inl ?_
    rw [onBlock_toBlock, e, execFor_symbol params_ok]
    exact receive_sticky params _ h

end Sys2Proof.Machine
end

section
/-! PROOFS. The memory's statement (20_memory.md R69): which emission lists write no cell of the frame memory, and that every request
but BEGIN and drawing emits such a list. -/

namespace Sys2Proof.Machine

variable {p : Params} {ω : Oracle}

/-! ### What one event does to the cells -/

/-- A command byte but SWRESET's touches one cell at most, that of the half pixel it drops (41_addressing.md R146, R155). -/
theorem command_gram {b : Byte} (h : b ≠ p.cSwreset) (q : Panel) : (q.command p b).gram = (q.dropHalfPixel p).gram := by
  unfold Panel.command
  split_ifs
  · rfl
  · rfl
  · exact openStream_gram p (q.startCommand p)
  · rfl
  · rfl

/-- After a command byte but RAMWR's the panel half is not in `STREAM` (41_addressing.md R146, R151). -/
theorem command_rxmode_ne_stream {b : Byte} (h : b ≠ p.cRamwr) (q : Panel) : (q.command p b).rxmode ≠ .stream := by
  unfold Panel.command
  split_ifs <;> simp [Panel.caset, Panel.paset, Panel.madctlCommand, Panel.swreset, Panel.otherCommand]

/-- Outside `STREAM` a data byte writes no cell and leaves the mode (41_addressing.md R145). -/
theorem dataByte_outside {q : Panel} (b : Byte) (h : q.rxmode ≠ .stream) :
    (q.dataByte p b).gram = q.gram ∧ (q.dataByte p b).rxmode = q.rxmode := by
  show (q.takeByte p b).gram = q.gram ∧ (q.takeByte p b).rxmode = q.rxmode
  cases hm : q.rxmode with
  | stream => exact absurd hm h
  | idle => simp [Panel.takeByte, hm]
  | pOther => simp [Panel.takeByte, hm]
  | pMadctl =>
    simp only [Panel.takeByte, hm, Panel.madctlByte]
    split <;> simp [hm]
  | pCaset =>
    simp only [Panel.takeByte, hm, Panel.casetByte]
    repeat' split
    all_goals simp [hm]
  | pPaset =>
    simp only [Panel.takeByte, hm, Panel.pasetByte]
    repeat' split
    all_goals simp [hm]

/-- Outside `STREAM` no event but SWRESET writes a cell: no half pixel is there to lose (41_addressing.md R155). -/
theorem receive_gram_outside {q : Panel} {e : Event} (h : q.rxmode ≠ .stream) (he : e ≠ .cmd p.cSwreset) :
    (q.receive p e).gram = q.gram := by
  cases e with
  | cmd b =>
    have hd : q.dropHalfPixel p = q := by simp [Panel.dropHalfPixel, h]
    rw [Panel.receive, command_gram (by simpa using he), hd]
  | data b => exact (dataByte_outside b h).1
  | delay ms => rfl

/-- RAMWR alone enters `STREAM` (41_addressing.md R151). -/
theorem receive_rxmode_ne_stream {q : Panel} {e : Event} (h : q.rxmode ≠ .stream) (he : e ≠ .cmd p.cRamwr) :
    (q.receive p e).rxmode ≠ .stream := by
  cases e with
  | cmd b => exact command_rxmode_ne_stream (by simpa using he) q
  | data b => exact (dataByte_outside b h).2.symm ▸ h
  | delay ms => exact h

/-! ### Emission lists that write no cell -/

/-- An emission list that writes no cell: it begins with a command, so that no byte of it completes a pixel held before it, it holds
no SWRESET, and after RAMWR nothing follows. -/
structure WritesNoCell (p : Params) (es : List Event) : Prop where
  command_first : ∀ e ∈ es.head?, ∃ b, e = .cmd b
  no_swreset : .cmd p.cSwreset ∉ es
  ramwr_last : .cmd p.cRamwr ∉ es.dropLast

theorem writesNoCell_nil (p : Params) : WritesNoCell p [] := ⟨by simp, by simp, by simp⟩

/-- What is delivered of such a list when a transmit fails is such a list. -/
theorem WritesNoCell.of_prefix {fs es : List Event} (h : WritesNoCell p es) (hp : fs <+: es) : WritesNoCell p fs where
  command_first e he := h.command_first e (by
    obtain ⟨gs, rfl⟩ := hp
    exact List.mem_head?_append_of_mem_head? he)
  no_swreset hm := h.no_swreset (hp.mem hm)
  ramwr_last hm := h.ramwr_last (by
    obtain ⟨gs, rfl⟩ := hp
    cases gs with
    | nil => simpa using hm
    | cons g gs =>
      rw [List.dropLast_append_of_ne_nil (by simp)]
      exact List.mem_append_left _ (List.mem_of_mem_dropLast hm))

theorem cSwreset_ne (hp : p.Ok) :
    p.cSwreset ≠ p.cCaset ∧ p.cSwreset ≠ p.cPaset ∧ p.cSwreset ≠ p.cRamwr ∧ p.cSwreset ≠ p.cMadctl := by
  have h := hp.commands_distinct
  simp only [Params.commandBytes, List.nodup_cons, List.mem_cons, not_or] at h
  tauto

theorem cRamwr_ne (hp : p.Ok) : p.cRamwr ≠ p.cCaset ∧ p.cRamwr ≠ p.cPaset ∧ p.cRamwr ≠ p.cMadctl := by
  have h := hp.commands_distinct
  simp only [Params.commandBytes, List.nodup_cons, List.mem_cons, not_or] at h
  tauto

/-- SET_ROTATION's list: the MADCTL command and its byte (43_rotation.md R210). -/
theorem rotationEvents_writesNoCell (hp : p.Ok) (r : Rot) : WritesNoCell p (rotationEvents p r) where
  command_first := by simp [rotationEvents]
  no_swreset := by simp [rotationEvents, cSwreset_ne hp]
  ramwr_last := by simp [rotationEvents, cRamwr_ne hp]

/-- SET_ADDR_WINDOW's list: the window's two pairs, then RAMWR (41_addressing.md R140, R141). -/
theorem addrWindow_writesNoCell (hp : p.Ok) (a b c d : Int) : WritesNoCell p (addrWindow p a b c d) where
  command_first := by simp [addrWindow]
  no_swreset := by simp [addrWindow, coordinateBytes, cSwreset_ne hp]
  ramwr_last := by simp [addrWindow, coordinateBytes, cRamwr_ne hp]

/-- Every operation but BEGIN and drawing emits a list that writes no cell. -/
theorem emissionOf_writesNoCell (hp : p.Ok) {i : Instr} (hd : i.draws = false) (hb : i ≠ .begin) (s : Block) :
    WritesNoCell p (emissionOf p i s) := by
  cases i with
  | begin => exact absurd rfl hb
  | setRotation m => exact rotationEvents_writesNoCell hp _
  | setAddrWindow x0 y0 x1 y1 => exact addrWindow_writesNoCell hp _ _ _ _
  | drawPixel | fillRect | fillScreen | drawFastHLine | drawFastVLine => cases hd
  | _ => exact writesNoCell_nil p

/-! ### What a list does to the cells -/

/-- Received outside `STREAM`, a list without SWRESET in which RAMWR can only come last leaves every cell. -/
theorem afterEvents_gram_outside {es : List Event} {q : Panel} (hs : .cmd p.cSwreset ∉ es) (hr : .cmd p.cRamwr ∉ es.dropLast)
    (h : q.rxmode ≠ .stream) : (q.afterEvents p es).gram = q.gram := by
  induction es generalizing q with
  | nil => rfl
  | cons e es ih =>
    rw [List.mem_cons, not_or] at hs
    have hg := receive_gram_outside h (Ne.symm hs.1)
    by_cases hes : es = []
    · subst hes
      exact hg
    · rw [List.dropLast_cons_of_ne_nil hes, List.mem_cons, not_or] at hr
      exact (ih hs.2 hr.2 (receive_rxmode_ne_stream h (Ne.symm hr.1))).trans hg

/-- From any panel half, a list that writes no cell leaves `GRAM`, or leaves it as its first command does (decision D26). -/
theorem WritesNoCell.afterEvents_gram {es : List Event} (h : WritesNoCell p es) (q : Panel) :
    (q.afterEvents p es).gram = q.gram ∨ (q.afterEvents p es).gram = (q.dropHalfPixel p).gram := by
  cases es with
  | nil => exact .inl rfl
  | cons e es =>
    right
    obtain ⟨b, rfl⟩ := h.command_first e rfl
    have hb : b ≠ p.cSwreset := fun hb => h.no_swreset (hb ▸ List.mem_cons_self)
    rw [afterEvents_cons, ← command_gram hb]
    by_cases hes : es = []
    · subst hes
      rfl
    · have hr := h.ramwr_last
      rw [List.dropLast_cons_of_ne_nil hes, List.mem_cons, not_or] at hr
      have hs : .cmd p.cSwreset ∉ es := fun hm => h.no_swreset (List.mem_cons_of_mem _ hm)
      exact afterEvents_gram_outside hs hr.2 (command_rxmode_ne_stream (by simpa [eq_comm] using hr.1) q)

/-- A request but BEGIN takes the panel half through the front of its emission list that is delivered: all of it, or what stands
before the first failing byte, or, refused, nothing. -/
theorem execForRequest_panel {r : Req} (hb : decodeRequest r ≠ .begin) (s : Block) :
    ∃ fs, fs <+: emissionOf p (decodeRequest r) s ∧ (execFor p ω (decodeRequest r) s).panel = s.panel.afterEvents p fs := by
  rcases decodeRequest_cases r with h | h | ⟨x, y, z, h⟩ | h
  · exact absurd h hb
  · rw [execFor_transmits s h]
    generalize emissionOf p (decodeRequest r) s = es
    rcases whenReady_cases (fun t => perform p ω es (commitOf (decodeRequest r)) (abortOf (decodeRequest r)) t) s
      with ⟨-, e⟩ | ⟨-, e⟩ <;> rw [e]
    · rcases perform_cases p ω es (commitOf (decodeRequest r)) (abortOf (decodeRequest r)) s with e | ⟨k, -, -, e⟩ <;> rw [e]
      · exact ⟨es, List.prefix_refl es, by simp⟩
      · obtain ⟨gs, hgs⟩ := beforeByte_append_rest k es
        exact ⟨beforeByte k es, ⟨gs, hgs.symm⟩, by simp⟩
    · exact ⟨[], List.nil_prefix, rfl⟩
  · rw [h]
    exact ⟨[], List.nil_prefix, rfl⟩
  · simp only [List.mem_cons, List.not_mem_nil, or_false] at h
    rcases h with h | h | h | h | h | h | h <;> rw [h] <;> exact ⟨[], List.nil_prefix, rfl⟩

/-- Settles O30: what such a request delivers is the front of a list that writes no cell. It is so with `PFAULT` set too. -/
theorem onlyDrawingAndBeginWriteCells : Obligations.OnlyDrawingAndBeginWriteCells := by
  intro r s t hd hb h _
  rw [exec_eq] at h
  injection h with h
  subst h
  obtain ⟨fs, hfs, hpanel⟩ := execForRequest_panel (p := params) (ω := s.oracle) hb s.toBlock
  have hw := (emissionOf_writesNoCell params_ok hd hb s.toBlock).of_prefix hfs
  rw [onBlock_toBlock, hpanel]
  rcases hw.afterEvents_gram s.panel with hg | hg <;> rw [hg]
  · exact .inl fun _ => rfl
  · by_cases hx : s.panel.pixhi = none
    · rw [dropHalfPixel_none params hx]
      exact .inl fun _ => rfl
    · exact .inr ⟨hx, fun _ => rfl⟩

end Sys2Proof.Machine
end

section
/-! PROOFS. The encoding's statements (30_encoding.md): the operation table and the command bytes, the round trip of the encoding, and
the answer to a request. -/

namespace Sys2Proof.Machine

variable {p : Params} {ω : Oracle}

/-! ### Host requests (30_encoding.md R90, R92) -/

/-- Settles O1: the operation code picks the branch of the decoder, which reads the row's fields off the assembled request. -/
theorem requestsDecodeByTheOperationTable : Obligations.RequestsDecodeByTheOperationTable := by
  intro a0 a1 a2 a3 k
  simp only [decodeRequest, assemble_op, assemble_a0, assemble_a1, assemble_a2, assemble_a3, assemble_color]
  exact ⟨rfl, rfl, rfl, rfl, rfl, rfl, rfl, rfl, rfl, rfl, rfl, rfl, rfl, rfl, rfl, rfl⟩

/-- A request never decodes to a wire symbol's row, the one kind of row that can be ill formed. -/
theorem decodeRequest_wellFormed (p : Params) (r : Req) : WellFormedFor p (decodeRequest r) = true := by
  unfold decodeRequest
  split <;> rfl

/-! ### Wire symbols (30_encoding.md R94, R95, R99) -/

/-- The eight command bytes that the block's rules name, each with its row (30_encoding.md R95). -/
def commandRows (p : Params) : List (Byte × Instr) :=
  [(p.cSwreset, .wSwreset), (p.cSetextc, .wSetextc), (p.cSlpout, .wSlpout), (p.cDispon, .wDispon),
   (p.cCaset, .wCaset), (p.cPaset, .wPaset), (p.cRamwr, .wRamwr), (p.cMadctl, .wMadctl)]

theorem commandRows_bytes (p : Params) : (commandRows p).map Prod.fst = p.commandBytes := rfl

theorem byte_mem_of_commandRows {b : Byte} {i : Instr} (h : (b, i) ∈ commandRows p) : b ∈ p.commandBytes :=
  commandRows_bytes p ▸ List.mem_map_of_mem (f := Prod.fst) h

/-- A command byte decodes to a row it is listed with, or to W_OTHER where it is none of the eight (30_encoding.md R99). -/
theorem decodeCommand_cases (p : Params) (b : Byte) :
    (b, decodeCommand p b) ∈ commandRows p ∨ (b ∉ p.commandBytes ∧ decodeCommand p b = .wOther b) := by
  unfold decodeCommand
  split_ifs <;> simp [commandRows, Params.commandBytes, *]

/-- The command bytes being distinct, each decodes to the one row it is listed with. -/
theorem decodeCommand_of_mem (hp : p.Ok) {b : Byte} {i : Instr} (h : (b, i) ∈ commandRows p) : decodeCommand p b = i := by
  rcases decodeCommand_cases p b with hrow | ⟨hb, -⟩
  · have hd := commandRows_bytes p ▸ hp.commands_distinct
    exact congrArg Prod.snd (List.inj_on_of_nodup_map hd hrow h rfl)
  · exact absurd (byte_mem_of_commandRows h) hb

theorem decodeCommand_other {b : Byte} (hb : b ∉ p.commandBytes) : decodeCommand p b = .wOther b := by
  rcases decodeCommand_cases p b with hrow | ⟨-, h⟩
  · exact absurd (byte_mem_of_commandRows hrow) hb
  · exact h

/-- A named row is encoded as the command symbol of its byte, and it is well formed. -/
theorem commandRows_encode {b : Byte} {i : Instr} (h : (b, i) ∈ commandRows p) :
    encodeFor p i = .symbol (commandSymbol b) ∧ WellFormedFor p i = true := by
  simp only [commandRows, List.mem_cons, Prod.mk.injEq, List.not_mem_nil, or_false] at h
  rcases h with ⟨rfl, rfl⟩ | ⟨rfl, rfl⟩ | ⟨rfl, rfl⟩ | ⟨rfl, rfl⟩ | ⟨rfl, rfl⟩ | ⟨rfl, rfl⟩ | ⟨rfl, rfl⟩ | ⟨rfl, rfl⟩ <;>
    exact ⟨rfl, rfl⟩

theorem encodeFor_decodeCommand (p : Params) (b : Byte) : encodeFor p (decodeCommand p b) = .symbol (commandSymbol b) := by
  rcases decodeCommand_cases p b with hrow | ⟨-, h⟩
  · exact (commandRows_encode hrow).1
  · rw [h, encodeFor]

theorem decodeCommand_wellFormed (p : Params) (b : Byte) : WellFormedFor p (decodeCommand p b) = true := by
  rcases decodeCommand_cases p b with hrow | ⟨hb, h⟩
  · exact (commandRows_encode hrow).2
  · simpa [h, WellFormedFor] using hb

@[simp] theorem decodeSymbol_commandSymbol (p : Params) (b : Byte) : decodeSymbol p (commandSymbol b) = decodeCommand p b := by
  simp [decodeSymbol]

@[simp] theorem decodeSymbol_dataSymbol (p : Params) (b : Byte) : decodeSymbol p (dataSymbol b) = .wData b := by
  simp [decodeSymbol]

/-- Bit 8 of a symbol and its byte give the symbol back. -/
theorem symbol_toNat (y : Sym) : y.toNat = (if Sym.dc y then 256 else 0) + (Sym.byte y).toNat := by
  have hy := y.isLt
  simp only [Sym.dc, Sym.byte, BitVec.getLsbD, Nat.testBit_eq_decide_div_mod_eq, BitVec.extractLsb'_toNat, decide_eq_true_eq]
  split <;> omega

/-- A symbol with `dc = 1` is the data symbol of its byte, any other the command symbol of its byte. -/
theorem symbol_cases (y : Sym) : (∃ b, y = dataSymbol b) ∨ ∃ b, y = commandSymbol b := by
  have h := symbol_toNat y
  split at h
  · exact .inl ⟨Sym.byte y, by rw [dataSymbol, ← h, BitVec.ofNat_toNat, BitVec.setWidth_eq]⟩
  · exact .inr ⟨Sym.byte y, by rw [commandSymbol, ← Nat.zero_add (Sym.byte y).toNat, ← h, BitVec.ofNat_toNat, BitVec.setWidth_eq]⟩

/-- Settles O2: the eight named bytes by their rows, any other byte by W_OTHER, a data byte by W_DATA. -/
theorem symbolsDecodeByTheCommandTable : Obligations.SymbolsDecodeByTheCommandTable := by
  intro p b hp
  simp only [decodeSymbol_commandSymbol, decodeSymbol_dataSymbol]
  have row {b : Byte} {i : Instr} : (b, i) ∈ commandRows p → decodeCommand p b = i := decodeCommand_of_mem hp
  refine ⟨row ?_, row ?_, row ?_, row ?_, row ?_, row ?_, row ?_, row ?_, decodeCommand_other, trivial⟩ <;> simp [commandRows]

/-! ### The round trip (30_encoding.md R103) -/

theorem encodeFor_decodeSymbol (p : Params) (y : Sym) : encodeFor p (decodeSymbol p y) = .symbol y := by
  rcases symbol_cases y with ⟨b, rfl⟩ | ⟨b, rfl⟩
  · rw [decodeSymbol_dataSymbol, encodeFor]
  · rw [decodeSymbol_commandSymbol, encodeFor_decodeCommand]

theorem decodeSymbol_wellFormed (p : Params) (y : Sym) : WellFormedFor p (decodeSymbol p y) = true := by
  unfold decodeSymbol
  split
  · rfl
  · exact decodeCommand_wellFormed p _

/-- Settles O4: a symbol is a data or a command symbol, and a command symbol is that of the row its byte decodes to. -/
theorem symbolsReencodeAndDecodedTermsAreWellFormed : Obligations.SymbolsReencodeAndDecodedTermsAreWellFormed := by
  refine fun p => ⟨encodeFor_decodeSymbol p, fun c => ?_⟩
  cases c with
  | request r => exact decodeRequest_wellFormed p r
  | symbol y => exact decodeSymbol_wellFormed p y

/-- A named row's code word decodes to that row. -/
theorem decodeFor_encodeFor_of_mem (hp : p.Ok) {i : Instr} (h : i ∈ (commandRows p).map Prod.snd) :
    decodeFor p (encodeFor p i) = i := by
  obtain ⟨⟨b, i⟩, hrow, rfl⟩ := List.mem_map.mp h
  rw [(commandRows_encode hrow).1, decodeFor, decodeSymbol_commandSymbol, decodeCommand_of_mem hp hrow]

/-- Settles O3: a request's row by its operation code, a named command's by its byte, W_OTHER's by its byte being none of the eight. -/
theorem decodeOfEncodeIsIdentity : Obligations.DecodeOfEncodeIsIdentity := by
  intro p hp i hi
  cases i with
  | begin | setRotation | setAddrWindow | drawPixel | fillRect | fillScreen | drawFastHLine | drawFastVLine | color565
  | reserved9 | reserved10 | reserved11 | reserved12 | reserved13 | reserved14 | reserved15 =>
    simp [encodeFor, decodeFor, decodeRequest]
  | wSwreset | wSetextc | wSlpout | wDispon | wCaset | wPaset | wRamwr | wMadctl =>
    exact decodeFor_encodeFor_of_mem hp (by simp [commandRows])
  | wOther b =>
    have hb : b ∉ p.commandBytes := by simpa [WellFormedFor] using hi
    rw [encodeFor, decodeFor, decodeSymbol_commandSymbol, decodeCommand_other hb]
  | wData b => rw [encodeFor, decodeFor, decodeSymbol_dataSymbol]

/-- Settles O5: each word is run through the decoder; the command bytes are the defaults in force. -/
theorem writtenOutWordsDecode : Obligations.WrittenOutWordsDecode :=
  ⟨by decide, by decide, by decide, by decide, by decide, by decide⟩

/-! ### Responses (30_encoding.md R91) -/

/-- Settles O20: the status code stands above the value's sixteen bits; the codes are those of 60_exceptions.md R230. -/
theorem responseWordCarriesStatusAndValue : Obligations.ResponseWordCarriesStatusAndValue := by
  refine ⟨fun r => ⟨?_, ?_⟩, rfl, rfl, rfl, rfl, rfl, rfl⟩
  · rw [Response.word, BitVec.extractLsb'_append_eq_left]
  · rw [Response.word, BitVec.extractLsb'_append_eq_right]

/-- The block `t` has given one response more than `s`: the value `v`, under a status other than INVALID_GEOMETRY (60_exceptions.md
R234). -/
def Block.AnsweredWith (s t : Block) (v : Word) : Prop :=
  ∃ st, st ≠ .invalidGeometry ∧ t.responses = s.responses ++ [⟨st, v⟩]

/-- An operation past its checks is answered with the value 0, whether its list is delivered or cut. -/
theorem perform_answered (i : Instr) (es : List Event) (s : Block) :
    s.AnsweredWith (perform p ω es (commitOf i) (abortOf i) s) 0 := by
  rcases perform_cases p ω es (commitOf i) (abortOf i) s with e | ⟨k, -, -, e⟩ <;> rw [e]
  · exact ⟨.ok, by decide, by simp⟩
  · exact ⟨.transmitFailure, by decide, by simp⟩

theorem raise_answered {st : Status} (h : st ≠ .invalidGeometry) (s : Block) : s.AnsweredWith (raise st s) 0 :=
  ⟨st, h, rfl⟩

theorem begin_answered (s : Block) : s.AnsweredWith (execFor p ω .begin s) 0 := by
  rw [execFor, runBegin]
  rcases openBegin_cases ω (perform p ω (beginEvents p) (setLife .ready) (setLife .failed)) s
    with ⟨-, e⟩ | ⟨-, e⟩ | ⟨-, -, e⟩ | ⟨-, -, e⟩ <;> rw [e]
  · exact raise_answered (by decide) s
  · exact perform_answered .begin _ s
  · exact perform_answered .begin _ s.consume
  · exact raise_answered (by decide) (setLife .failed s.consume)

theorem transmits_answered {i : Instr} (h : i.transmits = true) (s : Block) : s.AnsweredWith (execFor p ω i s) 0 := by
  rw [execFor_transmits s h]
  rcases whenReady_cases (perform p ω (emissionOf p i s) (commitOf i) (abortOf i)) s with ⟨-, e⟩ | ⟨-, e⟩ <;> rw [e]
  · exact perform_answered i _ s
  · exact raise_answered (by decide) s

/-- Reserved codes are refused, whatever the state (60_exceptions.md R236). -/
theorem execFor_reserved {i : Instr}
    (h : i ∈ [Instr.reserved9, .reserved10, .reserved11, .reserved12, .reserved13, .reserved14, .reserved15]) (s : Block) :
    execFor p ω i s = raise .illegalOp s := by
  simp only [List.mem_cons, List.not_mem_nil, or_false] at h
  rcases h with rfl | rfl | rfl | rfl | rfl | rfl | rfl <;> rfl

/-- Settles O22: ILLEGAL_OP is raised in every state, and taking an error changes no more. -/
theorem reservedCodesAnswerIllegalOp : Obligations.ReservedCodesAnswerIllegalOp := by
  intro s i hi
  rw [exec_eq, State.onBlock, execFor_reserved hi]
  rfl

/-- Every request is answered once; a value other than 0 is COLOR565's. -/
theorem execForRequest_answered (r : Req) (s : Block) :
    ∃ v, s.AnsweredWith (execFor p ω (decodeRequest r) s) v ∧ ((∀ x y z, decodeRequest r ≠ .color565 x y z) → v = 0) := by
  rcases decodeRequest_cases r with h | h | ⟨x, y, z, h⟩ | h
  · exact ⟨0, h ▸ begin_answered s, fun _ => rfl⟩
  · exact ⟨0, transmits_answered h s, fun _ => rfl⟩
  · exact ⟨packColor565 x y z, ⟨.ok, by decide, by rw [h]; rfl⟩, fun hc => absurd h (hc x y z)⟩
  · exact ⟨0, execFor_reserved (p := p) (ω := ω) h s ▸ raise_answered (by decide) s, fun _ => rfl⟩

/-- Settles O18: a request ends in its one response; a symbol is a step of the panel half, which answers nothing. -/
theorem everyRequestIsAnsweredOnce : Obligations.EveryRequestIsAnsweredOnce := by
  refine ⟨fun r s => ?_, fun y s => ⟨_, exec_eq _ s, ?_⟩⟩
  · obtain ⟨v, ⟨st, hst, hr⟩, hv⟩ := execForRequest_answered (p := params) (ω := s.oracle) r s.toBlock
    exact ⟨_, ⟨st, v⟩, exec_eq _ s, hr, execForRequest_idle r s.toBlock, hst, hv⟩
  · rw [decode, decodeFor, onBlock_toBlock, execFor_symbol params_ok]
    exact ⟨rfl, rfl⟩

end Sys2Proof.Machine
end

section
/-! PROOFS. The initialisation's statements (40_init.md): FAILED is terminal but for a power-up, what BEGIN does, and what the whole
boot sequence makes of the panel half. -/

namespace Sys2Proof.Machine

variable {p : Params} {ω : Oracle}

/-! ### FAILED (40_init.md R127, 60_exceptions.md R244) -/

theorem openBegin_failed {s : Block} (body : Block → Block) (h : s.life = .failed) : openBegin ω body s = raise .notReady s := by
  simp only [openBegin, h]

theorem whenReady_failed {s : Block} (body : Block → Block) (h : s.life = .failed) : whenReady body s = raise .notReady s :=
  if_neg (by simp [h])

/-- In FAILED a request, run in one step, is a response and nothing else. -/
theorem execForRequest_failed (r : Req) {s : Block} (h : s.life = .failed) :
    ∃ st v, execFor p ω (decodeRequest r) s = respond st v s := by
  rcases decodeRequest_cases r with e | e | ⟨x, y, z, e⟩ | e
  · exact ⟨.notReady, 0, e ▸ openBegin_failed _ h⟩
  · exact ⟨.notReady, 0, (execFor_transmits s e).trans (whenReady_failed _ h)⟩
  · exact ⟨.ok, packColor565 x y z, e ▸ rfl⟩
  · exact ⟨.illegalOp, 0, execFor_reserved e s⟩

/-- As `execForRequest_failed`, for the one-event reading: in FAILED no request is latched. -/
theorem startByEvents_failed (r : Req) {s : Block} (h : s.life = .failed) :
    ∃ st v, startByEvents p ω r s = respond st v s := by
  rcases startByEvents_cases p ω r s with ⟨-, e⟩ | ⟨-, e⟩ | e <;> rw [e]
  · exact ⟨.notReady, 0, openBegin_failed _ h⟩
  · exact ⟨.notReady, 0, whenReady_failed _ h⟩
  · exact execForRequest_failed r h

/-- No operation is in progress in FAILED: the one that was has ended with the failure. -/
theorem seq_idle_of_failed {s : Block} (hq : s.SeqOk p) (h : s.life = .failed) : s.seq = .idle := by
  cases hs : s.seq with
  | idle => rfl
  | busy r i => simp [Block.SeqOk, hs, h] at hq

/-- In FAILED, with no test bench acting, a step takes a power-up, waits, or takes an input and answers it. -/
theorem stepFor_failed {s : Block} (hb : s.bench = none) (hq : s.SeqOk p) (h : s.life = .failed) :
    (∃ rest, s.program = .powerUp :: rest) ∨ stepFor p ω s = s ∨
    ∃ rest st v, stepFor p ω s = respond st v { s with program := rest } := by
  have hidle := seq_idle_of_failed hq h
  cases hi : s.program with
  | nil => exact .inr (.inl (stepFor_waits hb hidle hi))
  | cons inp rest =>
    rw [stepFor_input hb hidle hi]
    cases inp with
    | powerUp => exact .inl ⟨rest, rfl⟩
    | present r => exact .inr (.inr ⟨rest, execForRequest_failed r h⟩)
    | byEvents r => exact .inr (.inr ⟨rest, startByEvents_failed r h⟩)

/-- Settles O16: no operation is in progress in FAILED, and an input but a power-up is answered and changes nothing. -/
theorem failedIsLeftByPowerUpOnly : Obligations.FailedIsLeftByPowerUpOnly := by
  intro s t hb hinv hst hl
  obtain rfl := step_iff.mp hst
  rw [onBlock_toBlock]
  rcases stepFor_failed (ω := s.oracle) hb hinv.seq_ok hl with h | e | ⟨rest, st, v, e⟩
  · exact .inl h
  · rw [e]
    exact .inr ⟨hl, rfl, rfl⟩
  · rw [e]
    exact .inr ⟨hl, rfl, rfl⟩

/-! ### BEGIN (40_init.md R120 to R127) -/

/-- BEGIN in FAILED (decision D13). -/
theorem exec_begin_failed {s : State} (hl : s.life = .failed) : exec .begin s = .next (s.onBlock (raise .notReady)) := by
  rw [exec_eq, State.onBlock, execFor, runBegin, openBegin_failed _ hl]
  rfl

/-- BEGIN in UNBEGUN, the transport not acquired (40_init.md R121). -/
theorem exec_begin_unavailable {s : State} (hl : s.life = .unbegun) (ha : s.answerAt 0 = false) :
    exec .begin s = .next (s.onBlock fun b => raise .transportUnavailable (setLife .failed b.consume)) := by
  have hω : s.answer s.oracle = false := ha
  simp only [exec_eq, State.onBlock, execFor, runBegin, openBegin, hl, hω, Bool.false_eq_true, if_false]

/-- Settles O25: the checks by `LIFE` and the acquisition; past them the emission list is delivered, or cut at its first failing byte. -/
theorem beginRunsTheBootSequence : Obligations.BeginRunsTheBootSequence := by
  intro s u es hes
  obtain rfl : es = beginEvents params := hes
  refine ⟨exec_begin_failed, exec_begin_unavailable, fun hu => ?_⟩
  have hopen := exec_begin_opens hu
  have kept : u.responses = s.responses ∧ u.rot = s.rot ∧ u.width = s.width ∧ u.height = s.height := by
    rcases hu with ⟨-, -, rfl⟩ | ⟨-, rfl⟩ <;> exact ⟨rfl, rfl, rfl, rfl⟩
  obtain ⟨hresponses, hrot, hwidth, hheight⟩ := kept
  refine ⟨fun hs => ?_, fun k hk hf => ⟨_, hopen, ?_⟩⟩
  · rw [hopen, State.onBlock, perform_succeeds hs, ← hresponses]
    rfl
  · rw [onBlock_toBlock, perform_fails hk hf]
    simp [hresponses, hrot, hwidth, hheight]

/-! ### The panel half during the boot sequence (40_init.md R125) -/

/-- The panel half as after a panel reset but for its mode, the count of the bytes it received since the last command, and `MADCTL`:
what it is all through the boot sequence. -/
def Panel.blank (mode : RxMode) (count : Nat) (madctl : Option Byte) : Panel :=
  { Panel.reset with rxmode := mode, pidx := count, madctl := madctl }

section
variable (p) (mode : RxMode) (k : Nat) (m : Option Byte)

/-- With no half pixel held, a command clears the count of the bytes and nothing else of a blank panel half. -/
theorem startCommand_blank : (Panel.blank mode k m).startCommand p = Panel.blank mode 0 m := by
  rw [Panel.startCommand, dropHalfPixel_none p rfl]
  rfl

theorem otherCommand_blank : (Panel.blank mode k m).otherCommand p = Panel.blank .pOther 0 m := by
  rw [Panel.otherCommand, startCommand_blank]
  rfl

theorem madctlCommand_blank : (Panel.blank mode k m).madctlCommand p = Panel.blank .pMadctl 0 none := by
  rw [Panel.madctlCommand, startCommand_blank]
  rfl

/-- `P_OTHER` counts data bytes and absorbs them (41_addressing.md R157). -/
theorem dataBytes_blank (bs : List Byte) :
    (Panel.blank .pOther k m).afterEvents p (bs.map .data) = Panel.blank .pOther (k + bs.length) m := by
  induction bs generalizing k with
  | nil => rfl
  | cons b bs ih =>
    rw [List.map_cons, afterEvents_cons, List.length_cons, Nat.add_comm bs.length, ← Nat.add_assoc]
    exact ih (k + 1)

end

/-- SWRESET blanks a panel half without a fault (41_addressing.md R156, decision D29). -/
theorem swreset_blank {q : Panel} (p : Params) (hq : q.Wf) (hf : q.pfault = false) :
    q.swreset p = Panel.blank .pOther 0 none := by
  have h : (q.dropHalfPixel p).pfault = false := (dropHalfPixel_wf p hq).1.trans hf
  simp [Panel.swreset, h, Panel.blank, Panel.reset]

/-- The five commands that the receiver tells apart (41_addressing.md R146). -/
abbrev receiverCommands (p : Params) : List Byte := [p.cCaset, p.cPaset, p.cRamwr, p.cMadctl, p.cSwreset]

/-- SETEXTC, SLPOUT and DISPON are no commands that the receiver knows (41_addressing.md R157). -/
theorem otherNamed_not_receiverCommand (hp : p.Ok) :
    p.cSetextc ∉ receiverCommands p ∧ p.cSlpout ∉ receiverCommands p ∧ p.cDispon ∉ receiverCommands p := by
  have h := hp.commands_distinct
  simp only [Params.commandBytes, List.nodup_cons, List.mem_cons, List.not_mem_nil, or_false, not_or] at h
  simp only [List.mem_cons, List.not_mem_nil, or_false, not_or]
  simp [h, eq_comm]

theorem receive_otherCommand_blank (hp : p.Ok) {b : Byte} (hb : b ∉ receiverCommands p) (mode : RxMode) (k : Nat)
    (m : Option Byte) :
    (Panel.blank mode k m).receive p (.cmd b) = Panel.blank .pOther 0 m := by
  obtain ⟨-, -, -, -, -, other⟩ := command_cases hp (Panel.blank mode k m)
  exact (other b hb).trans (otherCommand_blank p mode k m)

/-- Writes of the tuning table with commands that the receiver does not know leave `MADCTL`. -/
theorem otherEntries_blank (hp : p.Ok) {table : List InitEntry}
    (ht : ∀ e ∈ table, e.command ∉ receiverCommands p) (mode : RxMode) (k : Nat) (m : Option Byte) :
    ∃ mode' k', (Panel.blank mode k m).afterEvents p (table.flatMap entryEvents) = Panel.blank mode' k' m := by
  induction table generalizing mode k with
  | nil => exact ⟨mode, k, rfl⟩
  | cons e table ih =>
    obtain ⟨he, ht⟩ := List.forall_mem_cons.mp ht
    rw [List.flatMap_cons, afterEvents_append, entryEvents, afterEvents_cons, receive_otherCommand_blank hp he, dataBytes_blank]
    exact ih ht _ _

/-- The write of one MADCTL byte (41_addressing.md R159). -/
theorem madctlEntry_blank (hp : p.Ok) {e : InitEntry} {b : Byte} (hc : e.command = p.cMadctl) (hd : e.data = [b])
    (mode : RxMode) (k : Nat) (m : Option Byte) :
    (Panel.blank mode k m).afterEvents p (entryEvents e) = Panel.blank .pMadctl 1 (some b) := by
  obtain ⟨-, -, -, madctl, -, -⟩ := command_cases hp (Panel.blank mode k m)
  rw [entryEvents, hc, hd, afterEvents_cons, Panel.receive, madctl, madctlCommand_blank]
  rfl

/-- The tuning table holds one MADCTL write, of the byte for rotation 0, among writes with commands that the receiver does not know
(40_init.md R124, constraints 3 and 4). -/
theorem initTable_split (hp : p.Ok) :
    ∃ before e after, p.initTable = before ++ e :: after ∧ e.command = p.cMadctl ∧ e.data = [p.madctlTable 0] ∧
      ∀ f ∈ before ++ after, f.command ∉ receiverCommands p := by
  obtain ⟨e, he, hpair⟩ := List.map_eq_singleton_iff.mp hp.madctl_entry
  obtain ⟨before, after, htable, hbefore, hc, hafter⟩ := List.filter_eq_cons_iff.mp he
  refine ⟨before, e, after, htable, by simpa using hc, congrArg Prod.snd hpair, fun f hf => ?_⟩
  have hne : f.command ≠ p.cMadctl := by
    rcases List.mem_append.mp hf with hf | hf
    · simpa using hbefore f hf
    · simpa using List.filter_eq_nil_iff.mp hafter f hf
  have hquiet := hp.init_quiet f (htable ▸ List.mem_append.mpr ((List.mem_append.mp hf).imp_right (List.mem_cons_of_mem e)))
  simp only [List.mem_cons, List.not_mem_nil, or_false, not_or] at hquiet ⊢
  tauto

/-- The whole tuning table leaves a blank panel half blank, `MADCTL` holding the byte for rotation 0. -/
theorem initTable_blank (hp : p.Ok) (mode : RxMode) (k : Nat) (m : Option Byte) :
    ∃ mode' k', (Panel.blank mode k m).afterEvents p (p.initTable.flatMap entryEvents) =
      Panel.blank mode' k' (some (p.madctlTable 0)) := by
  obtain ⟨before, e, after, htable, hc, hd, hother⟩ := initTable_split hp
  obtain ⟨hbefore, hafter⟩ := List.forall_mem_append.mp hother
  obtain ⟨mode₁, k₁, h₁⟩ := otherEntries_blank hp hbefore mode k m
  rw [htable, List.flatMap_append, List.flatMap_cons, afterEvents_append, h₁, afterEvents_append, madctlEntry_blank hp hc hd]
  exact otherEntries_blank hp hafter _ _ _

/-- The panel half after the whole boot sequence. -/
theorem afterEvents_beginEvents (hp : p.Ok) {q : Panel} (hq : q.Wf) (hf : q.pfault = false) :
    q.afterEvents p (beginEvents p) = Panel.blank .pOther 0 (some (p.madctlTable 0)) := by
  obtain ⟨-, -, -, -, swreset, -⟩ := command_cases hp q
  obtain ⟨setextc, slpout, dispon⟩ := otherNamed_not_receiverCommand hp
  have reset : q.receive p (.cmd p.cSwreset) = Panel.blank .pOther 0 none := swreset.trans (swreset_blank p hq hf)
  have delay (r : Panel) (ms : Nat) : r.receive p (.delay ms) = r := rfl
  obtain ⟨mode, k, htable⟩ := initTable_blank hp .pOther (0 + unlockBytes.length) none
  simp only [beginEvents, afterEvents_append, afterEvents_cons, afterEvents_nil, reset, delay, dataBytes_blank, htable,
    receive_otherCommand_blank hp setextc, receive_otherCommand_blank hp slpout, receive_otherCommand_blank hp dispon]

/-- Settles O26: SWRESET blanks the panel half, the one MADCTL write of the tuning table sets the orientation, no other write does. -/
theorem bootSequenceLeavesThePanelAtOrientationZero : Obligations.BootSequenceLeavesThePanelAtOrientationZero := by
  intro p q hp hq hf
  rw [afterEvents_beginEvents hp hq hf]
  exact ⟨rfl, orientationOf_table hp 0⟩

end Sys2Proof.Machine
end

section
/-! PROOFS. The addressing window's statements (41_addressing.md): the window's events and their sending, every symbol as a step of the
receiver, RAMWR's checks, the half pixel, the data bytes by the mode, and the window and fill lemmas. -/

namespace Sys2Proof.Machine

variable {p : Params}

/-! ### The events of a window (41_addressing.md R140, R141) -/

/-- `lo16` is the word congruent to the integer modulo 65536 (00_scope.md R6). -/
theorem lo16_eq_of_mod {i : Int} {v : Word} (h : (v.toNat : Int) = i % 65536) : lo16 i = v := by
  apply BitVec.eq_of_toNat_eq
  rw [lo16, BitVec.toNat_ofInt, show (2 ^ 16 : Nat) = 65536 from rfl]
  omega

/-- Settles O32: the list is that of the statements' spelling, at the words congruent to the four integers. -/
theorem addrWindowIsElevenEvents : Obligations.AddrWindowIsElevenEvents := by
  intro p a b c d A B C D ha hb hc hd
  rw [addrWindow_eq, lo16_eq_of_mod ha, lo16_eq_of_mod hb, lo16_eq_of_mod hc, lo16_eq_of_mod hd]
  rfl

/-- SET_ADDR_WINDOW emits its four arguments as given (41_addressing.md R140, decision D20). -/
theorem emissionOf_setAddrWindow (x0 y0 x1 y1 : Word) (s : Block) :
    emissionOf p (.setAddrWindow x0 y0 x1 y1) s = windowEvents p x0 y0 x1 y1 := by
  rw [emissionOf, addrWindow_eq, lo16_zext16, lo16_zext16, lo16_zext16, lo16_zext16]

/-- Settles O33: the three ways an operation that transmits can end, its list being the window of its arguments. -/
theorem setAddrWindowSendsItsArguments : Obligations.SetAddrWindowSendsItsArguments := by
  intro x0 y0 x1 y1 s
  have he := emissionOf_setAddrWindow (p := params) x0 y0 x1 y1 s.toBlock
  refine ⟨fun hl => ?_, fun hl hs => ?_, fun hl k hk hf => ?_⟩
  · rw [exec_notReady rfl hl]
    rfl
  · rw [exec_succeeds rfl hl he hs]
    rfl
  · rw [exec_fails rfl hl he hk hf]
    rfl

/-- Settles O39: a delay is delivered without a question, and the receiver and the line pass it over. -/
theorem delayChangesNothingButTheTrace : Obligations.DelayChangesNothingButTheTrace := by
  intro p ω s ms
  rw [send_delay]
  rfl

/-! ### Symbols as steps of the panel half (41_addressing.md R145, R146) -/

/-- Settles O40: a decoded symbol runs the receiver's step on its event, and a delivery is that step once the event is recorded. -/
theorem everySymbolStepsTheReceiver : Obligations.EverySymbolStepsTheReceiver := by
  refine ⟨fun y s => ?_, fun p ω b s hp => ⟨?_, ?_⟩⟩
  · rw [exec_eq, State.onBlock, decode, decodeFor, execFor_symbol params_ok]
    rfl
  · exact deliver_runs_symbol hp rfl s
  · exact deliver_runs_symbol hp rfl s

/-- An instruction that is a step of the panel half changes nothing outside it. -/
theorem exec_onPanel {i : Instr} {f : Panel → Panel} {s : State} {q : Panel}
    (hi : execFor params s.oracle i s.toBlock = s.toBlock.onPanel f) (h : f s.panel = q) :
    exec i s = .next { s with panel := q } := by
  rw [exec_eq, State.onBlock, hi, ← h]
  rfl

/-- Settles O41: each command's step, written out over the common part of a command. -/
theorem windowCommandsInvalidateTheirPair : Obligations.WindowCommandsInvalidateTheirPair :=
  fun _ => ⟨exec_onPanel rfl rfl, exec_onPanel rfl rfl⟩

/-- Settles O43: each command's step, written out over the common part of a command. -/
theorem madctlAndResetCommandsForget : Obligations.MadctlAndResetCommandsForget :=
  fun _ => ⟨exec_onPanel rfl rfl, exec_onPanel rfl rfl⟩

/-- Settles O44: the four rows run one step, which reads no command byte. -/
theorem otherCommandsOnlyEndTheStream : Obligations.OtherCommandsOnlyEndTheStream := by
  rintro s i (rfl | rfl | rfl | ⟨b, rfl, -⟩) <;> exact exec_onPanel rfl rfl

/-! ### RAMWR (41_addressing.md R151) -/

/-- The stricter reading finds a window out where no known orientation holds it. -/
theorem declaredOut_iff {q : Panel} {ec ep : Word} :
    q.declaredOut p ec ep = true ↔ ∀ o, q.ori p = some o → (ext o).1 ≤ ec.toNat ∨ (ext o).2 ≤ ep.toNat := by
  unfold Panel.declaredOut
  split <;> simp [*]

/-- A window with an unspecified end faults. -/
theorem openStream_unspecified {q : Panel} (h : q.sc = none ∨ q.ec = none ∨ q.sp = none ∨ q.ep = none) :
    q.openStream p = { q with rxmode := .stream, pfault := true } := by
  unfold Panel.openStream
  split
  · next h1 h2 h3 h4 => simp [h1, h2, h3, h4] at h
  · rfl

section
variable {q : Panel} {sc ec sp ep : Word} (hsc : q.sc = some sc) (hec : q.ec = some ec) (hsp : q.sp = some sp)
  (hep : q.ep = some ep)
include hsc hec hsp hep

/-- A window with an inverted pair faults. -/
theorem openStream_inverted (h : ec.toNat < sc.toNat ∨ ep.toNat < sp.toNat) :
    q.openStream p = { q with rxmode := .stream, pfault := true } := by
  simp only [Panel.openStream, hsc, hec, hsp, hep, if_pos h]

/-- Under `STRICT_WINDOW` a window out of the extents faults (decision D27). -/
theorem openStream_outside (hout : p.strictWindow = true ∧ q.declaredOut p ec ep = true) :
    q.openStream p = { q with rxmode := .stream, pfault := true } := by
  obtain ⟨hs, hd⟩ := hout
  simp only [Panel.openStream, hsc, hec, hsp, hep, hs, hd, Bool.and_self, if_true, ite_self]

/-- Any other window is entered at its start, its area being the count. -/
theorem openStream_good (hcol : sc.toNat ≤ ec.toNat) (hrow : sp.toNat ≤ ep.toNat)
    (hin : ¬ (p.strictWindow = true ∧ q.declaredOut p ec ep = true)) :
    q.openStream p =
      { q with rxmode := .stream, cc := some sc.toNat, cr := some sp.toNat, pcnt := some (windowArea sc ec sp ep) } := by
  simp only [Panel.openStream, hsc, hec, hsp, hep]
  rw [if_neg (by omega), if_neg (by rwa [Bool.and_eq_true, and_comm])]

end

/-- Settles O42: RAMWR's three outcomes where `STRICT_WINDOW` is false, after the common part of a command. -/
theorem ramwrEntersTheStream : Obligations.RamwrEntersTheStream := by
  intro s
  have ramwr {q : Panel} (h : (s.panel.startCommand params).openStream params = q) :
      exec .wRamwr s = .next { s with panel := q } := exec_onPanel rfl h
  have lenient : params.strictWindow ≠ true := Bool.false_ne_true
  refine ⟨fun sc ec sp ep hsc hec hsp hep => ?_, fun h => ramwr (openStream_unspecified (by simpa using h))⟩
  rw [← startCommand_sc params] at hsc
  rw [← startCommand_ec params] at hec
  rw [← startCommand_sp params] at hsp
  rw [← startCommand_ep params] at hep
  exact ⟨fun hcol hrow => ramwr (openStream_good hsc hec hsp hep hcol hrow fun h => lenient h.1),
    fun h => ramwr (openStream_inverted hsc hec hsp hep h)⟩

/-- Settles O37: RAMWR's four outcomes; three of them set `PFAULT`, and the common part of a command does not. -/
theorem ramwrChecksTheWindow : Obligations.RamwrChecksTheWindow := by
  intro p q hp hq hf
  obtain ⟨-, -, ramwr, -⟩ := command_cases hp q
  rw [Panel.receive, ramwr, Panel.ramwr]
  have hf' : (q.startCommand p).pfault ≠ true := by
    rw [startCommand_pfault_wf p hq, hf]
    exact Bool.false_ne_true
  refine ⟨fun h => ?_, fun sc ec sp ep hsc hec hsp hep => ?_, openStream_rxmode p _⟩
  · rw [openStream_unspecified (by simp only [startCommand_sc, startCommand_sp]; tauto)]
  rw [← startCommand_sc p] at hsc
  rw [← startCommand_ec p] at hec
  rw [← startCommand_sp p] at hsp
  rw [← startCommand_ep p] at hep
  refine ⟨fun h => by rw [openStream_inverted hsc hec hsp hep h], fun hcol hrow => ?_⟩
  rw [← startCommand_ori p q, ← declaredOut_iff]
  by_cases hout : p.strictWindow = true ∧ (q.startCommand p).declaredOut p ec ep = true
  · rw [openStream_outside hsc hec hsp hep hout]
    exact ⟨iff_of_true rfl hout, nofun⟩
  · rw [openStream_good hsc hec hsp hep hcol hrow hout]
    exact ⟨iff_of_false hf' hout, fun _ => ⟨rfl, rfl, rfl⟩⟩

/-! ### The cell under the cursor (41_addressing.md R154, R155) -/

/-- No pixel can be placed: the count is exhausted, the orientation unknown, or the cursor out of range. -/
def Panel.NoCell (p : Params) (q : Panel) : Prop :=
  q.pcnt = some 0 ∨ q.ori p = none ∨ ∃ c r o, q.cc = some c ∧ q.cr = some r ∧ q.ori p = some o ∧ ¬ InRange o c r

theorem Panel.NoCell.not_inRange {q : Panel} {n c r : Nat} {o : Rot} (h : q.NoCell p) (hn : q.pcnt = some n)
    (hc : q.cc = some c) (hr : q.cr = some r) (ho : q.ori p = some o) : ¬ (0 < n ∧ InRange o c r) := by
  rintro ⟨hpos, hin⟩
  rcases h with h | h | ⟨c', r', o', hc', hr', ho', hout⟩
  · obtain rfl := Option.some.inj (hn.symm.trans h)
    exact absurd hpos (Nat.lt_irrefl 0)
  · exact absurd (ho.symm.trans h) (Option.some_ne_none o)
  · obtain rfl := Option.some.inj (hc.symm.trans hc')
    obtain rfl := Option.some.inj (hr.symm.trans hr')
    obtain rfl := Option.some.inj (ho.symm.trans ho')
    exact hout hin

/-- A half pixel over a cell takes the cell's value (decision D26). -/
theorem dropHalfPixel_cell {q : Panel} {n c r : Nat} {o : Rot} (hm : q.rxmode = .stream) (hx : q.pixhi ≠ none)
    (hf : q.pfault = false) (hn : q.pcnt = some (n + 1)) (hc : q.cc = some c) (hr : q.cr = some r) (ho : q.ori p = some o)
    (hin : InRange o c r) : q.dropHalfPixel p = { q with gram := memWrite q.gram (cellNumber (p.xform o c r)) none } := by
  simp only [Panel.dropHalfPixel, if_pos (show _ ∧ _ ∧ _ from ⟨hm, hx, hf⟩), hn, hc, hr, ho]
  exact if_pos ⟨n.succ_pos, hin⟩

/-- A half pixel over no cell takes nothing. -/
theorem dropHalfPixel_noCell {q : Panel} (h : q.NoCell p) : (q.dropHalfPixel p).gram = q.gram := by
  unfold Panel.dropHalfPixel
  split
  · split
    · next n c r hn hc hr =>
      split
      · next o ho => exact congrArg Panel.gram (if_neg (h.not_inRange hn hc hr ho))
      · rfl
    · rfl
  · rfl

theorem openStream_pixhi (q : Panel) : (q.openStream p).pixhi = q.pixhi := by
  unfold Panel.openStream
  repeat' split
  all_goals rfl

/-- Every command byte empties the latch (41_addressing.md R146). -/
theorem command_pixhi (b : Byte) (q : Panel) : (q.command p b).pixhi = none := by
  unfold Panel.command
  split_ifs
  · rfl
  · rfl
  · exact openStream_pixhi (q.startCommand p)
  · rfl
  · rfl
  · rfl

/-- RAMWR and SWRESET alone write the cursor and the count. -/
theorem command_cursor {b : Byte} (hs : b ≠ p.cSwreset) (hr : b ≠ p.cRamwr) (q : Panel) :
    (q.command p b).cc = q.cc ∧ (q.command p b).cr = q.cr ∧ (q.command p b).pcnt = q.pcnt := by
  simp only [Panel.command, if_neg hs, if_neg hr]
  split_ifs <;> simp [Panel.caset, Panel.paset, Panel.madctlCommand, Panel.otherCommand]

/-- Settles O38: what a command byte does to the cells is what dropping the half pixel does. -/
theorem danglingHalfPixelLosesItsCell : Obligations.DanglingHalfPixelLosesItsCell := by
  intro p q b hp hq hf hb
  rw [Panel.receive, command_gram hb]
  refine ⟨fun hi n c r o hm hx hn hc hr ho hin => ?_, fun hi _ _ h => dropHalfPixel_noCell h,
    fun hx => by rw [dropHalfPixel_none p hx], fun hr => command_cursor hb hr q, command_pixhi b q⟩
  rw [dropHalfPixel_cell hm (by simp [hx]) hf hn hc hr ho hin]
  exact ⟨memRead_memWrite_same _ none hq.gram_wf, fun a ha => memRead_memWrite_other none ha⟩

/-! ### Data bytes outside `STREAM` (41_addressing.md R148 to R150, R157 to R159) -/

section
variable {q : Panel} (b : Byte)

theorem dataByte_idle (hm : q.rxmode = .idle) : q.dataByte p b = { q with pidx := q.pidx + 1, pfault := true } := by
  simp only [Panel.dataByte, Panel.takeByte, hm, fault_eq]

theorem dataByte_other (hm : q.rxmode = .pOther) : q.dataByte p b = { q with pidx := q.pidx + 1 } := by
  simp only [Panel.dataByte, Panel.takeByte, hm]

theorem dataByte_madctl (hm : q.rxmode = .pMadctl) : q.dataByte p b = { q.madctlByte b with pidx := q.pidx + 1 } := by
  simp only [Panel.dataByte, Panel.takeByte, hm]

theorem dataByte_caset (hm : q.rxmode = .pCaset) : q.dataByte p b = { q.casetByte b with pidx := q.pidx + 1 } := by
  simp only [Panel.dataByte, Panel.takeByte, hm]

theorem dataByte_paset (hm : q.rxmode = .pPaset) : q.dataByte p b = { q.pasetByte b with pidx := q.pidx + 1 } := by
  simp only [Panel.dataByte, Panel.takeByte, hm]

end

/-- The first byte joined is the high one (30_encoding.md R96). -/
theorem joinBytes_toNat (a b : Byte) : (joinBytes a b).toNat = a.toNat * 256 + b.toNat := by
  rw [joinBytes, BitVec.toNat_append, ← Nat.shiftLeft_add_eq_or_of_lt b.isLt, Nat.shiftLeft_eq]

theorem joinBytes_of_toNat {a b : Byte} {v : Word} (h : v.toNat = a.toNat * 256 + b.toNat) : joinBytes a b = v :=
  BitVec.eq_of_toNat_eq ((joinBytes_toNat a b).trans h.symm)

/-- Settles O45: in either window mode, the branch that `PIDX` picks. -/
theorem windowParametersAreReassembled : Obligations.WindowParametersAreReassembled := by
  intro s b
  refine ⟨fun hm hi => exec_onPanel rfl ?_, fun b0 b1 b2 first last hi hb hfirst hlast => ?_⟩
  · rcases hm with hm | hm
    · rw [dataByte_caset b hm, Panel.casetByte, if_pos hi]
    · rw [dataByte_paset b hm, Panel.pasetByte, if_pos hi]
  · have hfirst := joinBytes_of_toNat hfirst
    have hlast := joinBytes_of_toNat hlast
    refine ⟨fun hm => exec_onPanel rfl ?_, fun hm => exec_onPanel rfl ?_⟩
    · simp [dataByte_caset b hm, Panel.casetByte, hi, hb, hfirst, hlast]
    · simp [dataByte_paset b hm, Panel.pasetByte, hi, hb, hfirst, hlast]

/-- Settles O46: each mode's branch for the byte. -/
theorem dataByteOutsideTheStream : Obligations.DataByteOutsideTheStream := by
  intro s b
  refine ⟨fun hm => exec_onPanel rfl (dataByte_idle b hm), fun hm => exec_onPanel rfl (dataByte_other b hm),
    fun hm hi => exec_onPanel rfl ?_, fun hm hi => exec_onPanel rfl ?_, fun hm hi => exec_onPanel rfl ?_⟩
  · rw [dataByte_madctl b hm, Panel.madctlByte, if_pos hi, hi]
  · rw [dataByte_madctl b hm, Panel.madctlByte, if_neg hi, fault_eq]
  · have hlt : ¬ s.panel.pidx < 3 := by omega
    have hne : s.panel.pidx ≠ 3 := by omega
    rcases hm with hm | hm
    · rw [dataByte_caset b hm, Panel.casetByte, if_neg hlt, if_neg hne, fault_eq]
    · rw [dataByte_paset b hm, Panel.pasetByte, if_neg hlt, if_neg hne, fault_eq]

/-! ### Data bytes in `STREAM` (41_addressing.md R152 to R154) -/

/-- A cell reads the word written to it, whatever the memory. -/
theorem memRead_memWrite_some (m : Memory) (a : Nat) (v : Word) : memRead (memWrite m a (some v)) a = some v := by
  induction m with
  | nil => simp [memWrite, memRead]
  | cons x m ih =>
    obtain ⟨c, w⟩ := x
    simp only [memWrite]
    split_ifs with hlt heq
    · simp [memRead]
    · simp [memRead]
    · simp [memRead, heq, ih]

/-- A pixel with a cell under the cursor is written, and the cursor goes on row-major. -/
theorem pixel_written {q : Panel} {n c r : Nat} {sc ec : Word} {o : Rot} (pix : Word) (hf : q.pfault = false)
    (hn : q.pcnt = some (n + 1)) (hc : q.cc = some c) (hr : q.cr = some r) (hsc : q.sc = some sc) (hec : q.ec = some ec)
    (ho : q.ori p = some o) (hin : InRange o c r) :
    q.pixel p pix = { q with
      gram := memWrite q.gram (cellNumber (p.xform o c r)) (some pix), pcnt := some n
      cc := some (if c = ec.toNat then sc.toNat else c + 1), cr := some (if c = ec.toNat then r + 1 else r) } := by
  simp only [Panel.pixel, hf, Bool.false_eq_true, if_false, hn, hc, hr, ho, if_pos hin, Panel.advance, hsc, hec]
  split_ifs <;> rfl

/-- A pixel with no cell under the cursor faults. -/
theorem pixel_noCell {q : Panel} (pix : Word) (hf : q.pfault = false) (h : q.NoCell p) : q.pixel p pix = q.fault := by
  unfold Panel.pixel
  rw [if_neg (by simp [hf])]
  split
  · next n c r o hn hc hr ho => exact if_neg fun hin => h.not_inRange hn hc hr ho ⟨n.succ_pos, hin⟩
  · rfl

/-- After a fault a pixel changes nothing (log 12). -/
theorem pixel_faulted {q : Panel} (pix : Word) (hf : q.pfault = true) : q.pixel p pix = q := by
  simp [Panel.pixel, hf]

theorem dataByte_latches {q : Panel} (b : Byte) (hm : q.rxmode = .stream) (hx : q.pixhi = none) :
    q.dataByte p b = { q with pixhi := some b, pidx := q.pidx + 1 } := by
  simp only [Panel.dataByte, Panel.takeByte, Panel.streamByte, hm, hx]

theorem dataByte_pixel {q : Panel} {hi : Byte} (b : Byte) (hm : q.rxmode = .stream) (hx : q.pixhi = some hi) :
    q.dataByte p b = Panel.pixel p (joinBytes hi b) { q with pixhi := none, pidx := q.pidx + 1 } := by
  simp only [Panel.dataByte, Panel.takeByte, Panel.streamByte, hm, hx, pixel_pidx]

/-- Settles O47: the byte is latched, or completes a pixel, which is written, faults, or comes after a fault. -/
theorem dataByteInTheStream : Obligations.DataByteInTheStream := by
  intro s b hm
  refine ⟨fun hx => exec_onPanel rfl (dataByte_latches b hm hx), fun hi n c r sc ec o hx hf hn hc hr hsc hec ho hin => ?_,
    fun hi hx hf h => exec_onPanel rfl ?_, fun hi hx hf => exec_onPanel rfl ?_⟩
  · refine ⟨_, exec_onPanel rfl ?_, memRead_memWrite_some s.panel.gram _ _, fun a ha => memRead_memWrite_other (some _) ha⟩
    exact (dataByte_pixel b hm hx).trans (pixel_written _ hf hn hc hr hsc hec ho hin)
  · exact (dataByte_pixel b hm hx).trans (pixel_noCell _ hf h)
  · exact (dataByte_pixel b hm hx).trans (pixel_faulted _ hf)

/-! ### The window lemma (41_addressing.md R161) -/

theorem lo16_toNat {i : Int} (h0 : 0 ≤ i) (h1 : i ≤ 65535) : (lo16 i).toNat = i.toNat := by
  rw [lo16, BitVec.toNat_ofInt]
  omega

theorem windowArea_lo16 {a b c d : Int} (ha : 0 ≤ a) (hac : a ≤ c) (hc : c ≤ 65535) (hb : 0 ≤ b) (hbd : b ≤ d)
    (hd : d ≤ 65535) :
    windowArea (lo16 a) (lo16 c) (lo16 b) (lo16 d) = ((c - a + 1) * (d - b + 1)).toNat := by
  rw [windowArea, lo16_toNat ha (by omega), lo16_toNat (by omega) hc, lo16_toNat hb (by omega), lo16_toNat (by omega) hd,
    Int.toNat_mul (by omega) (by omega)]
  congr 1 <;> omega

@[simp] theorem declared_ori (a b c d : Word) (q : Panel) : (q.declared p a b c d).ori p = q.ori p :=
  dropHalfPixel_ori p q

/-- Settles O34: both pairs declared, RAMWR finds a good window. -/
theorem windowDeclarationSetsTheWindow : Obligations.WindowDeclarationSetsTheWindow := by
  intro p q a b c d hp hq hf ha hac hc hb hbd hd hstrict
  have toNat_a := lo16_toNat ha (by omega)
  have toNat_b := lo16_toNat hb (by omega)
  have toNat_c := lo16_toNat (by omega) hc
  have toNat_d := lo16_toNat (by omega) hd
  have hin : ¬ (p.strictWindow = true ∧
      (q.declared p (lo16 a) (lo16 b) (lo16 c) (lo16 d)).declaredOut p (lo16 c) (lo16 d) = true) := by
    rintro ⟨hs, hout⟩
    obtain ⟨o, ho, hoc, hod⟩ := hstrict hs
    have := declaredOut_iff.mp hout o ((declared_ori ..).trans ho)
    omega
  rw [afterEvents_addrWindow hp, openStream_good rfl rfl rfl rfl (by omega) (by omega) hin,
    windowArea_lo16 ha hac hc hb hbd hd, toNat_a, toNat_b]
  exact ⟨rfl, (dropHalfPixel_wf p hq).1.trans hf⟩

/-! ### The fill lemma (41_addressing.md R162) -/

/-- The number of columns of a window. -/
def windowWidth (a c : Word) : Nat := c.toNat - a.toNat + 1

/-- The window's position number `k`, row-major, is in range. -/
def WindowInRange (o : Rot) (a b c : Word) (k : Nat) : Prop :=
  InRange o (a.toNat + k % windowWidth a c) (b.toNat + k / windowWidth a c)

/-- The number of the cell of the window's position number `k`, row-major. -/
def windowCell (p : Params) (o : Rot) (a b c : Word) (k : Nat) : Nat :=
  cellNumber (p.xform o (a.toNat + k % windowWidth a c) (b.toNat + k / windowWidth a c))

/-- Two positions of a window have two cells. -/
theorem windowCell_inj (hp : p.Ok) {o : Rot} {a b c : Word} {i j : Nat} (hi : WindowInRange o a b c i)
    (hj : WindowInRange o a b c j) (h : windowCell p o a b c i = windowCell p o a b c j) : i = j := by
  have hcell := cellNumber_inj (hp.xform_in _ _ _ hi).1 (hp.xform_in _ _ _ hj).1 h
  obtain ⟨hcol, hrow⟩ := hp.xform_inj _ _ _ _ _ hi hj hcell
  rw [← Nat.mod_add_div i (windowWidth a c), ← Nat.mod_add_div j (windowWidth a c), Nat.add_left_cancel hcol,
    Nat.add_left_cancel hrow]

/-- One position further on in a row of `w`. -/
theorem rowMajor_succ {w k : Nat} (h : k % w + 1 < w) : (k + 1) / w = k / w ∧ (k + 1) % w = k % w + 1 := by
  have := Nat.mod_add_div k w
  exact (Nat.div_mod_unique (by omega)).mpr ⟨by omega, h⟩

/-- From the end of a row of `w` to the start of the next. -/
theorem rowMajor_wrap {w k : Nat} (h : k % w + 1 = w) : (k + 1) / w = k / w + 1 ∧ (k + 1) % w = 0 := by
  have := Nat.mod_add_div k w
  exact (Nat.div_mod_unique (by omega)).mpr ⟨by rw [Nat.mul_add]; omega, by omega⟩

/-- The cursor's advance goes from position `k` to position `k + 1` (41_addressing.md R153). -/
theorem cursor_succ {a c : Word} (hac : a.toNat ≤ c.toNat) (b : Word) (k : Nat) :
    (if a.toNat + k % windowWidth a c = c.toNat then a.toNat else a.toNat + k % windowWidth a c + 1) =
      a.toNat + (k + 1) % windowWidth a c ∧
    (if a.toNat + k % windowWidth a c = c.toNat then b.toNat + k / windowWidth a c + 1 else b.toNat + k / windowWidth a c) =
      b.toNat + (k + 1) / windowWidth a c := by
  have hw : windowWidth a c = c.toNat - a.toNat + 1 := rfl
  have hlt := Nat.mod_lt k (show 0 < windowWidth a c by omega)
  split_ifs with hend
  · obtain ⟨hdiv, hmod⟩ := rowMajor_wrap (w := windowWidth a c) (k := k) (by omega)
    exact ⟨by rw [hmod]; rfl, by rw [hdiv]; rfl⟩
  · obtain ⟨hdiv, hmod⟩ := rowMajor_succ (w := windowWidth a c) (k := k) (by omega)
    exact ⟨by rw [hmod]; rfl, by rw [hdiv]⟩

/-- In `STREAM` without a fault, `k` pixels of the window placed and no half pixel held: the cursor is at position `k`. -/
structure Panel.Placed (p : Params) (o : Rot) (a b c : Word) (area k : Nat) (q : Panel) : Prop where
  mode : q.rxmode = .stream
  no_fault : q.pfault = false
  no_half : q.pixhi = none
  orientation : q.ori p = some o
  first_column : q.sc = some a
  last_column : q.ec = some c
  column : q.cc = some (a.toNat + k % windowWidth a c)
  row : q.cr = some (b.toNat + k / windowWidth a c)
  left : q.pcnt = some (area - k)

/-- One colour word is written to the cell of the position, and the next position is reached. -/
theorem placed_pushColor {o : Rot} {a b c : Word} {area k : Nat} {q : Panel} (hq : q.Placed p o a b c area k)
    (hac : a.toNat ≤ c.toNat) (hk : k < area) (hin : WindowInRange o a b c k) (v : Word) :
    (q.afterEvents p (pushColor v)).Placed p o a b c area (k + 1) ∧
    (q.afterEvents p (pushColor v)).gram = memWrite q.gram (windowCell p o a b c k) (some v) := by
  obtain ⟨mode, no_fault, no_half, orientation, first_column, last_column, column, row, left⟩ := hq
  obtain ⟨hcolumn, hrow⟩ := cursor_succ hac b k
  rw [show area - k = area - (k + 1) + 1 by omega] at left
  rw [afterEvents_pushColor mode no_half,
    pixel_written (q := { q with pidx := q.pidx + 2 }) v no_fault left column row first_column last_column orientation hin]
  exact ⟨⟨mode, no_fault, no_half, orientation, first_column, last_column, congrArg some hcolumn, congrArg some hrow, rfl⟩, rfl⟩

/-- A list of colour words fills the window from its start: each word stands in the cell of its position, and no other cell changes. -/
theorem placed_colours (hp : p.Ok) {o : Rot} {a b c : Word} {area : Nat} {q : Panel} (hq : q.Placed p o a b c area 0)
    (hac : a.toNat ≤ c.toNat) (vs : List Word) (hlen : vs.length ≤ area) (hin : ∀ k < vs.length, WindowInRange o a b c k) :
    (q.afterEvents p (vs.flatMap pushColor)).Placed p o a b c area vs.length ∧
    (∀ k (h : k < vs.length), memRead (q.afterEvents p (vs.flatMap pushColor)).gram (windowCell p o a b c k) = some vs[k]) ∧
    (∀ n, (∀ k < vs.length, n ≠ windowCell p o a b c k) →
      memRead (q.afterEvents p (vs.flatMap pushColor)).gram n = memRead q.gram n) := by
  induction vs using List.reverseRecOn with
  | nil => exact ⟨hq, fun k h => absurd h (Nat.not_lt_zero k), fun _ _ => rfl⟩
  | append_singleton vs v ih =>
    have hl : (vs ++ [v]).length = vs.length + 1 := by simp
    obtain ⟨placed, written, kept⟩ := ih (by omega) fun k hk => hin k (by omega)
    obtain ⟨placed', hgram⟩ := placed_pushColor placed hac (by omega) (hin vs.length (by omega)) v
    rw [List.flatMap_append, List.flatMap_singleton, afterEvents_append, hgram]
    refine ⟨hl ▸ placed', fun k hk => ?_, fun n hn => ?_⟩
    · by_cases hlast : k = vs.length
      · subst hlast
        rw [memRead_memWrite_some, List.getElem_concat_length rfl]
      · have hne : windowCell p o a b c k ≠ windowCell p o a b c vs.length := fun h =>
          hlast (windowCell_inj hp (hin k hk) (hin vs.length (by omega)) h)
        rw [memRead_memWrite_other _ hne, written k (by omega), List.getElem_append_left]
    · rw [memRead_memWrite_other _ (hn vs.length (by omega)), kept n fun k hk => hn k (by omega)]

/-- Settles O35: from position 0, by induction on the words sent, the last one being the newest. -/
theorem colourWordsFillTheWindowRowMajor : Obligations.ColourWordsFillTheWindowRowMajor := by
  intro p q o a b c d vs hp hm hf hx ho hsc hec hsp hep hac hbd hcc hcr hpc hlen hin
  have start : q.Placed p o a b c (windowArea a c b d) 0 :=
    ⟨hm, hf, hx, ho, hsc, hec, by rw [hcc, Nat.zero_mod]; rfl, by rw [hcr, Nat.zero_div]; rfl, hpc⟩
  obtain ⟨placed, written, kept⟩ := placed_colours hp start hac vs hlen hin
  exact ⟨written, kept, placed.left, placed.no_fault⟩

/-! ### A drawing forgets the earlier window (41_addressing.md R163) -/

/-- The panel half with another cursor and another count. -/
def Panel.withCursor (cc cr pcnt : Option Nat) (q : Panel) : Panel := { q with cc := cc, cr := cr, pcnt := pcnt }

/-- Entering `STREAM` overwrites the cursor and the count, or it faults whatever they are. -/
theorem openStream_withCursor (cc cr pcnt : Option Nat) (q : Panel) :
    (q.withCursor cc cr pcnt).openStream p = q.openStream p ∨
    ((q.withCursor cc cr pcnt).openStream p).pfault = true ∧ (q.openStream p).pfault = true := by
  have hd (ec ep : Word) : (q.withCursor cc cr pcnt).declaredOut p ec ep = q.declaredOut p ec ep := rfl
  simp only [Panel.openStream, hd]
  simp only [Panel.withCursor]
  split
  · split_ifs
    · exact .inr ⟨rfl, rfl⟩
    · exact .inr ⟨rfl, rfl⟩
    · exact .inl rfl
  · exact .inr ⟨rfl, rfl⟩

/-- Both pairs declared, of the earlier state only the cursor and the count are left, `MADCTL`, `PFAULT` and the cells apart. -/
theorem declared_eq_withCursor {q q' : Panel} (hq : q.Wf) (hq' : q'.Wf) (hm : q.madctl = q'.madctl)
    (hf : q.pfault = q'.pfault) (hg : (q.dropHalfPixel p).gram = (q'.dropHalfPixel p).gram) (a b c d : Word) :
    q.declared p a b c d = (q'.declared p a b c d).withCursor q.cc q.cr q.pcnt := by
  have hf' : (q.dropHalfPixel p).pfault = (q'.dropHalfPixel p).pfault := by
    rw [(dropHalfPixel_wf p hq).1, (dropHalfPixel_wf p hq').1, hf]
  simp [Panel.declared, Panel.withCursor, hm, hf', hg]

/-- No list of events clears `PFAULT` (10_state.md R35). -/
theorem afterEvents_sticky (es : List Event) {q : Panel} (h : q.pfault = true) : (q.afterEvents p es).pfault = true :=
  afterEvents_induction (P := fun q => q.pfault = true) (fun _ e => receive_sticky p e) es h

/-- Settles O36: after the window the two panel halves are equal, or both have faulted and stay so. -/
theorem drawingForgetsTheEarlierWindow : Obligations.DrawingForgetsTheEarlierWindow := by
  intro p q q' a b c d vs hp hq hq' hm hf hg
  rw [afterEvents_append, afterEvents_append, afterEvents_addrWindow hp, afterEvents_addrWindow hp,
    declared_eq_withCursor hq hq' hm hf hg]
  rcases openStream_withCursor (p := p) q.cc q.cr q.pcnt (q'.declared p (lo16 a) (lo16 b) (lo16 c) (lo16 d)) with h | ⟨h, h'⟩
  · rw [h]
    exact ⟨rfl, fun _ => rfl⟩
  · have hfault := afterEvents_sticky (p := p) (vs.flatMap pushColor) h
    exact ⟨hfault.trans (afterEvents_sticky _ h').symm, fun hclear => absurd hfault (by simp [hclear])⟩

end Sys2Proof.Machine
end

section
/-! PROOFS. The drawing statements (42_drawing.md): COLOR565, the clipping engine, the lists that the five drawing operations emit, what
the panel half paints of them, and that no part of them faults it or changes its orientation. -/

namespace Sys2Proof.Machine

variable {p : Params}

/-! ### COLOR565 (42_drawing.md R188, R191) -/

/-- The formula keeps the top 5, 6 and 5 bits, in that order. -/
theorem packColor565_eq (r g b : Byte) :
    packColor565 r g b = r.extractLsb' 3 5 ++ g.extractLsb' 2 6 ++ b.extractLsb' 3 5 := by
  apply BitVec.eq_of_getLsbD_eq
  intro i hi
  rw [BitVec.getLsbD_append, BitVec.getLsbD_append]
  interval_cases i <;> simp [packColor565]

/-- The three fields of the packed word as numbers. -/
theorem packColor565_toNat (r g b : Byte) :
    (packColor565 r g b).toNat = r.toNat / 8 * 2048 + g.toNat / 4 * 32 + b.toNat / 8 := by
  have hr := r.isLt
  have hg := g.isLt
  have hb := b.isLt
  rw [packColor565_eq, BitVec.toNat_append, BitVec.toNat_append, ← Nat.shiftLeft_add_eq_or_of_lt (BitVec.isLt _),
    ← Nat.shiftLeft_add_eq_or_of_lt (BitVec.isLt _)]
  simp only [BitVec.extractLsb'_toNat, Nat.shiftLeft_eq, Nat.shiftRight_eq_div_pow]
  omega

/-- The formula on numbers: no bit of it is above bit 15. -/
theorem packColor565_formula (r g b : Byte) :
    (packColor565 r g b).toNat = (((r.toNat &&& 0xF8) <<< 8) ||| ((g.toNat &&& 0xFC) <<< 3) ||| (b.toNat >>> 3)) := by
  have hr : r.toNat &&& 0xF8 ≤ 0xF8 := Nat.and_le_right
  have hg : g.toNat &&& 0xFC ≤ 0xFC := Nat.and_le_right
  have widened (c : Byte) : (c.setWidth 16).toNat = c.toNat :=
    BitVec.toNat_setWidth_of_le (by decide)
  have hr' : (r.toNat &&& 0xF8) <<< 8 < 2 ^ 16 := by rw [Nat.shiftLeft_eq]; omega
  have hg' : (g.toNat &&& 0xFC) <<< 3 < 2 ^ 16 := by rw [Nat.shiftLeft_eq]; omega
  simp only [packColor565, BitVec.toNat_or, BitVec.toNat_shiftLeft, BitVec.toNat_and, BitVec.toNat_ushiftRight, widened]
  rw [show (0xF8#16).toNat = 0xF8 from rfl, show (0xFC#16).toNat = 0xFC from rfl, Nat.mod_eq_of_lt hr', Nat.mod_eq_of_lt hg']

/-- Settles O58: the packed word is both the three fields in order and the formula's number. -/
theorem color565PacksTheTopBits : Obligations.Color565PacksTheTopBits := by
  intro r g b s
  rw [← packColor565_eq]
  exact ⟨exec_eq (.color565 r g b) s, packColor565_formula r g b⟩

/-- Settles O59: the word is read as a number, whose three fields are the channels' quotients. -/
theorem color565IsMonotoneAndOnto : Obligations.Color565IsMonotoneAndOnto := by
  refine ⟨fun r r' g g' b b' hr hg hb => ?_, fun r r' g g' b b' hr hg hb => ?_, fun v => ?_⟩
  · rw [BitVec.le_def] at hr hg hb ⊢
    rw [packColor565_toNat, packColor565_toNat]
    omega
  · apply BitVec.eq_of_toNat_eq
    rw [packColor565_toNat, packColor565_toNat, hr, hg, hb]
  · have hv := v.isLt
    refine ⟨BitVec.ofNat 8 (v.toNat / 2048 * 8), BitVec.ofNat 8 (v.toNat / 32 % 64 * 4), BitVec.ofNat 8 (v.toNat % 32 * 8),
      BitVec.eq_of_toNat_eq ?_⟩
    rw [packColor565_toNat]
    simp only [BitVec.toNat_ofNat]
    omega

/-! ### The clipping engine (42_drawing.md R182, R183) -/

/-- Every orientation has the panel's number of cells (10_state.md R42). -/
theorem ext_area (o : Rot) : (ext o).1 * (ext o).2 = 153600 := by
  revert o
  decide

/-- Either extent is at most the panel's height. -/
theorem ext_le (o : Rot) : (ext o).1 ≤ 480 ∧ (ext o).2 ≤ 480 := by
  revert o
  decide

theorem ext_pos (o : Rot) : 0 < (ext o).1 ∧ 0 < (ext o).2 := by
  revert o
  decide

/-- A rectangle, origin and size, that lies wholly inside the logical range of an orientation. -/
structure RectInside (o : Rot) (x y w h : Int) : Prop where
  left : 0 ≤ x
  top : 0 ≤ y
  wide : 1 ≤ w
  high : 1 ≤ h
  right : x + w ≤ (ext o).1
  bottom : y + h ≤ (ext o).2

/-- A size is answered for a positive size at an origin in range only, and is the least of the size asked and the room left. -/
theorem clipRect_eq_some {width height x y w h w' h' : Int} (hc : clipRect width height x y w h = some (w', h')) :
    0 ≤ x ∧ x < width ∧ 0 ≤ y ∧ y < height ∧ 0 < w ∧ 0 < h ∧ w' = min w (width - x) ∧ h' = min h (height - y) := by
  by_cases hn : x < 0 ∨ y < 0 ∨ width ≤ x ∨ height ≤ y ∨ w ≤ 0 ∨ h ≤ 0
  · simp [clipRect_none hn] at hc
  · rw [clipRect_some (by omega) (by omega) (by omega) (by omega) (by omega) (by omega), Option.some.injEq, Prod.mk.injEq] at hc
    omega

theorem clipRect_inside {o : Rot} {x y w h w' h' : Int} (hc : clipRect (ext o).1 (ext o).2 x y w h = some (w', h')) :
    RectInside o x y w' h' := by
  obtain ⟨hx, hx', hy, hy', hw, hh, hw', hh'⟩ := clipRect_eq_some hc
  constructor <;> omega

theorem RectInside.area_le {o : Rot} {x y w h : Int} (hr : RectInside o x y w h) : w * h ≤ 153600 := by
  obtain ⟨left, top, wide, high, right, bottom⟩ := hr
  calc w * h ≤ (ext o).1 * (ext o).2 := mul_le_mul (by omega) (by omega) (by omega) (by omega)
    _ = 153600 := by exact_mod_cast ext_area o

/-- Settles O52: the clip's answer lies inside, and its area is at most the panel's. -/
theorem clippedRectangleLiesInside : Obligations.ClippedRectangleLiesInside := by
  intro o x y w h w' h' hc
  have area := (clipRect_inside hc).area_le
  obtain ⟨hx, hx', hy, hy', hw, hh, hw', hh'⟩ := clipRect_eq_some hc
  omega

/-! ### The lists that the drawing operations emit (42_drawing.md R180 to R187) -/

/-- PanelState consistent, the size is the rotation's extents (10_state.md R22, R42). -/
theorem panelState_extents {s : Block} (h : s.PanelStateOk) :
    s.width.toNat = (ext s.rot).1 ∧ s.height.toNat = (ext s.rot).2 := by
  rcases Nat.mod_two_eq_zero_or_one s.rot.val with hr | hr
  · obtain ⟨hw, hh⟩ := h.1 hr
    simp [ext, hr, hw, hh]
  · obtain ⟨hw, hh⟩ := h.2 hr
    simp [ext, hr, hw, hh]

/-- The same, of the size as the drawing operations read it (42_drawing.md R190). -/
theorem panelState_sizes {s : Block} (h : s.PanelStateOk) :
    s.widthInt = (ext s.rot).1 ∧ s.heightInt = (ext s.rot).2 := by
  obtain ⟨hw, hh⟩ := panelState_extents h
  exact ⟨congrArg Nat.cast hw, congrArg Nat.cast hh⟩

/-- A window and `n` colour words: 11 byte events, and two for each word (70_reset_and_hazards.md R277). -/
theorem byteCount_windowColors (a b c d color : Word) (n : Nat) :
    byteCount (windowEvents p a b c d ++ colorEvents color n) = 11 + 2 * n := by
  rw [← pushColors_eq, byteCount_append, byteCount_windowEvents, byteCount_pushColors]

theorem lo16_toInt_succ (x : Word) : lo16 (x.toInt + 1) = x + 1 := by
  rw [lo16, BitVec.ofInt_add, BitVec.ofInt_toInt]
  rfl

theorem lo16_pred (v : Word) : lo16 ((v.toNat : Int) - 1) = v - 1 := by
  rw [lo16, sub_eq_add_neg, BitVec.ofInt_add, BitVec.sub_eq_add_neg]
  exact congrArg (· + _) (lo16_zext16 v)

section
variable {x y w h color : Word} {s : Block}

theorem emissionOf_drawPixel_rejected
    (hc : x.toInt < 0 ∨ y.toInt < 0 ∨ (s.width.toNat : Int) ≤ x.toInt ∨ (s.height.toNat : Int) ≤ y.toInt) :
    emissionOf p (.drawPixel x y color) s = [] := drawPixelEvents_none p color hc

/-- An accepted pixel's list: its 2 x 2 window and one colour word. -/
theorem emissionOf_drawPixel (hx : 0 ≤ x.toInt) (hx' : x.toInt < s.width.toNat) (hy : 0 ≤ y.toInt) (hy' : y.toInt < s.height.toNat) :
    emissionOf p (.drawPixel x y color) s =
      addrWindow p x.toInt y.toInt (x.toInt + 1) (y.toInt + 1) ++ pushColor color :=
  drawPixelEvents_some p color (by simp only [Block.widthInt, Block.heightInt, zext16, sext16]; omega)

/-- The same in the statements' own spelling. -/
theorem pixelEvents_eq (x y color : Word) : addrWindow p x.toInt y.toInt (x.toInt + 1) (y.toInt + 1) ++ pushColor color =
    windowEvents p x y (x + 1) (y + 1) ++ colorEvents color 1 := by
  rw [addrWindow_eq, lo16_toInt, lo16_toInt, lo16_toInt_succ, lo16_toInt_succ]
  rfl

theorem emissionOf_fillRect_rejected
    (hc : x.toInt < 0 ∨ y.toInt < 0 ∨ (s.width.toNat : Int) ≤ x.toInt ∨ (s.height.toNat : Int) ≤ y.toInt ∨ w.toInt ≤ 0 ∨ h.toInt ≤ 0) :
    emissionOf p (.fillRect x y w h color) s = [] := fillRectEvents_none p color hc

/-- A rectangle's list, the sizes clamped to the room left (42_drawing.md R182). -/
theorem emissionOf_fillRect {w' h' : Int} (hw' : w' = min w.toInt (s.width.toNat - x.toInt))
    (hh' : h' = min h.toInt (s.height.toNat - y.toInt)) (hx : 0 ≤ x.toInt) (hx' : x.toInt < s.width.toNat)
    (hy : 0 ≤ y.toInt) (hy' : y.toInt < s.height.toNat) (hw : 0 < w.toInt) (hh : 0 < h.toInt) :
    emissionOf p (.fillRect x y w h color) s =
      addrWindow p x.toInt y.toInt (x.toInt + w' - 1) (y.toInt + h' - 1) ++ pushColors color (w' * h').toNat := by
  subst hw' hh'
  exact fillRectEvents_some p color hx hx' hy hy' hw hh

/-- The same in the statements' own spelling. -/
theorem rectEvents_eq (x y color : Word) (c d : Int) (n : Nat) :
    addrWindow p x.toInt y.toInt c d ++ pushColors color n =
      windowEvents p x y (BitVec.ofInt 16 c) (BitVec.ofInt 16 d) ++ colorEvents color n := by
  rw [addrWindow_eq, lo16_toInt, lo16_toInt, pushColors_eq]
  rfl

end

/-- FILL_SCREEN clips nothing off, where the size is positive (42_drawing.md R185). -/
theorem fillScreenEvents_eq {width height : Word} (hw : 0 < width.toNat) (hh : 0 < height.toNat) (color : Word) :
    fillScreenEvents p width.toNat height.toNat color =
      windowEvents p 0 0 (width - 1) (height - 1) ++ colorEvents color (width.toNat * height.toNat) := by
  rw [fillScreenEvents, fillRectEvents_some p color le_rfl (by omega) le_rfl (by omega) (by omega) (by omega), addrWindow_eq,
    pushColors_eq]
  simp only [sub_zero, min_self, zero_add, lo16_pred, ← Nat.cast_mul, Int.toNat_natCast]
  rfl

/-- The screen's list, in either orientation (42_drawing.md R185). -/
theorem emissionOf_fillScreen {s : Block} (hs : s.PanelStateOk) (color : Word) :
    emissionOf p (.fillScreen color) s =
      windowEvents p 0 0 (s.width - 1) (s.height - 1) ++ colorEvents color 153600 := by
  obtain ⟨hwidth, hheight⟩ := panelState_extents hs
  obtain ⟨hw, hh⟩ := ext_pos s.rot
  have area : s.width.toNat * s.height.toNat = 153600 := by rw [hwidth, hheight, ext_area]
  exact (fillScreenEvents_eq (by omega) (by omega) color).trans (by rw [area])

theorem draws_transmits {i : Instr} (h : i.draws = true) : i.transmits = true := by
  cases i with
  | drawPixel | fillRect | fillScreen | drawFastHLine | drawFastVLine => rfl
  | _ => cases h

/-- A drawing operation commits nothing to the controller half and takes nothing back. -/
theorem draws_keep {i : Instr} (h : i.draws = true) (s : Block) : commitOf i s = s ∧ abortOf i s = s := by
  cases i with
  | drawPixel | fillRect | fillScreen | drawFastHLine | drawFastVLine => exact ⟨rfl, rfl⟩
  | _ => cases h

/-- The three ways a drawing operation can end, its list having `n` byte events (60_exceptions.md R230, R235, R241). -/
theorem exec_draws_ends {i : Instr} {s : State} {es : List Event} {n : Nat} (h : i.draws = true)
    (he : emissionOf params i s.toBlock = es) (hn : byteCount es = n) :
    (s.life ≠ .ready → exec i s = .next { s with seq := .idle, responses := s.responses ++ [⟨.notReady, 0⟩] }) ∧
    (s.life = .ready → s.Succeeds n → exec i s =
      .next { s.allDelivered params es with seq := .idle, responses := s.responses ++ [⟨.ok, 0⟩] }) ∧
    (s.life = .ready → ∀ k < n, s.FailsAt k → exec i s =
      .next { s.cutOff params k es with seq := .idle, responses := s.responses ++ [⟨.transmitFailure, 0⟩] }) := by
  subst hn
  have ht := draws_transmits h
  refine ⟨fun hl => exec_notReady ht hl, fun hl hs => ?_, fun hl k hk hf => ?_⟩
  · rw [exec_succeeds ht hl he hs, State.onBlock, (draws_keep h _).1]
    rfl
  · rw [exec_fails ht hl he hk hf, State.onBlock, (draws_keep h _).2]
    rfl

/-- Settles O49: the three ways the operation can end in READY. -/
theorem fillRectClampsAndFills : Obligations.FillRectClampsAndFills := by
  intro x y w h color s w' h' hw' hh' hl
  refine ⟨fun hc => exec_nothing rfl hl (emissionOf_fillRect_rejected hc), fun hx hx' hy hy' hw hh => ?_⟩
  obtain ⟨-, succeeds, fails⟩ := exec_draws_ends rfl
    ((emissionOf_fillRect (p := params) hw' hh' hx hx' hy hy' hw hh).trans (rectEvents_eq x y color _ _ _))
    (byteCount_windowColors ..)
  exact ⟨succeeds hl, fails hl⟩

/-- Settles O50: the three ways the operation can end. -/
theorem fillScreenSendsEveryPixel : Obligations.FillScreenSendsEveryPixel := by
  intro color s hps
  exact exec_draws_ends rfl (emissionOf_fillScreen hps color) (byteCount_windowColors ..)

/-- Settles O51: the two operations are FILL_RECT in the model, of which the clamps and the lists are known. -/
theorem linesAreOnePixelRectangles : Obligations.LinesAreOnePixelRectangles := by
  intro x y length color s
  have hline : exec (.drawFastHLine x y length color) s = exec (.fillRect x y length 1 color) s := by rw [exec_eq, exec_eq]; rfl
  have vline : exec (.drawFastVLine x y length color) s = exec (.fillRect x y 1 length color) s := by rw [exec_eq, exec_eq]; rfl
  have one : (1 : Word).toInt = 1 := by decide
  rw [hline, vline]
  refine ⟨rfl, rfl, fun hl => ⟨fun hc => ⟨?_, ?_⟩, fun hx hx' hy hy' hlen => ⟨fun n hn hs => ?_, fun n hn hs => ?_⟩⟩⟩
  · exact (fillRectClampsAndFills x y length 1 color s _ _ rfl rfl hl).1 (by omega)
  · exact (fillRectClampsAndFills x y 1 length color s _ _ rfl rfl hl).1 (by omega)
  · have rect := ((fillRectClampsAndFills x y length 1 color s n 1 hn (by omega) hl).2 hx hx' hy hy' hlen (by omega)).1
    rw [mul_one, add_sub_cancel_right, BitVec.ofInt_toInt] at rect
    exact rect hs
  · have rect := ((fillRectClampsAndFills x y 1 length color s 1 n (by omega) hn hl).2 hx hx' hy hy' (by omega) hlen).1
    rw [one_mul, add_sub_cancel_right, BitVec.ofInt_toInt] at rect
    exact rect hs

/-! ### What a drawing paints (42_drawing.md R181, R184, R185) -/

/-- The halves in step: the panel half keeps its invariant, has no fault, and reads the orientation `o`. -/
structure Panel.InStep (p : Params) (o : Rot) (q : Panel) : Prop where
  wf : q.Wf
  no_fault : q.pfault = false
  orientation : q.ori p = some o

/-- The cell (i, j) is one of the rectangle's. -/
def InRect (x y w h : Int) (i j : Nat) : Prop := x ≤ i ∧ (i : Int) < x + w ∧ y ≤ j ∧ (j : Int) < y + h

/-- A rectangle inside the logical range has its cells in range. -/
theorem RectInside.inRange {o : Rot} {x y w h : Int} (hr : RectInside o x y w h) {i j : Nat} (hij : InRect x y w h i j) :
    InRange o i j := by
  obtain ⟨left, top, wide, high, right, bottom⟩ := hr
  obtain ⟨hi, hi', hj, hj'⟩ := hij
  exact ⟨by omega, by omega⟩

/-- A rectangle's window has the rectangle's columns. -/
theorem RectInside.columns {o : Rot} {x y w h : Int} (hr : RectInside o x y w h) :
    (lo16 x).toNat ≤ (lo16 (x + w - 1)).toNat ∧ windowWidth (lo16 x) (lo16 (x + w - 1)) = w.toNat := by
  obtain ⟨left, top, wide, high, right, bottom⟩ := hr
  obtain ⟨hW, hH⟩ := ext_le o
  rw [windowWidth, lo16_toNat left (by omega), lo16_toNat (by omega) (by omega)]
  omega

/-- The places of a rectangle's rows of `w`, numbered row by row. -/
theorem rowMajor_iff {w h c r : Nat} : (c < w ∧ r < h) ↔ ∃ k < w * h, k % w = c ∧ k / w = r := by
  constructor
  · rintro ⟨hc, hr⟩
    obtain ⟨hdiv, hmod⟩ := (Nat.div_mod_unique (by omega)).mpr ⟨rfl, hc⟩
    exact ⟨c + w * r, by nlinarith, hmod, hdiv⟩
  · rintro ⟨k, hk, rfl, rfl⟩
    exact ⟨Nat.mod_lt _ (Nat.pos_of_lt_mul_right hk), Nat.div_lt_of_lt_mul hk⟩

/-- The positions of a rectangle's window are the rectangle's cells, numbered row by row. -/
theorem inRect_iff {o : Rot} {x y w h : Int} (hr : RectInside o x y w h) {i j : Nat} :
    InRect x y w h i j ↔ ∃ k < (w * h).toNat, i = (lo16 x).toNat + k % windowWidth (lo16 x) (lo16 (x + w - 1)) ∧
      j = (lo16 y).toNat + k / windowWidth (lo16 x) (lo16 (x + w - 1)) := by
  have hwidth := hr.columns.2
  obtain ⟨left, top, wide, high, right, bottom⟩ := hr
  obtain ⟨hW, hH⟩ := ext_le o
  rw [hwidth, lo16_toNat left (by omega), lo16_toNat top (by omega), Int.toNat_mul (by omega) (by omega)]
  calc InRect x y w h i j
      ↔ x.toNat ≤ i ∧ y.toNat ≤ j ∧ i - x.toNat < w.toNat ∧ j - y.toNat < h.toNat := by unfold InRect; omega
    _ ↔ x.toNat ≤ i ∧ y.toNat ≤ j ∧ ∃ k < w.toNat * h.toNat, k % w.toNat = i - x.toNat ∧ k / w.toNat = j - y.toNat := by
      rw [rowMajor_iff]
    _ ↔ _ := by
      constructor
      · rintro ⟨hi, hj, k, hk, hcol, hrow⟩
        exact ⟨k, hk, by omega, by omega⟩
      · rintro ⟨k, hk, rfl, rfl⟩
        exact ⟨Nat.le_add_right .., Nat.le_add_right .., k, hk, (Nat.add_sub_cancel_left ..).symm,
          (Nat.add_sub_cancel_left ..).symm⟩

/-- `t` is `q` with exactly a rectangle of its logical image painted, but for a dangling half pixel's cell, and without a fault. -/
structure Panel.Painted (p : Params) (o : Rot) (x y w h : Int) (color : Word) (q t : Panel) : Prop where
  no_fault : t.pfault = false
  inside : ∀ i j, InRect x y w h i j → t.image p o i j = some color
  outside : ∀ a, (∀ i j, InRect x y w h i j → a ≠ cellNumber (p.xform o i j)) →
    memRead t.gram a = memRead (q.dropHalfPixel p).gram a

/-- A rectangle's window declared, the cursor is at the rectangle's first cell and no cell but a half pixel's has changed
(41_addressing.md R161). -/
theorem placed_rect (hp : p.Ok) {o : Rot} {q : Panel} (hq : q.InStep p o) {x y w h : Int} (hr : RectInside o x y w h) :
    (q.afterEvents p (addrWindow p x y (x + w - 1) (y + h - 1))).Placed p o (lo16 x) (lo16 y) (lo16 (x + w - 1)) (w * h).toNat 0 ∧
    (q.afterEvents p (addrWindow p x y (x + w - 1) (y + h - 1))).gram = (q.dropHalfPixel p).gram := by
  obtain ⟨wf, no_fault, orientation⟩ := hq
  obtain ⟨left, top, wide, high, right, bottom⟩ := hr
  obtain ⟨hW, hH⟩ := ext_le o
  obtain ⟨hafter, hfault⟩ := windowDeclarationSetsTheWindow p q x y (x + w - 1) (y + h - 1) hp wf no_fault left (by omega)
    (by omega) top (by omega) (by omega) fun _ => ⟨o, orientation, by omega, by omega⟩
  rw [show x + w - 1 - x + 1 = w by omega, show y + h - 1 - y + 1 = h by omega] at hafter
  rw [hafter] at hfault ⊢
  exact ⟨⟨rfl, hfault, rfl, (dropHalfPixel_ori p q).trans orientation, rfl, rfl,
    by rw [lo16_toNat left (by omega), Nat.zero_mod]; rfl, by rw [lo16_toNat top (by omega), Nat.zero_div]; rfl, rfl⟩, rfl⟩

/-- A rectangle's window and one colour word for each of its cells paint the rectangle (41_addressing.md R161, R162). -/
theorem painted_rect (hp : p.Ok) {o : Rot} {q : Panel} (hq : q.InStep p o) {x y w h : Int} (hr : RectInside o x y w h)
    (color : Word) :
    q.Painted p o x y w h color (q.afterEvents p (addrWindow p x y (x + w - 1) (y + h - 1) ++ pushColors color (w * h).toNat)) := by
  obtain ⟨start, hgram⟩ := placed_rect hp hq hr
  obtain ⟨placed, written, kept⟩ := placed_colours hp start hr.columns.1 (List.replicate (w * h).toNat color)
    (by rw [List.length_replicate]) fun k hk => hr.inRange ((inRect_iff hr).mpr ⟨k, by simpa using hk, rfl, rfl⟩)
  rw [← pushColors_flatMap, ← afterEvents_append] at placed written kept
  refine ⟨placed.no_fault, fun i j hij => ?_, fun a ha => ?_⟩
  · obtain ⟨k, hk, rfl, rfl⟩ := (inRect_iff hr).mp hij
    exact (written k (by simpa using hk)).trans (by simp)
  · rw [kept a fun k hk => ha _ _ ((inRect_iff hr).mpr ⟨k, by simpa using hk, rfl, rfl⟩), hgram]

/-- FILL_RECT's list paints the clipped rectangle (42_drawing.md R184). -/
theorem painted_fillRectEvents (hp : p.Ok) {o : Rot} {q : Panel} (hq : q.InStep p o) {x y w h w' h' : Int}
    (hc : clipRect (ext o).1 (ext o).2 x y w h = some (w', h')) (color : Word) :
    q.Painted p o x y w' h' color (q.afterEvents p (fillRectEvents p (ext o).1 (ext o).2 x y w h color)) := by
  rw [fillRectEvents, hc]
  exact painted_rect hp hq (clipRect_inside hc) color

/-- The screen's list paints the whole logical range. -/
theorem painted_fillScreenEvents (hp : p.Ok) {o : Rot} {q : Panel} (hq : q.InStep p o) (color : Word) :
    q.Painted p o 0 0 (ext o).1 (ext o).2 color (q.afterEvents p (fillScreenEvents p (ext o).1 (ext o).2 color)) := by
  obtain ⟨hw, hh⟩ := ext_pos o
  refine painted_fillRectEvents hp hq ?_ color
  rw [clipRect_some le_rfl (by omega) le_rfl (by omega) (by omega) (by omega), sub_zero, sub_zero, min_self, min_self]

/-- A colour word with a cell under the cursor is written whole (41_addressing.md R152, R153). -/
theorem afterEvents_pushColor_written {q : Panel} {n c r : Nat} {sc ec : Word} {o : Rot} (hm : q.rxmode = .stream)
    (hx : q.pixhi = none) (hf : q.pfault = false) (hn : q.pcnt = some (n + 1)) (hc : q.cc = some c) (hr : q.cr = some r)
    (hsc : q.sc = some sc) (hec : q.ec = some ec) (ho : q.ori p = some o) (hin : InRange o c r) (v : Word) :
    q.afterEvents p (pushColor v) = { q with
      pidx := q.pidx + 2, gram := memWrite q.gram (cellNumber (p.xform o c r)) (some v), pcnt := some n
      cc := some (if c = ec.toNat then sc.toNat else c + 1), cr := some (if c = ec.toNat then r + 1 else r) } :=
  (afterEvents_pushColor hm hx v).trans (pixel_written v hf hn hc hr hsc hec ho hin)

/-- DRAW_PIXEL's list takes the panel half to its 2 x 2 window with one pixel placed (42_drawing.md R181, 95_test_vectors.md V311). -/
theorem afterEvents_pixel (hp : p.Ok) {o : Rot} {q : Panel} (hq : q.InStep p o) {x y : Int} (hx : 0 ≤ x) (hx' : x < (ext o).1)
    (hy : 0 ≤ y) (hy' : y < (ext o).2) (hstrict : p.strictWindow = true → x + 1 < (ext o).1 ∧ y + 1 < (ext o).2) (color : Word) :
    q.afterEvents p (addrWindow p x y (x + 1) (y + 1) ++ pushColor color) = { q.dropHalfPixel p with
      rxmode := .stream, pidx := 2, pbuf := [], pixhi := none
      sc := some (lo16 x), ec := some (lo16 (x + 1)), sp := some (lo16 y), ep := some (lo16 (y + 1))
      cc := some (x.toNat + 1), cr := some y.toNat, pcnt := some 3
      gram := memWrite (q.dropHalfPixel p).gram (cellNumber (p.xform o x.toNat y.toNat)) (some color) } := by
  obtain ⟨wf, no_fault, orientation⟩ := hq
  obtain ⟨hW, hH⟩ := ext_le o
  obtain ⟨hafter, hfault⟩ := windowDeclarationSetsTheWindow p q x y (x + 1) (y + 1) hp wf no_fault hx (by omega) (by omega)
    hy (by omega) (by omega) fun hs => ⟨o, orientation, hstrict hs⟩
  rw [hafter] at hfault
  have hcount : some ((x + 1 - x + 1) * (y + 1 - y + 1)).toNat = some (3 + 1) := by
    rw [show x + 1 - x + 1 = 2 by omega, show y + 1 - y + 1 = 2 by omega]
    rfl
  have hne : x.toNat ≠ (lo16 (x + 1)).toNat := by rw [lo16_toNat (by omega) (by omega)]; omega
  rw [afterEvents_append, hafter]
  refine (afterEvents_pushColor_written rfl rfl hfault hcount rfl rfl rfl rfl ((dropHalfPixel_ori p q).trans orientation)
    ⟨by omega, by omega⟩ color).trans ?_
  rw [show BitVec.ofInt 16 (x + 1) = lo16 (x + 1) from rfl, if_neg hne, if_neg hne]
  rfl

theorem exec_succeeds_panel {i : Instr} {s : State} {es : List Event} (h : i.transmits = true) (hl : s.life = .ready)
    (he : emissionOf params i s.toBlock = es) (hs : s.Succeeds (byteCount es)) :
    ∃ t, exec i s = .next t ∧ t.panel = s.panel.afterEvents params es := ⟨_, exec_succeeds h hl he hs, by simp⟩

/-- Settles O53: the clipped rectangle is painted, lying inside the logical range. -/
theorem fillRectPaintsItsRectangle : Obligations.FillRectPaintsItsRectangle := by
  intro x y w h color s w' h' hps hwf hl hf ho hx hx' hy hy' hw hh hw' hh' hs
  obtain ⟨hwidth, hheight⟩ := panelState_extents hps
  obtain ⟨t, ht, hpanel⟩ := exec_succeeds_panel rfl hl (emissionOf_fillRect (color := color) hw' hh' hx hx' hy hy' hw hh)
    (by simpa using hs)
  have rect : RectInside s.rot x.toInt y.toInt w' h' := by constructor <;> omega
  obtain ⟨no_fault, inside, outside⟩ := painted_rect params_ok ⟨hwf, hf, ho⟩ rect color
  rw [← hpanel] at no_fault inside outside
  exact ⟨t, ht, no_fault, fun i j hi hi' hj hj' => inside i j ⟨hi, hi', hj, hj'⟩,
    fun a ha => outside a fun i j ⟨hi, hi', hj, hj'⟩ => ha i j hi hi' hj hj'⟩

/-- Settles O55: every cell is the image of a place in the logical range, which is painted. -/
theorem fillScreenPaintsEveryCell : Obligations.FillScreenPaintsEveryCell := by
  intro color s hps hwf hl hf ho hs
  obtain ⟨hwidth, hheight⟩ := panelState_sizes hps
  obtain ⟨t, ht, hpanel⟩ := exec_succeeds_panel (i := .fillScreen color) rfl hl rfl
    (by rwa [emissionOf_fillScreen hps, byteCount_windowColors])
  obtain ⟨no_fault, inside, -⟩ := painted_fillScreenEvents params_ok ⟨hwf, hf, ho⟩ color
  rw [emissionOf, hwidth, hheight] at hpanel
  rw [← hpanel] at no_fault inside
  refine ⟨t, ht, no_fault, fun px py hpx hpy => ?_⟩
  obtain ⟨c, r, ⟨hc, hr⟩, hcell⟩ := params_ok.xform_onto s.rot px py hpx hpy
  rw [← hcell]
  exact inside c r ⟨by omega, by omega, by omega, by omega⟩

theorem toNat_toInt_of_nonneg {x : Word} (h : 0 ≤ x.toInt) : x.toInt.toNat = x.toNat :=
  BitVec.toNat_toInt_of_sle (by simpa [BitVec.sle] using h)

/-- Settles O54: the list's whole effect on the panel half, read field by field. -/
theorem drawPixelPaintsItsCell : Obligations.DrawPixelPaintsItsCell := by
  intro x y color s hps hwf hl hf ho hx hx' hy hy' hstrict hs
  obtain ⟨hW, hH⟩ := panelState_extents hps
  obtain ⟨t, ht, hpanel⟩ := exec_succeeds_panel rfl hl (emissionOf_drawPixel (color := color) hx hx' hy hy') hs
  rw [afterEvents_pixel params_ok ⟨hwf, hf, ho⟩ hx (by omega) hy (by omega) ?strict, toNat_toInt_of_nonneg hx, toNat_toInt_of_nonneg hy,
    lo16_toInt, lo16_toInt, lo16_toInt_succ, lo16_toInt_succ] at hpanel
  case strict =>
    intro h
    rcases hstrict with h' | h'
    · simp [h'] at h
    · omega
  refine ⟨t, ht, ?_⟩
  rw [hpanel]
  exact ⟨(dropHalfPixel_wf params hwf).1.trans hf, memRead_memWrite_some _ _ _, fun a ha => memRead_memWrite_other (some color) ha,
    rfl, rfl, rfl, rfl, rfl, rfl, rfl, rfl⟩

/-- Settles O48: the three ways the operation can end; the cell is that of `drawPixelPaintsItsCell`, no half pixel held. -/
theorem drawPixelSendsOneWord : Obligations.DrawPixelSendsOneWord := by
  intro x y color s
  refine ⟨fun hl => exec_notReady rfl hl, fun hl hc => exec_nothing rfl hl (emissionOf_drawPixel_rejected hc),
    fun hl hx hx' hy hy' hs => ⟨?_, fun hright hbottom hps hwf hhalf hf ho => ?_⟩⟩
  · exact exec_succeeds rfl hl ((emissionOf_drawPixel hx hx' hy hy').trans (pixelEvents_eq x y color)) hs
  · obtain ⟨t, ht, -, hcell, hother, -⟩ :=
      drawPixelPaintsItsCell x y color s hps hwf hl hf ho hx hx' hy hy' (.inr ⟨hright, hbottom⟩) hs
    rw [dropHalfPixel_none params hhalf] at hother
    exact ⟨t, ht, hcell, hother⟩

/-! ### `MADCTL` during a drawing (10_state.md R33) -/

theorem pixel_madctl (pix : Word) (q : Panel) : (q.pixel p pix).madctl = q.madctl ∧ (q.pixel p pix).rxmode = q.rxmode := by
  unfold Panel.pixel Panel.advance
  repeat' split
  all_goals exact ⟨rfl, rfl⟩

/-- Outside `P_MADCTL` a data byte leaves `MADCTL` and the mode (41_addressing.md R145). -/
theorem dataByte_keeps_madctl {q : Panel} (b : Byte) (h : q.rxmode ≠ .pMadctl) :
    (q.dataByte p b).madctl = q.madctl ∧ (q.dataByte p b).rxmode ≠ .pMadctl := by
  cases hm : q.rxmode with
  | pMadctl => exact absurd hm h
  | idle => rw [dataByte_idle b hm]; exact ⟨rfl, h⟩
  | pOther => rw [dataByte_other b hm]; exact ⟨rfl, h⟩
  | pCaset =>
    rw [dataByte_caset b hm, Panel.casetByte]
    repeat' split
    all_goals exact ⟨rfl, h⟩
  | pPaset =>
    rw [dataByte_paset b hm, Panel.pasetByte]
    repeat' split
    all_goals exact ⟨rfl, h⟩
  | stream =>
    cases hx : q.pixhi with
    | none => rw [dataByte_latches b hm hx]; exact ⟨rfl, h⟩
    | some hi =>
      rw [dataByte_pixel b hm hx]
      obtain ⟨hmadctl, hmode⟩ := pixel_madctl (p := p) (joinBytes hi b) { q with pixhi := none, pidx := q.pidx + 1 }
      exact ⟨hmadctl, hmode.trans_ne h⟩

theorem openStream_madctl (q : Panel) : (q.openStream p).madctl = q.madctl := by
  unfold Panel.openStream
  repeat' split
  all_goals rfl

/-- A command byte but MADCTL's and SWRESET's leaves `MADCTL`, and the panel half is not in `P_MADCTL` after it
(41_addressing.md R146). -/
theorem command_madctl {b : Byte} (hm : b ≠ p.cMadctl) (hs : b ≠ p.cSwreset) (q : Panel) :
    (q.command p b).madctl = q.madctl ∧ (q.command p b).rxmode ≠ .pMadctl := by
  unfold Panel.command
  split_ifs
  · simp [Panel.caset]
  · simp [Panel.paset]
  · simp [Panel.ramwr, openStream_madctl, openStream_rxmode]
  · simp [Panel.otherCommand]

/-- An event but those two commands, a command or received outside `P_MADCTL`, leaves `MADCTL` and ends outside `P_MADCTL`. -/
theorem receive_madctl {q : Panel} {e : Event} (hm : e ≠ .cmd p.cMadctl) (hs : e ≠ .cmd p.cSwreset)
    (h : q.rxmode ≠ .pMadctl ∨ ∃ b, e = .cmd b) :
    (q.receive p e).madctl = q.madctl ∧ (q.receive p e).rxmode ≠ .pMadctl := by
  cases e with
  | cmd b => exact command_madctl (by simpa using hm) (by simpa using hs) q
  | data b => exact dataByte_keeps_madctl b (by simpa using h)
  | delay ms => exact ⟨rfl, h.resolve_right (by simp)⟩

/-- A list without those two commands, begun by a command or received outside `P_MADCTL`, leaves `MADCTL`. -/
theorem afterEvents_madctl {es : List Event} {q : Panel} (hm : .cmd p.cMadctl ∉ es) (hs : .cmd p.cSwreset ∉ es)
    (h : q.rxmode ≠ .pMadctl ∨ ∀ e ∈ es.head?, ∃ b, e = .cmd b) : (q.afterEvents p es).madctl = q.madctl := by
  induction es generalizing q with
  | nil => rfl
  | cons e es ih =>
    rw [List.mem_cons, not_or] at hm hs
    obtain ⟨hmadctl, hmode⟩ := receive_madctl (Ne.symm hm.1) (Ne.symm hs.1) (h.imp_right fun h => h e rfl)
    exact (ih hm.2 hs.2 (.inl hmode)).trans hmadctl

theorem cMadctl_ne (hp : p.Ok) : p.cMadctl ≠ p.cCaset ∧ p.cMadctl ≠ p.cPaset ∧ p.cMadctl ≠ p.cRamwr := by
  have h := hp.commands_distinct
  simp only [Params.commandBytes, List.nodup_cons, List.mem_cons, not_or] at h
  tauto

theorem cmd_notMem_pushColors (b : Byte) (color : Word) (n : Nat) : .cmd b ∉ pushColors color n := by
  induction n with
  | zero => exact List.not_mem_nil
  | succ n ih => simp [pushColors, pushColor, ih]

/-- Every front of a window and its colour words leaves `MADCTL`, and so the orientation. -/
theorem afterEvents_prefix_ori (hp : p.Ok) {a b c d : Int} {color : Word} {n : Nat} {fs : List Event}
    (hfs : fs <+: addrWindow p a b c d ++ pushColors color n) (q : Panel) : (q.afterEvents p fs).ori p = q.ori p := by
  have absent {b' : Byte} (hb : b' ≠ p.cCaset ∧ b' ≠ p.cPaset ∧ b' ≠ p.cRamwr) : .cmd b' ∉ fs := fun hmem => by
    rcases List.mem_append.mp (hfs.mem hmem) with h | h
    · simp [addrWindow, coordinateBytes, hb] at h
    · exact cmd_notMem_pushColors b' color n h
  have first : ∀ e ∈ fs.head?, ∃ b, e = .cmd b := fun e he => by
    obtain ⟨gs, hgs⟩ := hfs
    have hhead := List.mem_head?_append_of_mem_head? (t := gs) he
    rw [hgs] at hhead
    exact ⟨p.cCaset, by simpa [addrWindow, eq_comm] using hhead⟩
  obtain ⟨hcaset, hpaset, hramwr, -⟩ := cSwreset_ne hp
  rw [Panel.ori, Panel.ori, afterEvents_madctl (absent (cMadctl_ne hp)) (absent ⟨hcaset, hpaset, hramwr⟩) (.inr first)]

/-! ### Drawing keeps the halves in step (42_drawing.md R189, 70_reset_and_hazards.md R273) -/

theorem fillRectEvents_noFault (hp : p.Ok) {o : Rot} {q : Panel} (hq : q.InStep p o) (x y w h : Int) (color : Word) :
    (q.afterEvents p (fillRectEvents p (ext o).1 (ext o).2 x y w h color)).pfault = false := by
  cases hc : clipRect (ext o).1 (ext o).2 x y w h with
  | none => rw [fillRectEvents, hc]; exact hq.no_fault
  | some size => exact (painted_fillRectEvents hp hq hc color).no_fault

theorem drawPixelEvents_noFault (hp : p.Ok) (hs : p.strictWindow = false) {o : Rot} {q : Panel} (hq : q.InStep p o) (x y : Int)
    (color : Word) : (q.afterEvents p (drawPixelEvents p (ext o).1 (ext o).2 x y color)).pfault = false := by
  by_cases hn : x < 0 ∨ y < 0 ∨ ((ext o).1 : Int) ≤ x ∨ ((ext o).2 : Int) ≤ y
  · rw [drawPixelEvents_none p color hn]
    exact hq.no_fault
  · rw [drawPixelEvents_some p color hn, afterEvents_pixel hp hq (by omega) (by omega) (by omega) (by omega) (by simp [hs])]
    exact (dropHalfPixel_wf p hq.wf).1.trans hq.no_fault

theorem draws_ne {i : Instr} (h : i.draws = true) : i ≠ .begin ∧ ∀ m, i ≠ .setRotation m := by
  constructor
  · rintro rfl
    cases h
  · rintro m rfl
    cases h

/-- An operation that transmits and is no BEGIN takes the panel half through the front of its emission list that is delivered: all of
it, or what stands before the first failing byte, or, refused, nothing. -/
theorem exec_transmits_panel {i : Instr} {s t : State} (h : i.transmits = true) (ht : exec i s = .next t) :
    ∃ fs, fs <+: emissionOf params i s.toBlock ∧ t.panel = s.panel.afterEvents params fs := by
  rcases exec_cases s h with ⟨-, e⟩ | ⟨-, -, e⟩ | ⟨-, k, -, -, e⟩ <;> rw [e] at ht <;> cases ht
  · exact ⟨[], List.nil_prefix, rfl⟩
  · exact ⟨_, List.prefix_refl _, by simp⟩
  · obtain ⟨fs, hfs⟩ := beforeByte_append_rest k (emissionOf params i s.toBlock)
    exact ⟨_, ⟨fs, hfs.symm⟩, by simp⟩

/-- Where the whole list leaves no fault, no front of it does, for no event clears `PFAULT` (10_state.md R35). -/
theorem afterEvents_prefix_noFault {fs es : List Event} (hfs : fs <+: es) {q : Panel} (h : (q.afterEvents p es).pfault = false) :
    (q.afterEvents p fs).pfault = false := by
  obtain ⟨gs, rfl⟩ := hfs
  rw [afterEvents_append] at h
  cases hf : (q.afterEvents p fs).pfault with
  | false => rfl
  | true => exact absurd (afterEvents_sticky gs hf) (by rw [h]; exact Bool.false_ne_true)

/-- A drawing operation's whole list does not fault a panel half in step, where `STRICT_WINDOW` is false (decision D27). -/
theorem emissionOf_draws_noFault (hp : p.Ok) (hs : p.strictWindow = false) {i : Instr} (hi : i.draws = true) {s : Block}
    (hps : s.PanelStateOk) (hq : s.panel.InStep p s.rot) : (s.panel.afterEvents p (emissionOf p i s)).pfault = false := by
  obtain ⟨hwidth, hheight⟩ := panelState_sizes hps
  cases i with
  | drawPixel x y color =>
    rw [emissionOf, hwidth, hheight]
    exact drawPixelEvents_noFault hp hs hq _ _ color
  | fillRect | fillScreen | drawFastHLine | drawFastVLine =>
    rw [emissionOf, hwidth, hheight]
    exact fillRectEvents_noFault hp hq _ _ _ _ _
  | _ => cases hi

/-- The front of a drawing operation's list that is delivered keeps a panel half in step. -/
theorem inStep_draws_prefix (hp : p.Ok) (hs : p.strictWindow = false) {i : Instr} (hi : i.draws = true) {s : Block}
    (hps : s.PanelStateOk) (hq : s.panel.InStep p s.rot) {fs : List Event} (hfs : fs <+: emissionOf p i s) :
    (s.panel.afterEvents p fs).InStep p s.rot where
  wf := afterEvents_wf hp fs hq.wf
  no_fault := afterEvents_prefix_noFault hfs (emissionOf_draws_noFault hp hs hi hps hq)
  orientation := by
    obtain ⟨hb, hr⟩ := draws_ne hi
    rcases emissionOf_shape p i s hb hr with he | ⟨a, b, c, d, color, n, he⟩ <;> rw [he] at hfs
    · rw [List.prefix_nil.mp hfs]
      exact hq.orientation
    · exact (afterEvents_prefix_ori hp hfs s.panel).trans hq.orientation

/-- Settles O56: the panel half takes a front of the operation's list, which keeps it in step; PanelState is not written. -/
theorem drawingNeverFaultsThePanel : Obligations.DrawingNeverFaultsThePanel := by
  intro i s t hi hs hps hwf hf ho ht
  obtain ⟨hrot, hwidth, hheight⟩ := (controllerRegistersChangeOnlyByTheirOperation i s t ht).1 (draws_ne hi).2
  obtain ⟨fs, hfs, hpanel⟩ := exec_transmits_panel (draws_transmits hi) ht
  obtain ⟨wf, no_fault, orientation⟩ := inStep_draws_prefix params_ok hs hi hps ⟨hwf, hf, ho⟩ hfs
  rw [← hpanel] at wf no_fault orientation
  exact ⟨by simpa only [Block.PanelStateOk, hrot, hwidth, hheight] using hps, wf, no_fault, hrot ▸ orientation⟩

end Sys2Proof.Machine
end

section
/-! PROOFS. The rotation's statements (43_rotation.md): what SET_ROTATION leaves of the whole state, what it and its cut forms do to the
panel half, and who brings the two halves' orientations together. -/

namespace Sys2Proof.Machine

variable {p : Params}

/-! ### The operand and the extents (43_rotation.md R210, R211) -/

/-- `m mod 4` as a rotation. -/
theorem rotationOf_eq {m : Word} {r : Rot} (h : r.val = m.toNat % 4) : rotationOf m = r := Fin.ext h.symm

/-- The logical width of a rotation, by its parity (10_state.md R22). -/
theorem ofNat_ext_fst (r : Rot) : BitVec.ofNat 16 (ext r).1 = if r.val % 2 = 0 then 320 else 480 := by
  unfold ext
  split <;> rfl

/-- The logical height of a rotation, by its parity (10_state.md R22). -/
theorem ofNat_ext_snd (r : Rot) : BitVec.ofNat 16 (ext r).2 = if r.val % 2 = 0 then 480 else 320 := by
  unfold ext
  split <;> rfl

/-- A rotation has the parity of its operand. -/
theorem rotationOf_parity (m : Word) : (rotationOf m).val % 2 = m.toNat % 2 :=
  Nat.mod_mod_of_dvd m.toNat (by decide)

/-! ### The panel half under the two bytes (41_addressing.md R155, R159) -/

/-- The panel half when the MADCTL command and its byte have arrived (41_addressing.md R159). -/
def Panel.oriented (p : Params) (b : Byte) (q : Panel) : Panel := { q.madctlCommand p with pidx := 1, madctl := some b }

/-- The receiver tells the MADCTL command apart from the others (41_addressing.md R146). -/
theorem receive_cMadctl (hp : p.Ok) (q : Panel) : q.receive p (.cmd p.cMadctl) = q.madctlCommand p := by
  obtain ⟨-, -, -, madctl, -⟩ := command_cases hp q
  exact madctl

/-- The panel half after SET_ROTATION's whole list (43_rotation.md R210). -/
theorem afterEvents_rotationEvents (hp : p.Ok) (r : Rot) (q : Panel) :
    q.afterEvents p (rotationEvents p r) = q.oriented p (p.madctlTable r) := by
  rw [rotationEvents, afterEvents_cons, receive_cMadctl hp]
  rfl

/-- A table byte is read as the rotation it stands for (43_rotation.md R218). -/
theorem oriented_ori (hp : p.Ok) (r : Rot) (q : Panel) : (q.oriented p (p.madctlTable r)).ori p = some r :=
  orientationOf_table hp r

/-- What arrives of the two bytes: none, the command alone, or both. -/
theorem rotationEvents_prefix_cases {r : Rot} {fs : List Event} (h : fs <+: rotationEvents p r) :
    fs = [] ∨ fs = [.cmd p.cMadctl] ∨ fs = rotationEvents p r := by
  simp only [rotationEvents, List.prefix_cons_iff, List.prefix_nil] at h ⊢
  rcases h with rfl | ⟨gs, rfl, rfl | ⟨hs, rfl, rfl⟩⟩ <;> simp

/-- Everything SET_ROTATION can do to the panel half (43_rotation.md R210, R212). -/
theorem exec_setRotation_panel {m : Word} {s t : State} (ht : exec (.setRotation m) s = .next t) :
    t.panel = s.panel ∨ t.panel = s.panel.madctlCommand params ∨
    t.panel = s.panel.oriented params (params.madctlTable (rotationOf m)) := by
  obtain ⟨fs, hfs, hpanel⟩ := exec_transmits_panel rfl ht
  rcases rotationEvents_prefix_cases hfs with rfl | rfl | rfl
  · exact .inl hpanel
  · exact .inr (.inl (hpanel.trans (receive_cMadctl params_ok _)))
  · exact .inr (.inr (hpanel.trans (afterEvents_rotationEvents params_ok _ _)))

/-- The panel half `t` has the cells and the window of `q`. -/
structure Panel.SamePicture (q t : Panel) : Prop where
  gram : t.gram = q.gram
  sc : t.sc = q.sc
  ec : t.ec = q.ec
  sp : t.sp = q.sp
  ep : t.ep = q.ep

/-- With no half pixel held, SET_ROTATION leaves the cells and the window, whatever the transport answers (43_rotation.md R219). -/
theorem exec_setRotation_samePicture {m : Word} {s t : State} (hx : s.panel.pixhi = none)
    (ht : exec (.setRotation m) s = .next t) : s.panel.SamePicture t.panel := by
  have command : s.panel.SamePicture (s.panel.madctlCommand params) := by
    rw [Panel.madctlCommand, Panel.startCommand, dropHalfPixel_none params hx]
    exact ⟨rfl, rfl, rfl, rfl, rfl⟩
  rcases exec_setRotation_panel ht with h | h | h <;> rw [h]
  · exact ⟨rfl, rfl, rfl, rfl, rfl⟩
  · exact command
  · exact { command with }

/-! ### SET_ROTATION (43_rotation.md R210, R212) -/

/-- SET_ROTATION in READY, both transmits succeeding. -/
theorem exec_setRotation_succeeds (m : Word) {s : State} (hl : s.life = .ready) (hs : s.Succeeds 2) :
    exec (.setRotation m) s = .next (s.onBlock fun b =>
      complete (commitRotation (rotationOf m) (b.allDelivered params (rotationEvents params (rotationOf m))))) :=
  exec_succeeds rfl hl rfl hs

/-- SET_ROTATION in READY, the transmit of byte number `k` being the first to fail. -/
theorem exec_setRotation_fails (m : Word) {s : State} (hl : s.life = .ready) {k : Nat} (hk : k < 2) (hf : s.FailsAt k) :
    exec (.setRotation m) s = .next (s.onBlock fun b =>
      raise .transmitFailure (b.cutOff params k (rotationEvents params (rotationOf m)))) :=
  exec_fails rfl hl rfl hk hf

/-- A SET_ROTATION that answers OK has delivered both bytes and committed the rotation (43_rotation.md R210). -/
theorem exec_setRotation_ok {m : Word} {s t : State} (ht : exec (.setRotation m) s = .next t)
    (hok : t.responses = s.responses ++ [⟨.ok, 0⟩]) :
    t.rot = rotationOf m ∧ t.panel = s.panel.oriented params (params.madctlTable (rotationOf m)) := by
  rcases exec_cases (i := .setRotation m) s rfl with ⟨-, e⟩ | ⟨-, -, e⟩ | ⟨-, k, -, -, e⟩ <;>
    rw [e] at ht <;> injection ht with ht <;> subst ht
  · simp at hok
  · exact ⟨rfl, afterEvents_rotationEvents params_ok _ _⟩
  · simp at hok

/-- Settles O27: the three ways the operation can end; the panel half keeps its picture in each. -/
theorem setRotationFollowsItsRule : Obligations.SetRotationFollowsItsRule := by
  intro m s r hr
  obtain rfl := rotationOf_eq hr
  refine ⟨fun hl => exec_notReady rfl hl, fun hl hs => ?_, fun hl k hk hf => ?_, fun t hx ht => ?_⟩
  · rw [exec_setRotation_succeeds m hl hs, ← ofNat_ext_fst, ← ofNat_ext_snd]
    rfl
  · exact ⟨_, exec_setRotation_fails m hl hk hf, rfl, rfl, rfl, rfl, rfl⟩
  · obtain ⟨gram, sc, ec, sp, ep⟩ := exec_setRotation_samePicture hx ht
    exact ⟨fun _ _ => by rw [gram], sc, ec, sp, ep⟩

/-- Settles O28: the three ways the operation can end, the panel half written out over the half pixel that the command drops. -/
theorem setRotationFieldByField : Obligations.SetRotationFieldByField := by
  intro m s
  refine ⟨fun hl => exec_notReady rfl hl, fun hl hs => ?_, fun hl hf => ?_, fun hl hf => ?_⟩
  · rw [exec_setRotation_succeeds m hl hs, ← rotationOf_parity, ← ofNat_ext_fst, ← ofNat_ext_snd, State.onBlock,
      Block.allDelivered, afterEvents_rotationEvents params_ok]
    rfl
  · rw [exec_setRotation_fails m hl Nat.two_pos hf, State.onBlock, Block.cutOff, rotationEvents, beforeByte, List.append_nil]
    rfl
  · rw [exec_setRotation_fails m hl Nat.one_lt_two hf, State.onBlock, Block.cutOff, rotationEvents, beforeByte, beforeByte,
      afterEvents_cons, receive_cMadctl params_ok]
    rfl

/-- Settles O29: the picture is kept whatever the transport answers; the byte that both transmits deliver is the new rotation's. -/
theorem rotationMovesNoPixel : Obligations.RotationMovesNoPixel := by
  intro m s t hl _ hx hs ht
  obtain ⟨gram, sc, ec, sp, ep⟩ := exec_setRotation_samePicture hx ht
  have hok : t.responses = s.responses ++ [⟨.ok, 0⟩] := by
    rw [exec_setRotation_succeeds m hl hs] at ht
    injection ht with ht
    rw [← ht]
    rfl
  obtain ⟨hrot, hpanel⟩ := exec_setRotation_ok ht hok
  rw [hpanel] at gram sc ec sp ep ⊢
  have hpfault : (s.panel.oriented params (params.madctlTable (rotationOf m))).pfault = s.panel.pfault := by
    rw [Panel.oriented, Panel.madctlCommand, startCommand_pfault, dropHalfPixel_none params hx]
  exact ⟨fun _ _ => by rw [gram], sc, ec, sp, ep, RxMode.noConfusion, hpfault, hrot ▸ oriented_ori params_ok _ _⟩

/-! ### Orientation agreement (43_rotation.md R218) -/

/-- A request but BEGIN and SET_ROTATION keeps the orientation: it delivers a front of one window and its colour words, or nothing. -/
theorem execForRequest_ori {r : Req} (hb : decodeRequest r ≠ .begin) (hr : ∀ m, decodeRequest r ≠ .setRotation m) (hp : p.Ok)
    (ω : Oracle) (s : Block) : (execFor p ω (decodeRequest r) s).panel.ori p = s.panel.ori p := by
  obtain ⟨fs, hfs, hpanel⟩ := execForRequest_panel (p := p) (ω := ω) hb s
  rw [hpanel]
  rcases emissionOf_shape p (decodeRequest r) s hb hr with he | ⟨a, b, c, d, color, n, he⟩ <;> rw [he] at hfs
  · rw [List.prefix_nil.mp hfs, afterEvents_nil]
  · exact afterEvents_prefix_ori hp hfs s.panel

/-- A BEGIN that answers OK has delivered its whole list (40_init.md R120). -/
theorem exec_begin_ok {s t : State} (ht : exec .begin s = .next t) (hok : t.responses = s.responses ++ [⟨.ok, 0⟩]) :
    t.rot = s.rot ∧ t.panel = s.panel.afterEvents params (beginEvents params) := by
  rcases exec_begin_cases s with ⟨-, e⟩ | ⟨-, -, e⟩ | ⟨u, hu, ⟨-, e⟩ | ⟨k, -, -, e⟩⟩ <;>
    rw [e] at ht <;> injection ht with ht <;> subst ht
  · simp at hok
  · simp at hok
  · rcases hu with ⟨-, -, rfl⟩ | ⟨-, rfl⟩ <;> exact ⟨rfl, rfl⟩
  · rcases hu with ⟨-, -, rfl⟩ | ⟨-, rfl⟩ <;> simp at hok

/-- Settles O31: both operations, answered OK, have written the byte of the rotation that `ROT` holds; no other request writes either. -/
theorem orientationAgreementIsReachedAndKept : Obligations.OrientationAgreementIsReachedAndKept := by
  refine ⟨fun s t hq hf hrot ht hok => ?_, fun m s t ht hok => ?_, fun r s t hb hr ht => ?_⟩
  · obtain ⟨ht, hpanel⟩ := exec_begin_ok ht hok
    rw [ht, hpanel, hrot, afterEvents_beginEvents params_ok hq hf]
    exact orientationOf_table params_ok 0
  · obtain ⟨hrot, hpanel⟩ := exec_setRotation_ok ht hok
    rw [hrot, hpanel]
    exact oriented_ori params_ok _ _
  · obtain ⟨hrot, -⟩ := (controllerRegistersChangeOnlyByTheirOperation _ s t ht).1 hr
    rw [exec_eq] at ht
    injection ht with ht
    subst ht
    exact ⟨hrot, execForRequest_ori hb hr params_ok s.oracle s.toBlock⟩

end Sys2Proof.Machine
end

section
/-! PROOFS. The statements about errors (60_exceptions.md): the liveness check, the first failing transmit, and what taking an error
leaves unchanged. -/

namespace Sys2Proof.Machine

/-! ### The refusal and the cut (60_exceptions.md R235, R241) -/

/-- Settles O21: the liveness check raises NOT_READY, and taking an error changes no more. -/
theorem notReadyRefusesEveryTransmission : Obligations.NotReadyRefusesEveryTransmission :=
  fun _ _ h hl => exec_notReady h hl

/-- Only BEGIN takes anything back at a failing transmit (40_init.md R126). -/
theorem abortOf_of_ne_begin {i : Instr} (h : i ≠ .begin) (s : Block) : abortOf i s = s := by rw [abortOf_eq, abortOf_life h]

/-- BEGIN past its checks, the transmit of byte number `k` being the first to fail (40_init.md R126). -/
theorem exec_begin_fails {s u : State} {k : Nat}
    (hu : (s.life = .unbegun ∧ s.answerAt 0 = true ∧ u = s.onBlock Block.consume) ∨ (s.life = .ready ∧ u = s))
    (hk : k < byteCount (beginEvents params)) (hf : u.FailsAt k) :
    exec .begin s = .next (u.onBlock fun b =>
      raise .transmitFailure (setLife .failed (b.cutOff params k (beginEvents params)))) := by
  rw [exec_begin_opens hu]
  simp only [State.onBlock, perform_fails hk hf]

/-- Settles O23: the cut of an operation in READY takes nothing back; BEGIN's, from the state that the acquisition leaves, makes `LIFE`
FAILED. -/
theorem firstFailingTransmitCutsTheOperation : Obligations.FirstFailingTransmitCutsTheOperation := by
  refine ⟨fun i s k h hl hk hf => ?_, fun s u k hu hk hf => ?_⟩
  · rw [exec_fails h hl rfl hk hf, State.onBlock, abortOf_of_ne_begin (transmits_ne_begin h)]
    rfl
  · have hresponses : u.responses = s.responses := by rcases hu with ⟨-, -, rfl⟩ | ⟨-, rfl⟩ <;> rfl
    rw [exec_begin_fails hu hk hf, ← hresponses]
    rfl

/-! ### Taking an error (60_exceptions.md R240) -/

section
variable {s t : State} {a : Response}

/-- An operation that transmits and is no BEGIN, answered by an error, has committed no rotation: it was refused or cut. -/
theorem exec_transmits_error_panelState {i : Instr} (h : i.transmits = true) (ht : exec i s = .next t)
    (hr : t.responses = s.responses ++ [a]) (ha : a.status ≠ .ok) :
    t.rot = s.rot ∧ t.width = s.width ∧ t.height = s.height := by
  rcases exec_cases s h with ⟨-, e⟩ | ⟨-, -, e⟩ | ⟨-, k, -, -, e⟩ <;> rw [e] at ht <;> injection ht with ht <;> subst ht
  · exact ⟨rfl, rfl, rfl⟩
  · obtain rfl : (⟨.ok, 0⟩ : Response) = a := by simpa using hr
    exact absurd rfl ha
  · rw [onBlock_toBlock, abortOf_of_ne_begin (transmits_ne_begin h)]
    exact ⟨rfl, rfl, rfl⟩

/-- A BEGIN answered by an error was refused in FAILED, or it leaves FAILED (40_init.md R121, R126, R127). -/
theorem exec_begin_error_life (ht : exec .begin s = .next t) (hr : t.responses = s.responses ++ [a]) (ha : a.status ≠ .ok) :
    t.life = .failed := by
  rcases exec_begin_cases s with ⟨hl, e⟩ | ⟨-, -, e⟩ | ⟨u, hu, ⟨-, e⟩ | ⟨k, -, -, e⟩⟩ <;>
    rw [e] at ht <;> injection ht with ht <;> subst ht
  · exact hl
  · rfl
  · have hresponses : u.responses = s.responses := by rcases hu with ⟨-, -, rfl⟩ | ⟨-, rfl⟩ <;> rfl
    obtain rfl : (⟨.ok, 0⟩ : Response) = a := by simpa [hresponses] using hr
    exact absurd rfl ha
  · rfl

end

/-- Settles O24: a request ends idle; PanelState and `LIFE` are their own operations' to write, SET_ROTATION's and BEGIN's, and of these
an error leaves the one and makes the other FAILED. -/
theorem takingAnErrorSavesNothing : Obligations.TakingAnErrorSavesNothing := by
  intro r s t a ht hr ha
  obtain ⟨t', -, ht', -, hidle, -⟩ := everyRequestIsAnsweredOnce.1 r s
  obtain rfl : t = t' := by simpa using ht.symm.trans ht'
  obtain ⟨panelState, life, -, ⟨program, -, -⟩, -⟩ := controllerRegistersChangeOnlyByTheirOperation _ s t ht
  have kept : t.rot = s.rot ∧ t.width = s.width ∧ t.height = s.height := by
    by_cases hm : ∃ m, decode (.request r) = .setRotation m
    · obtain ⟨m, hm⟩ := hm
      exact exec_transmits_error_panelState (i := .setRotation m) rfl (hm ▸ ht) hr ha
    · exact panelState fun m h => hm ⟨m, h⟩
  obtain ⟨hrot, hwidth, hheight⟩ := kept
  refine ⟨hidle, hrot, hwidth, hheight, program, ?_⟩
  by_cases hb : decode (.request r) = .begin
  · exact .inr ⟨hb, exec_begin_error_life (hb ▸ ht) hr ha⟩
  · exact .inl (life hb)

end Sys2Proof.Machine
end

section
/-! PROOFS. The statements about reset and hazards (70_reset_and_hazards.md): what a step does that runs no code word, and how many bytes
each operation sends. -/

namespace Sys2Proof.Machine

variable {p : Params}

/-! ### One event of an operation in progress (10_state.md R25, R26, 60_exceptions.md R241) -/

section
variable {ω : Oracle} {r : Req} {i : Nat} {e : Event} {b t : Block}

/-- An event sent moves the operation on, or, the last one, ends it. -/
theorem tick_sent (he : (emissionOf p (decodeRequest r) b)[i]? = some e) (hs : b.send p ω e = (t, true)) :
    tick p ω r i b =
      if i + 1 < (emissionOf p (decodeRequest r) b).length then { t with seq := .busy r (i + 1) }
      else complete (commitOf (decodeRequest r) t) := by
  simp only [tick, he, hs]

/-- An event whose transmit fails ends the operation. -/
theorem tick_cut (he : (emissionOf p (decodeRequest r) b)[i]? = some e) (hs : b.send p ω e = (t, false)) :
    tick p ω r i b = raise .transmitFailure (abortOf (decodeRequest r) t) := by
  simp only [tick, he, hs]

end

/-- The end of an operation, register by register: BEGIN commits `LIFE`, SET_ROTATION the rotation and the size (40_init.md R120,
43_rotation.md R211, R212). -/
theorem complete_commitOf (i : Instr) (b : Block) :
    complete (commitOf i b) = { b with
      seq := .idle, responses := b.responses ++ [⟨.ok, 0⟩]
      life := if i = .begin then .ready else b.life
      rot := (match i with | .setRotation m => Fin.ofNat 4 m.toNat | _ => b.rot)
      width := (match i with | .setRotation m => if m.toNat % 2 = 0 then 320 else 480 | _ => b.width)
      height := (match i with | .setRotation m => if m.toNat % 2 = 0 then 480 else 320 | _ => b.height) } := by
  cases i with
  | setRotation m =>
    simp only [← rotationOf_parity m, ← ofNat_ext_fst, ← ofNat_ext_snd]
    rfl
  | _ => rfl

/-- The end of an operation at a failing transmit, register by register (40_init.md R126, 60_exceptions.md R240). -/
theorem raise_abortOf (st : Status) (i : Instr) (b : Block) :
    raise st (abortOf i b) = { b with
      seq := .idle, responses := b.responses ++ [⟨st, 0⟩], life := if i = .begin then .failed else b.life } := by
  cases i <;> rfl

/-- A step of an operation in progress is its next event. -/
theorem step_busy {s : State} {r : Req} {i : Nat} (hb : s.bench = none) (hq : s.seq = .busy r i) :
    step s = .next { s with toBlock := tick params s.oracle r i s.toBlock } := by
  rw [step_eq, State.onBlock, stepFor_busy hb hq]

/-- A step whose event is sent moves the operation on, or, the event the last one, ends it. -/
theorem step_goesOn {s u : State} {r : Req} {i : Nat} {e : Event} (hb : s.bench = none) (hq : s.seq = .busy r i)
    (he : (emissionOf params (decodeRequest r) s.toBlock)[i]? = some e)
    (sent : s.send params s.oracle e = (u.toBlock, true)) (answers : u.answers = s.answers) :
    (i + 1 < (emissionOf params (decodeRequest r) s.toBlock).length → step s = .next { u with seq := .busy r (i + 1) }) ∧
    (i + 1 = (emissionOf params (decodeRequest r) s.toBlock).length →
      step s = .next { u with toBlock := complete (commitOf (decodeRequest r) u.toBlock) }) := by
  rw [step_busy hb hq, tick_sent he sent, answers]
  exact ⟨fun h => by rw [if_pos h], fun h => by rw [if_neg (by omega)]⟩

/-- Settles O7: of an operation in progress, by whether the transmit of its next event succeeds. -/
theorem stepWaitsPowersUpOrGoesOn : Obligations.StepWaitsPowersUpOrGoesOn := by
  intro s hb
  refine ⟨fun hq hi => ?_, fun rest hq hi => ?_, fun r i e hq he u hu => ?_, fun r i e d hq he ha hd => ?_⟩
  · rw [step_eq, State.onBlock, stepFor_waits hb hq hi]
  · rw [step_eq, State.onBlock, stepFor_input hb hq hi]
    rfl
  · obtain ⟨sent, answers⟩ : s.send params s.oracle e = (u.toBlock, true) ∧ u.answers = s.answers := by
      rcases hu with ⟨b, rfl, ha, rfl⟩ | ⟨b, rfl, ha, rfl⟩ | ⟨ms, rfl, rfl⟩
      · exact ⟨send_byte_succeeds rfl ha, rfl⟩
      · exact ⟨send_byte_succeeds rfl ha, rfl⟩
      · exact ⟨send_delay .., rfl⟩
    obtain ⟨hresponses, hlife, hrot, hwidth, hheight⟩ :
        u.responses = s.responses ∧ u.life = s.life ∧ u.rot = s.rot ∧ u.width = s.width ∧ u.height = s.height := by
      rcases hu with ⟨b, -, -, rfl⟩ | ⟨b, -, -, rfl⟩ | ⟨ms, -, rfl⟩ <;> exact ⟨rfl, rfl, rfl, rfl, rfl⟩
    obtain ⟨next, last⟩ := step_goesOn hb hq he sent answers
    rw [complete_commitOf, hresponses, hlife, hrot, hwidth, hheight] at last
    exact ⟨next, last⟩
  · have cut : s.send params s.oracle e = ({ s.toBlock.consume with dc := some d }, false) := by
      rcases hd with ⟨b, rfl, rfl⟩ | ⟨b, rfl, rfl⟩
      · exact send_byte_fails rfl ha
      · exact send_byte_fails rfl ha
    rw [step_busy hb hq, tick_cut he cut, raise_abortOf]
    rfl

/-! ### The byte counts (70_reset_and_hazards.md R277) -/

/-- One write of the tuning table: the command byte and its data bytes. -/
theorem byteCount_entryEvents (e : InitEntry) : byteCount (entryEvents e) = 1 + e.data.length := by
  rw [entryEvents, byteCount_cmd, byteCount, List.countP_map, Nat.add_comm]
  exact congrArg (1 + ·) (List.countP_eq_length.mpr fun _ _ => rfl)

/-- BEGIN: five bytes before the table, two after it. -/
theorem byteCount_beginEvents (p : Params) :
    byteCount (beginEvents p) = 7 + (p.initTable.map fun e => 1 + e.data.length).sum := by
  have table : byteCount (p.initTable.flatMap entryEvents) = (p.initTable.map fun e => 1 + e.data.length).sum := by
    rw [byteCount, List.countP_flatMap]
    exact congrArg List.sum (List.map_congr_left fun e _ => byteCount_entryEvents e)
  rw [beginEvents, byteCount_append, byteCount_append, table]
  change 5 + _ + 2 = _
  omega

section
variable {width height : Int}

/-- A pixel in range sends its window and one colour word, any other nothing (42_drawing.md R180). -/
theorem byteCount_drawPixelEvents (x y : Int) (color : Word) :
    byteCount (drawPixelEvents p width height x y color) = if 0 ≤ x ∧ x < width ∧ 0 ≤ y ∧ y < height then 13 else 0 := by
  split
  · rw [drawPixelEvents_some p color (by omega), byteCount_append, byteCount_addrWindow, byteCount_pushColor]
  · rw [drawPixelEvents_none p color (by omega), byteCount_nil]

/-- A positive size at an origin in range sends a window and the clamped area's colour words, any other rectangle nothing
(42_drawing.md R182). -/
theorem byteCount_fillRectEvents (x y w h : Int) (color : Word) :
    byteCount (fillRectEvents p width height x y w h color) =
      if 0 ≤ x ∧ x < width ∧ 0 ≤ y ∧ y < height ∧ 0 < w ∧ 0 < h then
        11 + 2 * (min w (width - x) * min h (height - y)).toNat else 0 := by
  split
  · next hin =>
    obtain ⟨hx, hx', hy, hy', hw, hh⟩ := hin
    rw [fillRectEvents_some p color hx hx' hy hy' hw hh, byteCount_append, byteCount_addrWindow, byteCount_pushColors]
  · rw [fillRectEvents_none p color (by omega), byteCount_nil]

/-- The line's rectangle is one pixel high (42_drawing.md R186). -/
theorem byteCount_hLineEvents (x y length : Int) (color : Word) :
    byteCount (hLineEvents p width height x y length color) =
      if 0 ≤ x ∧ x < width ∧ 0 ≤ y ∧ y < height ∧ 0 < length then 11 + 2 * (min length (width - x)).toNat else 0 := by
  rw [hLineEvents, byteCount_fillRectEvents]
  simp only [zero_lt_one, and_true]
  refine if_ctx_congr Iff.rfl (fun hin => ?_) fun _ => rfl
  rw [min_eq_left (show 1 ≤ height - y by omega), mul_one]

/-- The line's rectangle is one pixel wide (42_drawing.md R187). -/
theorem byteCount_vLineEvents (x y length : Int) (color : Word) :
    byteCount (vLineEvents p width height x y length color) =
      if 0 ≤ x ∧ x < width ∧ 0 ≤ y ∧ y < height ∧ 0 < length then 11 + 2 * (min length (height - y)).toNat else 0 := by
  rw [vLineEvents, byteCount_fillRectEvents]
  simp only [zero_lt_one, true_and]
  refine if_ctx_congr Iff.rfl (fun hin => ?_) fun _ => rfl
  rw [min_eq_left (show 1 ≤ width - x by omega), one_mul]

end

/-- The whole screen's colour words, in either orientation (42_drawing.md R185). -/
theorem byteCount_fillScreenEvents (o : Rot) (color : Word) :
    byteCount (fillScreenEvents p (ext o).1 (ext o).2 color) = 307211 := by
  obtain ⟨hw, hh⟩ := ext_pos o
  rw [fillScreenEvents, byteCount_fillRectEvents, if_pos (by omega), sub_zero, sub_zero, min_self, min_self, ← Nat.cast_mul,
    ext_area, Int.toNat_natCast]

/-- Settles O57: each operation's list has its own count. -/
theorem operationsHaveTheirByteCounts : Obligations.OperationsHaveTheirByteCounts :=
  fun p o x y w h _ _ _ _ color =>
    ⟨byteCount_beginEvents p, byteCount_rotationEvents p o, byteCount_addrWindow .., byteCount_drawPixelEvents x y color,
      byteCount_fillRectEvents x y w h color, byteCount_fillScreenEvents o color, byteCount_hLineEvents x y w color,
      byteCount_vLineEvents x y h color⟩

end Sys2Proof.Machine
end
